-- ==== Sys2Proof/Word.lean ====
section
/-! DEFINITION. The bit vectors of the HUFF codec block and their plainest arithmetic (spec 00_scope.md R4, R5, R12). -/

namespace Sys2Proof

/-- A 32-bit word: a command word, a host-visible register, a count, a weight or a node word (R5: CW = XLEN = 32). -/
abbrev Word := BitVec 32

/-- A byte of the two streams, which is also a symbol, "one input byte value (0–255)" (R4: SYMW = BYTEW = 8). -/
abbrev Byte := BitVec 8

/-- A node index, 9 bits (R5: IDXW = 9). -/
abbrev Idx := BitVec 9

/-- A byte address of the register port, 15 bits (R5: HADDRW = 15). -/
abbrev Addr := BitVec 15

/-- The path bits of one code: at most 255, bit k the k-th edge from the root (R4: MAXLEN = 255; R15). -/
abbrev PathBits := BitVec 255

/-- `zext_32(v)` of R12: v widened to 32 bits with zeros. -/
abbrev zext32 {n : Nat} (v : BitVec n) : Word := v.setWidth 32

end Sys2Proof
end

