-- ==== Sys2Proof/Config.lean ====
section
/-! DEFINITION. What the spec fixes once for the block (00_scope.md R4, R5), and the free values it leaves open. -/

namespace Sys2Proof

/-- The sink's answer to one `SnkWrite` (20_memory.md R74). -/
inductive SinkAnswer where
  /-- The sink appended the byte. -/
  | ok
  /-- The sink did not append it. -/
  | err
  deriving DecidableEq, Repr, Inhabited

namespace Config

/-- Entries of the count table and of the code table (R4: NSYM). -/
abbrev nsym : Nat := 256

/-- Entries of the node arena (R5: NNODE). -/
abbrev nnode : Nat := 511

/-- The greatest code length in bits (R4: MAXLEN). -/
abbrev maxLen : Nat := 255

/-- The least number of distinct symbols BUILD accepts (R4: MINSYMS). -/
abbrev minSyms : Nat := 2

/-- The largest symbol total COUNT can hold, 2^32-1 (40_count.md R123). -/
abbrev maxCount : Word := 0xFFFFFFFF#32

/-- FREE VALUE (log entry 4, DESIGN CHOICE). The sink's answer to the n-th write that no listed answer covers: "an input of the step,
not a function of the block's state" (20_memory.md R75). -/
opaque sinkAnswer : Nat → SinkAnswer

/-- FREE VALUE (log entry 6, DESIGN CHOICE). What the arena entry of an index above 510 would read as in NODE; no rule forms such an
index (20_memory.md R79). -/
opaque offArenaNode : Idx → Word

/-- FREE VALUE (log entry 6). The same for WGT. -/
opaque offArenaWeight : Idx → Word

end Config

end Sys2Proof
end

