-- ==== Sys2Proof/Syntax.lean ====
section
/-! DEFINITION. The commands of the block (30_encoding.md R103), and the host actions a program is made of (R108). -/

namespace Sys2Proof

/-- The eight commands, the block's counterpart of instructions. None has an operand but the flag L, which tells
DECODE from DECODEN (30_encoding.md R101, R103). -/
inductive Instr where
  /-- RESET (45_system.md R220). -/
  | reset
  /-- COUNT (40_count.md R120). -/
  | count
  /-- BUILD (41_build.md R130). -/
  | build
  /-- GENCODE (42_gencode.md R160). -/
  | gencode
  /-- ENCODE (43_encode.md R180). -/
  | encode
  /-- FLUSH (43_encode.md R190). -/
  | flush
  /-- DECODE, L = 0 (44_decode.md R200). -/
  | decode
  /-- DECODEN, L = 1 (44_decode.md R210). -/
  | decoden
  deriving DecidableEq, Repr

/-- What the host does between commands (30_encoding.md R108). A name of the program text is a number here
(log entry 13, DESIGN CHOICE). A command line is `memWrite` of its word to address 0; `WR SYMLIM, v` is `memWrite` of v to 0x00C. -/
inductive HostAction where
  /-- `LOADSRC b0 b1 ...`: replace the source sequence. -/
  | loadSrc (bytes : List Byte)
  /-- `LOADSRC name`: replace the source by a sequence taken earlier. -/
  | loadSrcName (name : Nat)
  /-- `TAKESNK -> name`: take the sink's contents. -/
  | takeSnk (name : Nat)
  /-- `MemWrite(addr, n, v)` on the register port (20_memory.md R63). -/
  | memWrite (addr : Addr) (n : Nat) (v : Word)
  /-- `MemRead(addr, n)` on the register port (20_memory.md R62); the data goes to the name, as in `RD reg -> name`. -/
  | memRead (addr : Addr) (n : Nat) (name : Nat)
  /-- `HARDRESET`: assert `rst` (70_reset_and_hazards.md R260). -/
  | hardReset
  /-- `SINK accepts m`: the next m writes are answered OK and the one after ERR. -/
  | sinkAccepts (m : Nat)
  deriving DecidableEq, Repr

end Sys2Proof
end

