-- ==== Sys2Proof/WellFormed.lean ====
section
/-! DEFINITION. What a well-formed command word, command and program of host actions is (30_encoding.md R100 to R108). -/

namespace Sys2Proof

namespace CommandWord

/-- The field OPC, bits 7..0 (30_encoding.md R100). -/
def opc (w : Word) : BitVec 8 := w.extractLsb' 0 8

/-- The field L, bit 8 (R100). -/
def limit (w : Word) : Bool := w.getLsbD 8

/-- The reserved field, bits 31..9 (R100). -/
def reserved (w : Word) : BitVec 23 := w.extractLsb' 9 23

/-- OPC is one of the seven operation codes 0x01 to 0x07 (R103, R105). -/
def opcKnown (w : Word) : Bool := 1 ≤ (opc w).toNat && (opc w).toNat ≤ 7

/-- L is 0 unless OPC = 0x07 (R100, R105). -/
def limitLegal (w : Word) : Bool := !limit w || opc w == 0x07#8

/-- Bits 31..9 are zero (R100, R105). -/
def reservedZero (w : Word) : Bool := reserved w == 0#23

/-- A word that selects a command. -/
def wellFormed (w : Word) : Bool := reservedZero w && opcKnown w && limitLegal w

end CommandWord

/-- A command carries no operand (30_encoding.md R101), so that each of the eight is well formed as it stands. -/
def Instr.wellFormed : Instr → Bool
  | .reset | .count | .build | .gencode | .encode | .flush | .decode | .decoden => true

/-- One host action against the names that hold a taken sequence so far: `LOADSRC name` needs one of them, "a sequence
taken earlier"; every other action may always be performed (30_encoding.md R108). -/
def HostAction.wellFormed (taken : List Nat) : HostAction → Bool
  | .loadSrcName x => taken.contains x
  | .loadSrc _ | .takeSnk _ | .memWrite _ _ _ | .memRead _ _ _ | .hardReset | .sinkAccepts _ => true

/-- The names that hold a taken sequence after an action: `RD` may give a name a register's value instead. -/
def HostAction.taken (taken : List Nat) : HostAction → List Nat
  | .takeSnk x => x :: taken
  | .memRead _ _ x => taken.filter (· != x)
  | .loadSrc _ | .loadSrcName _ | .memWrite _ _ _ | .hardReset | .sinkAccepts _ => taken

/-- A program, "a sequence of commands and host actions, executed in order" (30_encoding.md R108). -/
def Program.wellFormed : List Nat → List HostAction → Bool
  | _, [] => true
  | taken, a :: rest => a.wellFormed taken && Program.wellFormed (a.taken taken) rest

end Sys2Proof
end

