-- ==== Sys2Proof/Decode.lean ====
section
/-! DEFINITION. The total decoder of command words (30_encoding.md R103 to R105), and the encoder after it. -/

namespace Sys2Proof

/-- Why a word is no command (30_encoding.md R105). Every one of these raises IllegalCommand, or is refused in the
fault state; the name tells which clause of R105 it falls under. -/
inductive DecodeError where
  /-- A nonzero bit in [31:9]. -/
  | reservedBits
  /-- OPC = 0x00 or OPC = 0x08 to 0xFF. -/
  | unknownOpcode
  /-- L = 1 with OPC other than 0x07. -/
  | limitFlag
  deriving DecidableEq, Repr

/-- The command an operation code and a flag L select (30_encoding.md R103). -/
def decodeFields (opc : BitVec 8) (l : Bool) : Except DecodeError Instr :=
  match opc.toNat, l with
  | 1, false => .ok .reset
  | 2, false => .ok .count
  | 3, false => .ok .build
  | 4, false => .ok .gencode
  | 5, false => .ok .encode
  | 6, false => .ok .flush
  | 7, false => .ok .decode
  | 7, true  => .ok .decoden
  | n, _     => if 1 ≤ n ∧ n ≤ 7 then .error .limitFlag else .error .unknownOpcode

/-- The decoder: "every one of the 2^32 words falls in exactly one arm" (30_encoding.md R104). -/
def decode (w : Word) : Except DecodeError Instr :=
  if CommandWord.reserved w = 0#23 then decodeFields (CommandWord.opc w) (CommandWord.limit w)
  else .error .reservedBits

/-- The word of each command (30_encoding.md R103, column "word"). -/
def encode : Instr → Word
  | .reset   => 0x00000001#32
  | .count   => 0x00000002#32
  | .build   => 0x00000003#32
  | .gencode => 0x00000004#32
  | .encode  => 0x00000005#32
  | .flush   => 0x00000006#32
  | .decode  => 0x00000007#32
  | .decoden => 0x00000107#32

/-- The command word the host's numbering stands for: nbits bits of w, zeros above; none if that is no 32-bit word. -/
def tableWord (nbits w : Nat) : Option Word :=
  if w % 2 ^ nbits < 2 ^ 32 then some (BitVec.ofNat 32 (w % 2 ^ nbits)) else none

/-- The command the decoder reads from an opcode-table row's bits. -/
def decodeTableWord (nbits w : Nat) : Option Instr :=
  match tableWord nbits w with
  | none => none
  | some v =>
    match decode v with
    | .ok i => some i
    | .error _ => none

end Sys2Proof
end

