-- ==== Sys2Proof/Machine/State.lean ====
section
/-! DEFINITION. The whole state of the block (10_state.md R20), the environment a model must carry (R48), the reset
state (R49), and the reasons a step can stop. -/

namespace Sys2Proof.Machine

/-- The reasons the model stops for good. There is none: "the block has no stuck state" (60_exceptions.md R252). The
block's own faults (R231) are next states with FAULT = 1 (log entry 21, DEDUCED). Safe: no run is cut short. -/
inductive Fault where
  deriving DecidableEq, Repr

/-- Why a step has no meaning. -/
inductive Refusal where
  /-- Raised by `exec`, for a command that has no meaning yet. No arm answers it. Safe. -/
  | notModelled (mnemonic : String)
  /-- Raised by the host action `LOADSRC name` where no sequence was taken under that name (30_encoding.md R108: "a
  sequence taken earlier"; log entry 13, DESIGN CHOICE). No command raises it. Safe: the program has no meaning. -/
  | unboundName (name : Nat)
  deriving DecidableEq, Repr

/-- The cause codes of the fault record (60_exceptions.md R231). Codes 8 to 15 are never produced. -/
inductive Cause where
  /-- 0: CAUSE is 0 exactly while FAULT = 0. -/
  | none
  /-- 1: BUILD, fewer than two distinct symbols. -/
  | configurationError
  /-- 2: GENCODE, a Parent at depth 255. -/
  | representationLimitError
  /-- 3: a sink write answered ERR. -/
  | ioError
  /-- 4: ENCODE, a byte without a code. -/
  | contractViolation
  /-- 5: the command's validity flag is 0. -/
  | sequenceError
  /-- 6: COUNT, a byte read while SYMCNT = 0xFFFFFFFF. -/
  | countOverflow
  /-- 7: the word is none of the eight commands. -/
  | illegalCommand
  deriving DecidableEq, Repr

/-- One entry of the code table: LEN, 8 bits, and BITS, 255 bits, BITS[k] being path bit k (10_state.md R44). -/
structure CodeEntry where
  len  : BitVec 8
  bits : PathBits
  deriving DecidableEq, Repr

/-- The sequencer's states (10_state.md R47; 40_count.md R126, 41_build.md R140, 42_gencode.md R167, 43_encode.md R188,
44_decode.md R212). What a micro-step hands to the next one (the byte r, the looked-up code, the index I, the flag L) is
carried by the state's name (log entry 8, DESIGN CHOICE). -/
inductive Seq where
  | idle
  | cClear | cRead | cTally (r : Byte)
  | tbClear | tbSeed | tbCheck | tbPopA | tbPopB | tbMerge | tbRoot
  | cgClear | cgWalk (i : Idx) | cgBack
  | eStart | eFetch | eLookup (r : Byte) | eShift (c : CodeEntry) | eEmit (c : CodeEntry) | eNext
  | dStart (l : Bool) | dCheck (l : Bool) | dFetch (l : Bool) | dBit (l : Bool) | dEmit (l : Bool) | dEnd
  deriving DecidableEq, Repr

/-- The byte sink as the block sees it: what it has accepted, the answers it is known to give next, and how many free
answers have been drawn (20_memory.md R74, R75; log entry 4, DESIGN CHOICE). -/
structure Sink where
  /-- `snk`: everything accepted since the host last took it. -/
  out     : List Byte
  /-- The coming answers, the next one first. -/
  answers : List SinkAnswer
  /-- How many answers were drawn free. -/
  draws   : Nat
  deriving DecidableEq, Repr

/-- The response of a port transaction (20_memory.md R61). -/
inductive Response where
  /-- No transaction has been made yet. -/
  | none
  /-- OK, without data. -/
  | ok
  /-- OK, with the 32 bits read. -/
  | okData (data : Word)
  /-- ERR. -/
  | err
  deriving DecidableEq, Repr

/-- What a name of the host's program stands for (30_encoding.md R108). -/
inductive HostVal where
  /-- A sequence taken by `TAKESNK -> name`. -/
  | bytes (bs : List Byte)
  /-- A register's value read by `RD reg -> name`. -/
  | word (w : Word)
  deriving DecidableEq, Repr

/-- The machine: the block (10_state.md R20) and its environment (R48). -/
structure State where
  /-- SYMCNT (R21). -/
  symcnt : Word
  /-- SYMLIM (R22). -/
  symlim : Word
  /-- NSYMS (R23). -/
  nsyms : Idx
  /-- NNODES (R24). -/
  nnodes : Idx
  /-- ROOT (R25). -/
  root : Idx
  /-- EBUF (R26). -/
  ebuf : Byte
  /-- ECNT (R26). -/
  ecnt : BitVec 4
  /-- DCUR (R27). -/
  dcur : Idx
  /-- FAULT (R32). -/
  fault : Bool
  /-- TREE_VALID (R33). -/
  treeValid : Bool
  /-- CODES_VALID (R34). -/
  codesValid : Bool
  /-- TRUNC (R35). -/
  trunc : Bool
  /-- CAUSE (R36). -/
  cause : Cause
  /-- FINFO (R36). -/
  finfo : Word
  /-- CNT[0..255] (R40). -/
  cnt : Vector Word 256
  /-- NODE[0..510] (R41). -/
  node : Vector Word 511
  /-- WGT[0..510] (R42). -/
  wgt : Vector Word 511
  /-- CODE[0..255] (R44). -/
  code : Vector CodeEntry 256
  /-- PQ, hidden: the set of node indices, listed in ascending order (R46; log entry 10, DESIGN CHOICE). -/
  pq : List Idx
  /-- DSH, hidden (R28). -/
  dsh : Byte
  /-- DCNT, hidden (R28). -/
  dcnt : BitVec 4
  /-- SEQ, hidden (R47). -/
  seq : Seq
  /-- S, scratch (R47). -/
  sScan : Idx
  /-- A, scratch (R47). -/
  aIdx : Idx
  /-- B, scratch (R47). -/
  bIdx : Idx
  /-- K, scratch (R47). -/
  kBit : BitVec 8
  /-- PATH, scratch (R47). -/
  path : PathBits
  /-- DEPTH, scratch (R47). -/
  depth : Idx
  /-- STK, scratch, its top first (R47). -/
  stk : List Idx
  /-- `src`, environment: the not yet consumed input (R48). -/
  src : List Byte
  /-- The byte sink with `snk`, environment (R48). -/
  sink : Sink
  /-- The host actions still to come, environment (30_encoding.md R108; log entry 2, DESIGN CHOICE). -/
  pending : List HostAction
  /-- The host's names, in ascending order, environment (30_encoding.md R108; log entry 13, DESIGN CHOICE). -/
  names : List (Nat × HostVal)
  /-- The response of the last port transaction, environment (20_memory.md R61; log entry 14, DESIGN CHOICE). -/
  resp : Response
  deriving DecidableEq, Repr

/-- The state after reset (10_state.md R49), with an environment in which the host has done nothing yet (DESIGN CHOICE, log
entries 2, 4, 5, 13, 14). -/
def State.reset : State where
  symcnt := 0#32
  symlim := 0#32
  nsyms := 0#9
  nnodes := 0#9
  root := 0#9
  ebuf := 0#8
  ecnt := 0#4
  dcur := 0#9
  fault := false
  treeValid := false
  codesValid := false
  trunc := false
  cause := .none
  finfo := 0#32
  cnt := Vector.replicate 256 0#32
  node := Vector.replicate 511 0#32
  wgt := Vector.replicate 511 0#32
  code := Vector.replicate 256 ⟨0#8, 0#255⟩
  pq := []
  dsh := 0#8
  dcnt := 0#4
  seq := .idle
  sScan := 0#9
  aIdx := 0#9
  bIdx := 0#9
  kBit := 0#8
  path := 0#255
  depth := 0#9
  stk := []
  src := []
  sink := ⟨[], [], 0⟩
  pending := []
  names := []
  resp := .none

end Sys2Proof.Machine
end

