-- ==== Sys2Proof/Machine/Operands.lean ====
section
/-! DEFINITION. The fields of node words and code entries, and the words the register port shows of them (10_state.md
R41, R44; 20_memory.md R69). -/

namespace Sys2Proof.Machine

/-- Writes bit i of v (the `x[i] <- b` of the pseudocode, 00_scope.md R12). -/
def writeBit {n : Nat} (v : BitVec n) (i : Nat) (b : Bool) : BitVec n :=
  if b then v ||| BitVec.twoPow n i else v &&& ~~~(BitVec.twoPow n i)

/-! Node words (R41). A word of another form than BUILD writes, which no run reaches, is read by the places of its fields
(log entry 12, DESIGN CHOICE). -/

/-- `Leaf(s)` = zext_32(s). -/
def leafWord (s : Byte) : Word := zext32 s

/-- `Parent(z, o)` = 2^31 + o*2^16 + z. -/
def parentWord (z o : Idx) : Word := BitVec.ofNat 32 (2 ^ 31 + o.toNat * 2 ^ 16 + z.toNat)

/-- `is_parent(w)` = w[31]. -/
def isParent (w : Word) : Bool := w.getLsbD 31

/-- `zero(w)` = w[8:0]. -/
def zeroChild (w : Word) : Idx := w.extractLsb' 0 9

/-- `one(w)` = w[24:16]. -/
def oneChild (w : Word) : Idx := w.extractLsb' 16 9

/-- `sym(w)` = w[7:0]. -/
def leafSym (w : Word) : Byte := w.extractLsb' 0 8

/-- The child the Decoder and the Code Table Generator reach by bit b: "bit 0 moves to the zero child, bit 1 to the one
child" (44_decode.md R204, 42_gencode.md R160). -/
def childBy (b : Bool) (w : Word) : Idx := if b then oneChild w else zeroChild w

/-! Code entries (R44). -/

/-- `(LEN 0, BITS 0)`: no code assigned. -/
def CodeEntry.absent : CodeEntry := ⟨0#8, 0#255⟩

/-- The entry of a path of the given depth (42_gencode.md R160). -/
def CodeEntry.ofPath (depth : Nat) (path : PathBits) : CodeEntry := ⟨BitVec.ofNat 8 depth, path⟩

/-- The code as a string in path order, the bit of the edge leaving the root first (00_scope.md R15). -/
def CodeEntry.string (c : CodeEntry) : List Bool := (List.range c.len.toNat).map c.bits.getLsbD

/-- Word j of a code entry on the register port, j from 0 to 8: word 0 is LEN, bit b of word j is BITS[32*(j-1)+b]
(20_memory.md R69). -/
def CodeEntry.word (c : CodeEntry) (j : Nat) : Word :=
  if j = 0 then zext32 c.len else c.bits.extractLsb' (32 * (j - 1)) 32

end Sys2Proof.Machine
end

