-- ==== Sys2Proof/Machine/Flags.lean ====
section
/-! DEFINITION. The flags, the status register they make up, and the validity flags commands require (10_state.md R32 to
R38; 60_exceptions.md R231, R236). -/

namespace Sys2Proof.Machine

/-- The cause code, 4 bits (60_exceptions.md R231). -/
def Cause.code : Cause → BitVec 4
  | .none                     => 0#4
  | .configurationError       => 1#4
  | .representationLimitError => 2#4
  | .ioError                  => 3#4
  | .contractViolation        => 4#4
  | .sequenceError            => 5#4
  | .countOverflow            => 6#4
  | .illegalCommand           => 7#4

/-- STATUS: FAULT in bit 0, TREE_VALID in bit 1, CODES_VALID in bit 2, TRUNC in bit 3, CAUSE in bits 11..8, every other
bit zero (10_state.md R38). -/
def State.status (s : State) : Word :=
  BitVec.ofNat 32 (s.fault.toNat + 2 * s.treeValid.toNat + 4 * s.codesValid.toNat + 8 * s.trunc.toNat
    + 256 * s.cause.code.toNat)

/-- EBITS: EBUF in bits 7..0, ECNT in bits 11..8 (10_state.md R37). -/
def State.ebits (s : State) : Word := BitVec.ofNat 32 (s.ebuf.toNat + 256 * s.ecnt.toNat)

/-- TRUNC at the end of a decode command: 1 if DCUR differs from ROOT (10_state.md R35). -/
def truncFlag (dcur root : Idx) : Bool := dcur != root

/-- The flag a command requires to be 1 (60_exceptions.md R236); RESET, COUNT, BUILD and FLUSH require nothing. -/
def State.required (s : State) : Instr → Bool
  | .gencode => s.treeValid
  | .encode  => s.codesValid
  | .decode  => s.treeValid
  | .decoden => s.treeValid
  | .reset | .count | .build | .flush => true

end Sys2Proof.Machine
end

