-- ==== Sys2Proof/Machine/Ops.lean ====
section
/-! DEFINITION. The operations the commands share: the tables, the two streams, raising a fault, completing, refusing, and
reset (00_scope.md R14; 20_memory.md R72, R74, R79; 60_exceptions.md R240, R242; 70_reset_and_hazards.md R260). -/

namespace Sys2Proof.Machine

/-! Tables, each reached by one whole index (20_memory.md R79). -/

/-- Entry s of a table of 256 entries. -/
def symGet {α : Type} (t : Vector α 256) (s : Byte) : α := t[s.toNat]'s.isLt

/-- Writes entry s of a table of 256 entries. -/
def symSet {α : Type} (t : Vector α 256) (s : Byte) (v : α) : Vector α 256 := t.set s.toNat v s.isLt

/-- NODE[i]; a free value for the one index the arena has no entry for (log entry 6, DESIGN CHOICE). -/
def nodeGet (t : Vector Word 511) (i : Idx) : Word :=
  if h : i.toNat < 511 then t[i.toNat] else Config.offArenaNode i

/-- WGT[i], likewise. -/
def wgtGet (t : Vector Word 511) (i : Idx) : Word :=
  if h : i.toNat < 511 then t[i.toNat] else Config.offArenaWeight i

/-- Writes entry i of NODE or WGT; an index without an entry, which no rule forms, writes nothing (log entry 6). -/
def arenaSet (t : Vector Word 511) (i : Idx) (v : Word) : Vector Word 511 :=
  if h : i.toNat < 511 then t.set i.toNat v else t

/-- CNT with every entry 0 (40_count.md R120). -/
def clearedCounts : Vector Word 256 := Vector.replicate 256 0#32

/-- CODE with every entry (LEN 0, BITS 0) (42_gencode.md R160). -/
def clearedCodes : Vector CodeEntry 256 := Vector.replicate 256 .absent

/-! The streams. -/

/-- `SrcRead()`: the first byte of `src`, which is then gone, or END (`none`) where `src` is empty (20_memory.md R72). -/
def srcRead (src : List Byte) : Option Byte × List Byte :=
  match src with
  | [] => (none, [])
  | r :: rest => (some r, rest)

/-- The sink's next answer: a listed one, else a free one (20_memory.md R75; log entry 4, DESIGN CHOICE). -/
def Sink.answer (k : Sink) : SinkAnswer × Sink :=
  match k.answers with
  | a :: as => (a, { k with answers := as })
  | [] => (Config.sinkAnswer k.draws, { k with draws := k.draws + 1 })

/-- `SnkWrite(b)`: offers b; if the answer is OK, b is appended to `snk`; if it is ERR, `snk` is unchanged (20_memory.md
R74). -/
def snkWrite (b : Byte) (k : Sink) : SinkAnswer × Sink :=
  match k.answer with
  | (.ok, k') => (.ok, { k' with out := k'.out ++ [b] })
  | (.err, k') => (.err, k')

/-! How a command ends. -/

/-- How a run of micro-steps ends: it is done, or it raises a fault with a cause and an information word. -/
inductive Run (σ : Type) where
  | done (d : σ)
  | raised (c : Cause) (info : Word) (d : σ)
  deriving DecidableEq, Repr

/-- `raise F(info)`, the taking of an exception: FAULT, CAUSE, FINFO and SEQ are written, the response is ERR, "nothing
else is saved and nothing else is changed" (60_exceptions.md R240). There is no return from it but reset (R243). -/
def raise (c : Cause) (info : Word) (s : State) : State :=
  { s with fault := true, cause := c, finfo := info, seq := .idle, resp := .err }

/-- The command completes: SEQ is IDLE (10_state.md R47), the response is OK (30_encoding.md R104). -/
def complete (s : State) : State := { s with seq := .idle, resp := .ok }

/-- Refusal: "no state of the block changes", the response is ERR (60_exceptions.md R242). -/
def refuse (s : State) : State := { s with resp := .err }

/-- A command other than RESET: refused while FAULT = 1, else it runs (30_encoding.md R104, steps 2 and 4). -/
def unlessFaulted (s : State) (body : Host.Outcome State Fault Refusal) : Host.Outcome State Fault Refusal :=
  if s.fault then .next (refuse s) else body

/-- The precondition of command i, its first micro-step: where the flag it requires is 0, SequenceError with the command
word as information and nothing else changed (60_exceptions.md R236). -/
def requiring (i : Instr) (s : State) (body : Host.Outcome State Fault Refusal) : Host.Outcome State Fault Refusal :=
  if s.required i then body else .next (raise .sequenceError (encode i) s)

/-- Ends a command with the outcome of its micro-steps, `put` writing the unit's registers into the state. -/
def finish {σ : Type} (r : Run σ) (put : σ → State) : Host.Outcome State Fault Refusal :=
  match r with
  | .done d => .next (complete (put d))
  | .raised c info d => .next (raise c info (put d))

/-- Reset, by `rst` or by command: every item of the block at the value of 10_state.md R49; the environment (`src`, the
sink, the host) is not the block's and stays (R48; 70_reset_and_hazards.md R260). -/
def resetBlock (s : State) : State :=
  { State.reset with
    src := s.src, sink := s.sink, pending := s.pending, names := s.names, resp := s.resp }

end Sys2Proof.Machine
end

