-- ==== Sys2Proof/Machine/Build.lean ====
section
/-! DEFINITION. The Tree Builder and its priority queue: BUILD (41_build.md R130 to R146). -/

namespace Sys2Proof.Machine

/-- What BUILD works on: the arena, NNODES, PQ and the two indices a merge removed. -/
structure Builder where
  node   : Vector Word 511
  wgt    : Vector Word 511
  nnodes : Idx
  pq     : List Idx
  aIdx   : Idx
  bIdx   : Idx
  deriving DecidableEq, Repr

/-- Node i is *before* node j: WGT[i] < WGT[j], or WGT[i] = WGT[j] and i < j (R133). -/
def before (wgt : Vector Word 511) (i j : Idx) : Bool :=
  wgtGet wgt i < wgtGet wgt j || (wgtGet wgt i == wgtGet wgt j && i < j)

/-- The element of i and the list that is before all others (R133). -/
def leastOf (wgt : Vector Word 511) (i : Idx) (pq : List Idx) : Idx :=
  pq.foldl (fun m j => if before wgt j m then j else m) i

/-- `popmin(PQ)`: removes and returns the element before all others; none on an empty queue, on which no rule calls it
(R133, R140; log entry 17, DESIGN CHOICE). -/
def popmin (wgt : Vector Word 511) : List Idx → Option (Idx × List Idx)
  | [] => none
  | i :: rest => some (leastOf wgt i rest, (i :: rest).erase (leastOf wgt i rest))

/-- A new node at the next free index: NODE and WGT written, the index joins PQ, NNODES increases by one (R132, R135). -/
def Builder.insert (word weight : Word) (b : Builder) : Builder :=
  { b with
    node := arenaSet b.node b.nnodes word
    wgt := arenaSet b.wgt b.nnodes weight
    pq := b.pq ++ [b.nnodes]
    nnodes := b.nnodes + 1#9 }

/-- The symbols in ascending order of their value, the scan order of `TB_SEED` (R132). -/
def allSymbols : List Byte := (List.range 256).map (BitVec.ofNat 8)

/-- One visit of `TB_SEED`: a symbol with CNT[S] > 0 gets a leaf of that weight, another gets nothing (R132). -/
def seedSymbol (cnt : Vector Word 256) (b : Builder) (s : Byte) : Builder :=
  if 0#32 < symGet cnt s then b.insert (leafWord s) (symGet cnt s) else b

/-- The seeding of all symbols (R132). -/
def seedAll (cnt : Vector Word 256) (b : Builder) : Builder := allSymbols.foldl (seedSymbol cnt) b

/-- One merge: `TB_POP_A`, `TB_POP_B`, `TB_MERGE` (R135). A queue of fewer than two nodes, on which the loop does not call
it, is left alone (log entry 17, DESIGN CHOICE). The sum is exact while the total of the counts fits 32 bits (R139; log
entry 9, DESIGN CHOICE). -/
def mergeOnce (b : Builder) : Builder :=
  match popmin b.wgt b.pq with
  | none => b
  | some (i, rest) =>
    match popmin b.wgt rest with
    | none => b
    | some (j, rest') =>
      ({ b with pq := rest', aIdx := i, bIdx := j } : Builder).insert (parentWord i j) (wgtGet b.wgt i + wgtGet b.wgt j)

/-- The loop "while |PQ| > 1" (R130, R136), at most the given number of times; each merge makes PQ one shorter, so that
|PQ| times is enough. -/
def mergeLoop : Nat → Builder → Builder
  | 0, b => b
  | n + 1, b => if 1 < b.pq.length then mergeLoop n (mergeOnce b) else b

/-- `TB_CLEAR`: NNODES 0 and PQ empty; NODE and WGT are not cleared (R131). -/
def buildStart (s : State) : Builder := ⟨s.node, s.wgt, 0#9, [], s.aIdx, s.bIdx⟩

/-- Writes the builder's registers back, with NSYMS and the scan index S at its end. TREE_VALID and CODES_VALID were cleared
"before anything else" (R131). S, A and B keep what TB-U leaves in them (log entry 7, DESIGN CHOICE). -/
def putBuilder (s : State) (nsyms : Idx) (b : Builder) : State :=
  { s with
    treeValid := false, codesValid := false
    node := b.node, wgt := b.wgt, nnodes := b.nnodes, nsyms := nsyms, pq := b.pq
    sScan := 256#9, aIdx := b.aIdx, bIdx := b.bIdx }

/-- `TB_ROOT`: ROOT is "the one element of PQ", which stays in PQ; TREE_VALID <- 1 (R137). -/
def markRoot (s : State) : State := { s with root := s.pq.headD s.root, treeValid := true }

/-- BUILD after `TB_CLEAR` (R130): seed; fewer than two symbols raise ConfigurationError with NSYMS (R134); else merge
until one node remains, which is the root. -/
def buildBody (s : State) : Host.Outcome State Fault Refusal :=
  let b := seedAll s.cnt (buildStart s)
  if b.nnodes.toNat < Config.minSyms then
    .next (raise .configurationError (zext32 b.nnodes) (putBuilder s b.nnodes b))
  else
    .next (complete (markRoot (putBuilder s b.nnodes (mergeLoop b.pq.length b))))

/-- BUILD (R130). -/
def execBuild (s : State) : Host.Outcome State Fault Refusal := unlessFaulted s (buildBody s)

end Sys2Proof.Machine
end

