-- ==== Sys2Proof/Machine/Count.lean ====
section
/-! DEFINITION. The Frequency Counter: COUNT (40_count.md R120 to R126). -/

namespace Sys2Proof.Machine

/-- What COUNT works on: CNT and SYMCNT. -/
structure Tally where
  cnt    : Vector Word 256
  symcnt : Word
  deriving DecidableEq, Repr

/-- `C_CLEAR`: the table and SYMCNT cleared (R120, R122). -/
def tallyStart : Tally := ⟨clearedCounts, 0#32⟩

/-- `C_TALLY`: CNT[r] <- CNT[r] + 1; SYMCNT <- SYMCNT + 1 (R120). -/
def tallyByte (r : Byte) (t : Tally) : Tally :=
  ⟨symSet t.cnt r (symGet t.cnt r + 1#32), t.symcnt + 1#32⟩

/-- The loop of R120 over the bytes of `src`, each taken by one `SrcRead`; a byte read while SYMCNT = 0xFFFFFFFF is taken
and raises CountOverflow (R123). Answers the table with what is left of `src`. -/
def countLoop : List Byte → Tally → Run (Tally × List Byte)
  | [], t => .done (t, [])
  | r :: rest, t =>
    if t.symcnt = Config.maxCount then .raised .countOverflow (zext32 r) (t, rest)
    else countLoop rest (tallyByte r t)

/-- Writes CNT, SYMCNT and `src` back; COUNT writes nothing else (R120, R124). -/
def putTally (s : State) (d : Tally × List Byte) : State :=
  { s with cnt := d.1.cnt, symcnt := d.1.symcnt, src := d.2 }

/-- COUNT (R120). -/
def execCount (s : State) : Host.Outcome State Fault Refusal :=
  unlessFaulted s (finish (countLoop s.src tallyStart) (putTally s))

end Sys2Proof.Machine
end

