-- ==== Sys2Proof/Machine/Decoder.lean ====
section
/-! DEFINITION. The Decoder: DECODE and DECODEN over one loop (44_decode.md R200 to R215). -/

namespace Sys2Proof.Machine

/-- What a decode command only reads: NODE, ROOT, and SYMLIM where L = 1 (R202, R204). -/
structure DecodeTree where
  node  : Vector Word 511
  root  : Idx
  limit : Option Word
  deriving DecidableEq, Repr

/-- What the Decoder works on: the sink, SYMCNT, DCUR and the unpacker DSH, DCNT. -/
structure Unpacker where
  sink   : Sink
  symcnt : Word
  dcur   : Idx
  dsh    : Byte
  dcnt   : BitVec 4
  deriving DecidableEq, Repr

/-- `D_CHECK`: L = 1 and SYMCNT = SYMLIM (R211). -/
def limitReached (limit : Option Word) (symcnt : Word) : Bool := limit == some symcnt

/-- `D_BIT`: b <- DSH[7]; DSH shifts left; DCNT <- DCNT - 1; DCUR moves to the child b leads to (R203, R204). -/
def takeBit (t : DecodeTree) (d : Unpacker) : Unpacker :=
  { d with
    dsh := d.dsh <<< 1
    dcnt := d.dcnt - 1#4
    dcur := childBy (d.dsh.getLsbD 7) (nodeGet t.node d.dcur) }

/-- `D_EMIT`: the leaf's symbol goes to the sink; ERR raises IOError with the symbol, DCUR standing at the leaf (R208); OK
counts it modulo 2^32 and sends DCUR back to ROOT (R205). -/
def emitSymbol (t : DecodeTree) (d : Unpacker) : Run Unpacker :=
  match snkWrite (leafSym (nodeGet t.node d.dcur)) d.sink with
  | (.ok, k) => .done { d with sink := k, symcnt := d.symcnt + 1#32, dcur := t.root }
  | (.err, k) => .raised .ioError (zext32 (leafSym (nodeGet t.node d.dcur))) { d with sink := k }

/-- One bit: the step, and the emission where the node entered is a leaf (R202). -/
def decodeBit (t : DecodeTree) (d : Unpacker) : Run Unpacker :=
  if isParent (nodeGet t.node (takeBit t d).dcur) then .done (takeBit t d) else emitSymbol t (takeBit t d)

/-- The bits left in DSH, n of them, the limit tested before each (R203, R211). -/
def decodeByte (t : DecodeTree) : Nat → Unpacker → Run Unpacker
  | 0, d => .done d
  | n + 1, d =>
    if limitReached t.limit d.symcnt then .done d
    else
      match decodeBit t d with
      | .done d' => decodeByte t n d'
      | .raised c info d' => .raised c info d'

/-- The loop of R202, entered with an empty unpacker: the limit is tested before a byte is read (R203, R211); END ends the
loop (R206); a byte read refills the unpacker with eight bits. Answers the Decoder's registers with what is left of `src`. -/
def decodeLoop (t : DecodeTree) : List Byte → Unpacker → Run (Unpacker × List Byte)
  | [], d => .done (d, [])
  | r :: rest, d =>
    if limitReached t.limit d.symcnt then .done (d, r :: rest)
    else
      match decodeByte t 8 { d with dsh := r, dcnt := 8#4 } with
      | .done d' => decodeLoop t rest d'
      | .raised c info d' => .raised c info (d', rest)

/-- `D_START`: the walk at the root, the unpacker empty, the symbol count zero (R201). -/
def decodeStart (s : State) : Unpacker := ⟨s.sink, 0#32, s.root, 0#8, 0#4⟩

/-- Writes the Decoder's registers, the sink and `src` back; TRUNC was cleared at the start (R201). -/
def putUnpacker (s : State) (d : Unpacker × List Byte) : State :=
  { s with
    trunc := false
    sink := d.1.sink, symcnt := d.1.symcnt, dcur := d.1.dcur, dsh := d.1.dsh, dcnt := d.1.dcnt, src := d.2 }

/-- `D_END`: TRUNC <- (DCUR != ROOT) (R206). -/
def markTrunc (s : State) : State := { s with trunc := truncFlag s.dcur s.root }

/-- `Decode(L, w)` of R202 after its precondition, with the limit where L = 1. -/
def decodeBody (limit : Option Word) (s : State) : Host.Outcome State Fault Refusal :=
  match decodeLoop ⟨s.node, s.root, limit⟩ s.src (decodeStart s) with
  | .done d => .next (complete (markTrunc (putUnpacker s d)))
  | .raised c info d => .next (raise c info (putUnpacker s d))

/-- DECODE: `Decode(0, 0x00000007)` (R200). -/
def execDecode (s : State) : Host.Outcome State Fault Refusal :=
  unlessFaulted s (requiring .decode s (decodeBody none s))

/-- DECODEN: `Decode(1, 0x00000107)` (R210). -/
def execDecoden (s : State) : Host.Outcome State Fault Refusal :=
  unlessFaulted s (requiring .decoden s (decodeBody (some s.symlim) s))

end Sys2Proof.Machine
end

