-- ==== Sys2Proof/Machine/Encoder.lean ====
section
/-! DEFINITION. The Encoder: ENCODE and FLUSH (43_encode.md R180 to R193). -/

namespace Sys2Proof.Machine

/-- What the Encoder works on: the sink, the pending bit buffer, SYMCNT and K. -/
structure Packer where
  sink   : Sink
  ebuf   : Byte
  ecnt   : BitVec 4
  symcnt : Word
  kBit   : BitVec 8
  deriving DecidableEq, Repr

/-- The write of EBUF to the sink: ERR raises IOError with the byte, EBUF and ECNT standing as they are; OK clears both
(`E_EMIT`, R183, R185; FLUSH, R190). -/
def emitBuffer (e : Packer) : Run Packer :=
  match snkWrite e.ebuf e.sink with
  | (.ok, k) => .done { e with sink := k, ebuf := 0#8, ecnt := 0#4 }
  | (.err, k) => .raised .ioError (zext32 e.ebuf) { e with sink := k }

/-- `E_SHIFT`: EBUF[7 - ECNT] <- b; ECNT <- ECNT + 1; K <- K + 1 (R183, R188; 20_memory.md R77: bit 7 first; log
entry 18, DESIGN CHOICE). -/
def shiftBit (b : Bool) (e : Packer) : Packer :=
  { e with ebuf := writeBit e.ebuf (7 - e.ecnt.toNat) b, ecnt := e.ecnt + 1#4, kBit := e.kBit + 1#8 }

/-- Appends one code bit; "as soon as EBUF holds 8 bits it is written to the sink as one byte and cleared" (R183). -/
def pushBit (b : Bool) (e : Packer) : Run Packer :=
  if (shiftBit b e).ecnt = 8#4 then emitBuffer (shiftBit b e) else .done (shiftBit b e)

/-- Appends the bits of a string in order, up to the first refused write (R183, R185). -/
def pushBits : List Bool → Packer → Run Packer
  | [], e => .done e
  | b :: bs, e =>
    match pushBit b e with
    | .done e' => pushBits bs e'
    | .raised c info e' => .raised c info e'

/-- The loop of R180 over the bytes of `src`, each taken by one `SrcRead`: the one table entry CODE[r] is looked up (R182);
LEN = 0 raises ContractViolation before any bit is appended (R184); else the code's bits are appended and the symbol is
counted modulo 2^32. Answers the Encoder's registers with what is left of `src`. -/
def encodeLoop (code : Vector CodeEntry 256) : List Byte → Packer → Run (Packer × List Byte)
  | [], e => .done (e, [])
  | r :: rest, e =>
    if (symGet code r).len = 0#8 then .raised .contractViolation (zext32 r) (e, rest)
    else
      match pushBits (symGet code r).string { e with kBit := 0#8 } with
      | .done e' => encodeLoop code rest { e' with symcnt := e'.symcnt + 1#32 }
      | .raised c info e' => .raised c info (e', rest)

/-- `E_START`: the bit buffer and SYMCNT cleared (R181). -/
def encodeStart (s : State) : Packer := ⟨s.sink, 0#8, 0#4, 0#32, s.kBit⟩

/-- Writes the Encoder's registers, the sink and `src` back. -/
def putPacker (s : State) (d : Packer × List Byte) : State :=
  { s with
    sink := d.1.sink, ebuf := d.1.ebuf, ecnt := d.1.ecnt, symcnt := d.1.symcnt, kBit := d.1.kBit, src := d.2 }

/-- ENCODE (R180). -/
def execEncode (s : State) : Host.Outcome State Fault Refusal :=
  unlessFaulted s (requiring .encode s (finish (encodeLoop s.code s.src (encodeStart s)) (putPacker s)))

/-- What FLUSH works on: the same registers as they stand, SYMCNT and K untouched (R190). -/
def flushStart (s : State) : Packer := ⟨s.sink, s.ebuf, s.ecnt, s.symcnt, s.kBit⟩

/-- FLUSH's one micro-step: with ECNT = 0 nothing is written; else EBUF as it stands is (R190, R191). -/
def flushPacker (e : Packer) : Run Packer := if e.ecnt = 0#4 then .done e else emitBuffer e

/-- FLUSH (R190). -/
def execFlush (s : State) : Host.Outcome State Fault Refusal :=
  unlessFaulted s (finish (flushPacker (flushStart s)) (fun e => putPacker s (e, s.src)))

end Sys2Proof.Machine
end

