-- ==== Sys2Proof/Machine/Gencode.lean ====
section
/-! DEFINITION. The Code Table Generator: GENCODE (42_gencode.md R160 to R168). -/

namespace Sys2Proof.Machine

/-- What GENCODE works on: CODE and the scratch registers PATH, DEPTH and STK (R167). -/
structure Walk where
  code  : Vector CodeEntry 256
  path  : PathBits
  depth : Nat
  stk   : List Idx
  deriving DecidableEq, Repr

/-- `visit(i, path, depth)` of R160, with depth = 255 - room, so that a Parent with no room left raises
RepresentationLimitError (R164). A leaf's entry is its path (R161); a Parent is put on the stack while its children are
visited, the zero child first (R162, R167). Answers the table; where it raises, PATH, DEPTH and STK stand as they were at
that node. -/
def visit (node : Vector Word 511) : Nat → Idx → PathBits → List Idx → Vector CodeEntry 256 → Run Walk
  | 0, i, path, stk, code =>
    if isParent (nodeGet node i) then .raised .representationLimitError (zext32 i) ⟨code, path, Config.maxLen, stk⟩
    else .done ⟨symSet code (leafSym (nodeGet node i)) (.ofPath Config.maxLen path), path, Config.maxLen, stk⟩
  | room + 1, i, path, stk, code =>
    if isParent (nodeGet node i) then
      match visit node room (zeroChild (nodeGet node i)) path (i :: stk) code with
      | .raised c info w => .raised c info w
      | .done w =>
        match visit node room (oneChild (nodeGet node i)) (writeBit path (Config.maxLen - (room + 1)) true)
            (i :: stk) w.code with
        | .raised c info w' => .raised c info w'
        | .done w' => .done ⟨w'.code, path, Config.maxLen - (room + 1), stk⟩
    else
      .done ⟨symSet code (leafSym (nodeGet node i)) (.ofPath (Config.maxLen - (room + 1)) path), path,
        Config.maxLen - (room + 1), stk⟩

/-- The walk from the root with an empty path, after `CG_CLEAR` cleared the table (R160, R163). -/
def walkAll (node : Vector Word 511) (root : Idx) : Run Walk := visit node Config.maxLen root 0#255 [] clearedCodes

/-- Writes CODE and the scratch registers back; CODES_VALID was cleared first (R163). PATH, DEPTH
and STK keep what CG-U leaves in them (log entry 7, DESIGN CHOICE). -/
def putWalk (s : State) (w : Walk) : State :=
  { s with codesValid := false, code := w.code, path := w.path, depth := BitVec.ofNat 9 w.depth, stk := w.stk }

/-- The walk is over: CODES_VALID <- 1 (R160). -/
def markCodes (s : State) : State := { s with codesValid := true }

/-- GENCODE after its precondition (R160). -/
def gencodeBody (s : State) : Host.Outcome State Fault Refusal :=
  match walkAll s.node s.root with
  | .done w => .next (complete (markCodes (putWalk s w)))
  | .raised c info w => .next (raise c info (putWalk s w))

/-- GENCODE (R160). -/
def execGencode (s : State) : Host.Outcome State Fault Refusal :=
  unlessFaulted s (requiring .gencode s (gencodeBody s))

end Sys2Proof.Machine
end

