-- ==== Sys2Proof/Machine/System.lean ====
section
/-! DEFINITION. The system family: RESET (45_system.md R220). -/

namespace Sys2Proof.Machine

/-- RESET: every item of the block's state at its reset value, response OK; accepted in every state (45_system.md R220). -/
def execReset (s : State) : Host.Outcome State Fault Refusal := .next (complete (resetBlock s))

end Sys2Proof.Machine
end

