-- ==== Sys2Proof/Machine/Port.lean ====
section
/-! DEFINITION. The register port and the host's actions (20_memory.md R60 to R70; 30_encoding.md R104, R108;
45_system.md R223). -/

namespace Sys2Proof.Machine

/-- A location of the register port (20_memory.md R65). -/
inductive PortLoc where
  | cmd | status | finfo | symlim | symcnt | nsyms | nnodes | root | ebits | dstate
  /-- CNT[s] -/
  | cnt (s : Byte)
  /-- NODE[i] -/
  | node (i : Fin 511)
  /-- WGT[i] -/
  | wgt (i : Fin 511)
  /-- word j of CODE[s] -/
  | code (s : Byte) (j : Fin 9)
  deriving DecidableEq, Repr

/-- The table windows of the map: CNT at 0x0400, NODE at 0x0800, WGT at 0x1000, CODE at 0x4000 with 64 bytes an entry, nine
words of which are mapped (20_memory.md R65). The argument is an aligned byte address. -/
def locateTable (a : Nat) : Option PortLoc :=
  if 0x0400 ≤ a ∧ a < 0x0800 then some (.cnt (BitVec.ofNat 8 ((a - 0x0400) / 4)))
  else if 0x0800 ≤ a ∧ a < 0x1000 then
    if h : (a - 0x0800) / 4 < 511 then some (.node ⟨(a - 0x0800) / 4, h⟩) else none
  else if 0x1000 ≤ a ∧ a < 0x1800 then
    if h : (a - 0x1000) / 4 < 511 then some (.wgt ⟨(a - 0x1000) / 4, h⟩) else none
  else if 0x4000 ≤ a ∧ a < 0x8000 then
    if h : (a - 0x4000) % 64 / 4 < 9 then some (.code (BitVec.ofNat 8 ((a - 0x4000) / 64)) ⟨(a - 0x4000) % 64 / 4, h⟩)
    else none
  else none

/-- The map of the register port for an aligned address; "every address not listed" has no location (20_memory.md R65;
addresses are offsets: log entry 11, DESIGN CHOICE). -/
def locateAligned (a : Nat) : Option PortLoc :=
  match a with
  | 0x0000 => some .cmd
  | 0x0004 => some .status
  | 0x0008 => some .finfo
  | 0x000C => some .symlim
  | 0x0010 => some .symcnt
  | 0x0014 => some .nsyms
  | 0x0018 => some .nnodes
  | 0x001C => some .root
  | 0x0020 => some .ebits
  | 0x0024 => some .dstate
  | a => locateTable a

/-- The location an access of n bytes at addr reaches: "the only access the register port accepts is a naturally aligned
32-bit word" (20_memory.md R64). -/
def locate (addr : Addr) (n : Nat) : Option PortLoc :=
  if n = 4 ∧ addr.toNat % 4 = 0 then locateAligned addr.toNat else none

/-- The 32-bit value of a location; the write-only CMD has none (20_memory.md R62, R68, R69; 10_state.md R37, R38). -/
def readLoc (s : State) : PortLoc → Option Word
  | .cmd => none
  | .status => some s.status
  | .finfo => some s.finfo
  | .symlim => some s.symlim
  | .symcnt => some s.symcnt
  | .nsyms => some (zext32 s.nsyms)
  | .nnodes => some (zext32 s.nnodes)
  | .root => some (zext32 s.root)
  | .ebits => some s.ebits
  | .dstate => some (zext32 s.dcur)
  | .cnt sym => some (symGet s.cnt sym)
  | .node i => some s.node[i]
  | .wgt i => some s.wgt[i]
  | .code sym j => some ((symGet s.code sym).word j.val)

/-- The data of `MemRead(addr, n)`; none is the response ERR (20_memory.md R62). -/
def portRead (s : State) (addr : Addr) (n : Nat) : Option Word := (locate addr n).bind (readLoc s)

/-- `Issue(w)`: the RESET word is honoured first, then the fault state refuses, then an illegal word raises IllegalCommand
with the word, then the command runs (30_encoding.md R104). The first two tests stand in the commands' meanings. -/
def issue (w : Word) (s : State) : Host.Outcome State Fault Refusal :=
  match decode w with
  | .ok i => exec i s
  | .error _ => unlessFaulted s (.next (raise .illegalCommand w s))

/-- `MemWrite(addr, n, v)`: a write to CMD executes v, a write to SYMLIM stores v, any other is answered ERR and changes
nothing (20_memory.md R63, R67; log entry 20, DEDUCED). -/
def memWrite (addr : Addr) (n : Nat) (v : Word) (s : State) : Host.Outcome State Fault Refusal :=
  match locate addr n with
  | some .cmd => issue v s
  | some .symlim => .next { s with symlim := v, resp := .ok }
  | _ => .next (refuse s)

/-- A name's value in the host's list, which is in ascending order of the names. -/
def lookupName (x : Nat) : List (Nat × HostVal) → Option HostVal
  | [] => none
  | (y, v) :: rest => if x = y then some v else lookupName x rest

/-- Gives a name a value, keeping the list in ascending order with no name twice. -/
def bindName (x : Nat) (v : HostVal) : List (Nat × HostVal) → List (Nat × HostVal)
  | [] => [(x, v)]
  | (y, u) :: rest =>
    if x < y then (x, v) :: (y, u) :: rest
    else if x = y then (x, v) :: rest
    else (y, u) :: bindName x v rest

/-- `MemRead(addr, n)` with the data given to a name; "a read never changes any state" of the block (20_memory.md R62). -/
def memRead (addr : Addr) (n : Nat) (x : Nat) (s : State) : State :=
  match portRead s addr n with
  | some v => { s with names := bindName x (.word v) s.names, resp := .okData v }
  | none => refuse s

/-- `LOADSRC name` (30_encoding.md R108); a name under which no sequence was taken is refused by name (log entry 13, DESIGN CHOICE). -/
def loadSrcName (x : Nat) (s : State) : Host.Outcome State Fault Refusal :=
  match lookupName x s.names with
  | some (.bytes bs) => .next { s with src := bs }
  | _ => .refused (.unboundName x)

/-- The answers `SINK accepts m` fixes: m times OK, then ERR (30_encoding.md R108; log entry 16, DEDUCED). -/
def acceptsAnswers (m : Nat) : List SinkAnswer := List.replicate m .ok ++ [.err]

/-- One host action (30_encoding.md R108; `rst` comes between commands only: log entry 15, DEDUCED). -/
def hostStep (a : HostAction) (s : State) : Host.Outcome State Fault Refusal :=
  match a with
  | .loadSrc bs => .next { s with src := bs }
  | .loadSrcName x => loadSrcName x s
  | .takeSnk x => .next { s with names := bindName x (.bytes s.sink.out) s.names, sink := { s.sink with out := [] } }
  | .memWrite addr n v => memWrite addr n v s
  | .memRead addr n x => .next (memRead addr n x s)
  | .hardReset => .next (resetBlock s)
  | .sinkAccepts m => .next { s with sink := { s.sink with answers := acceptsAnswers m } }

/-- The next host action, if there is one, each completing before the next starts (20_memory.md R80); without one the block
"is simply idle and keeps all state" (60_exceptions.md R251; log entry 3, DEDUCED). -/
def runNext (s : State) : Host.Outcome State Fault Refusal :=
  match s.pending with
  | [] => .next s
  | a :: rest => hostStep a { s with pending := rest }

/-- The host's write of a command word, put before its other pending actions. -/
def queueCommand (w : Word) (s : State) : State := { s with pending := .memWrite 0x0000 4 w :: s.pending }

end Sys2Proof.Machine
end

