-- ==== Sys2Proof/Machine/Step.lean ====
section
/-! DEFINITION. One step of the machine: one host action, from start to completion (00_scope.md R7; 20_memory.md R80). -/

namespace Sys2Proof.Machine

/-- One step (log entries 1, 3 and 19, DEDUCED). -/
def step (s : State) : Host.Outcome State Fault Refusal := runNext s

/-- The state in which the next step is the host's write of the command word to CMD, from which the block takes its commands
(20_memory.md R82; log entry 2, DESIGN CHOICE). -/
def State.withFetchWord (s : State) (nbits w : Nat) : State := queueCommand (BitVec.ofNat 32 (w % 2 ^ nbits)) s

end Sys2Proof.Machine
end

