-- ==== Sys2Proof/Machine/Micro.lean ====
section
/-! DEFINITION. The sequencer's state machines, one micro-step at a time (10_state.md R47; 40_count.md R126, 41_build.md
R140, 42_gencode.md R167, 43_encode.md R188, 44_decode.md R212). `exec` gives each command as one transition
(00_scope.md R7; 92_eei_decisions.md D1 allows both grains); the statements say that the two agree. -/

namespace Sys2Proof.Machine

/-- Where the sequencer starts a command; RESET and FLUSH have no table of states, so that `exec` is their one micro-step
(log entry 22, DEDUCED). -/
def startSeq : Instr → Option Seq
  | .count   => some .cClear
  | .build   => some .tbClear
  | .gencode => some .cgClear
  | .encode  => some .eStart
  | .decode  => some (.dStart false)
  | .decoden => some (.dStart true)
  | .reset | .flush => none

/-- CNT-U (R126). -/
def microCount (s : State) : Seq → Option State
  | .cClear => some { s with cnt := clearedCounts, symcnt := 0#32, seq := .cRead }
  | .cRead =>
    match srcRead s.src with
    | (none, _) => some (complete s)
    | (some r, rest) =>
      if s.symcnt = Config.maxCount then some (raise .countOverflow (zext32 r) { s with src := rest })
      else some { s with src := rest, seq := .cTally r }
  | .cTally r => some { s with cnt := symSet s.cnt r (symGet s.cnt r + 1#32), symcnt := s.symcnt + 1#32, seq := .cRead }
  | _ => none

/-- `TB_SEED` at a scan index below 256 (R132, R140). -/
def microSeed (s : State) (sym : Byte) : State :=
  if 0#32 < symGet s.cnt sym then
    { s with
      node := arenaSet s.node s.nnodes (leafWord sym), wgt := arenaSet s.wgt s.nnodes (symGet s.cnt sym)
      pq := s.pq ++ [s.nnodes], nnodes := s.nnodes + 1#9, sScan := s.sScan + 1#9 }
  else { s with sScan := s.sScan + 1#9 }

/-- TB-U (R140). There is no step from a state in which the table's row calls `popmin` on an empty queue, or asks for "the
one element" of a queue of another size. -/
def microBuild (s : State) : Seq → Option State
  | .tbClear =>
    some { s with treeValid := false, codesValid := false, nnodes := 0#9, pq := [], sScan := 0#9, seq := .tbSeed }
  | .tbSeed =>
    if s.sScan = 256#9 then some { s with nsyms := s.nnodes, seq := .tbCheck }
    else some (microSeed s (s.sScan.setWidth 8))
  | .tbCheck =>
    if s.nsyms.toNat < Config.minSyms then some (raise .configurationError (zext32 s.nsyms) s)
    else some { s with seq := .tbPopA }
  | .tbPopA =>
    if s.pq.length = 1 then some { s with seq := .tbRoot }
    else (popmin s.wgt s.pq).map fun p => { s with aIdx := p.1, pq := p.2, seq := .tbPopB }
  | .tbPopB => (popmin s.wgt s.pq).map fun p => { s with bIdx := p.1, pq := p.2, seq := .tbMerge }
  | .tbMerge =>
    some { s with
      node := arenaSet s.node s.nnodes (parentWord s.aIdx s.bIdx)
      wgt := arenaSet s.wgt s.nnodes (wgtGet s.wgt s.aIdx + wgtGet s.wgt s.bIdx)
      pq := s.pq ++ [s.nnodes], nnodes := s.nnodes + 1#9, seq := .tbPopA }
  | .tbRoot =>
    match s.pq with
    | [r] => some (complete { s with root := r, treeValid := true })
    | _ => none
  | _ => none

/-- CG-U (R167), with the current index I carried by `CG_WALK`. -/
def microGencode (s : State) : Seq → Option State
  | .cgClear =>
    if s.treeValid then
      some { s with codesValid := false, code := clearedCodes, path := 0#255, depth := 0#9, stk := [], seq := .cgWalk s.root }
    else some (raise .sequenceError (encode .gencode) s)
  | .cgWalk i =>
    if isParent (nodeGet s.node i) then
      if s.depth = 255#9 then some (raise .representationLimitError (zext32 i) s)
      else
        some { s with
          stk := i :: s.stk, path := writeBit s.path s.depth.toNat false, depth := s.depth + 1#9
          seq := .cgWalk (zeroChild (nodeGet s.node i)) }
    else
      some { s with
        code := symSet s.code (leafSym (nodeGet s.node i)) (.ofPath s.depth.toNat s.path), seq := .cgBack }
  | .cgBack =>
    match s.stk with
    | [] => some (complete { s with codesValid := true })
    | p :: below =>
      if s.path.getLsbD (s.depth.toNat - 1) then
        some { s with
          path := writeBit s.path (s.depth.toNat - 1) false, stk := below, depth := s.depth - 1#9, seq := .cgBack }
      else
        some { s with
          path := writeBit s.path (s.depth.toNat - 1) true, seq := .cgWalk (oneChild (nodeGet s.node p)) }
  | _ => none

/-- Where `E_SHIFT` and `E_EMIT` go when no byte is due: on with the code while K < len, else to `E_NEXT` (R188). -/
def afterBit (c : CodeEntry) (k : BitVec 8) : Seq := if k < c.len then .eShift c else .eNext

/-- ENC-U (R188), with the byte r and the looked-up entry carried by the state's name. -/
def microEncode (s : State) : Seq → Option State
  | .eStart =>
    if s.codesValid then some { s with symcnt := 0#32, ebuf := 0#8, ecnt := 0#4, seq := .eFetch }
    else some (raise .sequenceError (encode .encode) s)
  | .eFetch =>
    match srcRead s.src with
    | (none, _) => some (complete s)
    | (some r, rest) => some { s with src := rest, seq := .eLookup r }
  | .eLookup r =>
    if (symGet s.code r).len = 0#8 then some (raise .contractViolation (zext32 r) s)
    else some { s with kBit := 0#8, seq := .eShift (symGet s.code r) }
  | .eShift c =>
    some { s with
      ebuf := writeBit s.ebuf (7 - s.ecnt.toNat) (c.bits.getLsbD s.kBit.toNat), ecnt := s.ecnt + 1#4, kBit := s.kBit + 1#8
      seq := if s.ecnt + 1#4 = 8#4 then .eEmit c else afterBit c (s.kBit + 1#8) }
  | .eEmit c =>
    match snkWrite s.ebuf s.sink with
    | (.ok, k) => some { s with sink := k, ebuf := 0#8, ecnt := 0#4, seq := afterBit c s.kBit }
    | (.err, k) => some (raise .ioError (zext32 s.ebuf) { s with sink := k })
  | .eNext => some { s with symcnt := s.symcnt + 1#32, seq := .eFetch }
  | _ => none

/-- The command word of a decode command with flag L (R202). -/
def decodeWord (l : Bool) : Word := if l then encode .decoden else encode .decode

/-- DEC-U (R212). -/
def microDecode (s : State) : Seq → Option State
  | .dStart l =>
    if s.treeValid then
      some { s with symcnt := 0#32, trunc := false, dcur := s.root, dsh := 0#8, dcnt := 0#4, seq := .dCheck l }
    else some (raise .sequenceError (decodeWord l) s)
  | .dCheck l =>
    if l && s.symcnt == s.symlim then some { s with seq := .dEnd }
    else if s.dcnt = 0#4 then some { s with seq := .dFetch l }
    else some { s with seq := .dBit l }
  | .dFetch l =>
    match srcRead s.src with
    | (none, _) => some { s with seq := .dEnd }
    | (some r, rest) => some { s with src := rest, dsh := r, dcnt := 8#4, seq := .dBit l }
  | .dBit l =>
    some { s with
      dsh := s.dsh <<< 1, dcnt := s.dcnt - 1#4, dcur := childBy (s.dsh.getLsbD 7) (nodeGet s.node s.dcur)
      seq :=
        if isParent (nodeGet s.node (childBy (s.dsh.getLsbD 7) (nodeGet s.node s.dcur))) then .dCheck l else .dEmit l }
  | .dEmit l =>
    match snkWrite (leafSym (nodeGet s.node s.dcur)) s.sink with
    | (.ok, k) => some { s with sink := k, symcnt := s.symcnt + 1#32, dcur := s.root, seq := .dCheck l }
    | (.err, k) => some (raise .ioError (zext32 (leafSym (nodeGet s.node s.dcur))) { s with sink := k })
  | .dEnd => some (complete { s with trunc := truncFlag s.dcur s.root })
  | _ => none

/-- One micro-step; none in `IDLE`, and where the spec gives no step. -/
def microStep (s : State) : Option State :=
  match s.seq with
  | .idle => none
  | .cClear | .cRead | .cTally _ => microCount s s.seq
  | .tbClear | .tbSeed | .tbCheck | .tbPopA | .tbPopB | .tbMerge | .tbRoot => microBuild s s.seq
  | .cgClear | .cgWalk _ | .cgBack => microGencode s s.seq
  | .eStart | .eFetch | .eLookup _ | .eShift _ | .eEmit _ | .eNext => microEncode s s.seq
  | .dStart _ | .dCheck _ | .dFetch _ | .dBit _ | .dEmit _ | .dEnd => microDecode s s.seq

/-- n micro-steps, ending early where there is none. -/
def microRun : Nat → State → State
  | 0, s => s
  | n + 1, s =>
    match microStep s with
    | none => s
    | some s' => microRun n s'

end Sys2Proof.Machine
end

