-- ==== Sys2Proof/Safety.lean ====
section
/-! DEFINITION. What a good state and a good run are, in the terms the statements use: the invariants of 10_state.md R26,
R36, R40, R43, R45, R46 and 70_reset_and_hazards.md R264, and the functions the results of the commands are said with. -/

namespace Sys2Proof.Machine

/-! ## Streams -/

/-- The answer the sink gives to the n-th write from now, n from 0: a listed one, else a free one (20_memory.md R75). -/
def Sink.nth (k : Sink) (n : Nat) : SinkAnswer :=
  match k.answers[n]? with
  | some a => a
  | none => Config.sinkAnswer (k.draws + (n - k.answers.length))

/-- The next n writes to the sink are answered OK. -/
def Sink.accepts (k : Sink) (n : Nat) : Prop := ∀ m < n, k.nth m = .ok

/-- The sink with the next n answers used up and nothing appended. -/
def Sink.past (k : Sink) (n : Nat) : Sink :=
  { k with answers := k.answers.drop n, draws := k.draws + (n - k.answers.length) }

/-- The sink after writes that were answered OK, with the bytes they appended (20_memory.md R74). -/
def Sink.after (k : Sink) (bytes : List Byte) : Sink := { k.past bytes.length with out := k.out ++ bytes }

/-- The bits of a byte in stream order, bit 7 first (20_memory.md R77). -/
def byteBits (b : Byte) : List Bool := (List.range 8).map fun k => b.getLsbD (7 - k)

/-- The bits of a byte stream in order: "each byte contributing its bits 7 down to 0" (44_decode.md R213). -/
def streamBits (bs : List Byte) : List Bool := bs.flatMap byteBits

/-- The concatenation Z of the codes of x (43_encode.md R187). -/
def codeBits (code : Vector CodeEntry 256) (x : List Byte) : List Bool := x.flatMap fun r => (symGet code r).string

/-- Every byte of x has a code: "every byte present in the input must have a nonzero-length code" (43_encode.md, section 1;
70_reset_and_hazards.md R267). -/
def allCoded (code : Vector CodeEntry 256) (x : List Byte) : Prop := ∀ r ∈ x, (symGet code r).len ≠ 0#8

/-- The pending bits of the Encoder, the oldest first: EBUF[7] down to EBUF[8-ECNT] (10_state.md R26). -/
def pendingBits (ebuf : Byte) (ecnt : BitVec 4) : List Bool := (byteBits ebuf).take ecnt.toNat

/-- The output of an encoding as a function (43_encode.md R187): of the codes of x, `bytes` are the whole bytes and EBUF,
ECNT hold the bits left over, zeros below. -/
structure Packs (code : Vector CodeEntry 256) (x bytes : List Byte) (ebuf : Byte) (ecnt : BitVec 4) : Prop where
  count : bytes.length = (codeBits code x).length / 8
  bits : streamBits bytes ++ pendingBits ebuf ecnt = codeBits code x
  rest : ecnt.toNat = (codeBits code x).length % 8
  zeros : ∀ k, k + ecnt.toNat < 8 → ebuf.getLsbD k = false

/-! ## The tree as a graph -/

/-- Starting at node i and following the bits, every node left is a Parent and the walk ends at node j (42_gencode.md R161). -/
def leadsTo (node : Vector Word 511) : Idx → List Bool → Idx → Prop
  | i, [], j => i = j
  | i, b :: bs, j => isParent (nodeGet node i) = true ∧ leadsTo node (childBy b (nodeGet node i)) bs j

/-- The greedy parse D(y) of 44_decode.md R213 from node `cur`: follow the bits; each time a leaf is reached output its
symbol and restart at the root. Answers the symbols and the node the walk ends at. -/
def parse (node : Vector Word 511) (root : Idx) : Idx → List Bool → List Byte × Idx
  | cur, [] => ([], cur)
  | cur, b :: bs =>
    if isParent (nodeGet node (childBy b (nodeGet node cur))) then
      parse node root (childBy b (nodeGet node cur)) bs
    else
      (leafSym (nodeGet node (childBy b (nodeGet node cur))) :: (parse node root root bs).1, (parse node root root bs).2)

/-- The symbols of the greedy parse of a byte stream from the root. -/
def parsed (s : State) (bytes : List Byte) : List Byte := (parse s.node s.root s.root (streamBits bytes)).1

/-- The node at which the greedy parse of a byte stream ends. -/
def parseEnd (s : State) (bytes : List Byte) : Idx := (parse s.node s.root s.root (streamBits bytes)).2

/-- Exactly the first m bytes of `src` have to be read before k symbols are complete (44_decode.md R203, R211). -/
def neededFor (s : State) (k m : Nat) : Prop :=
  k ≤ (parsed s (s.src.take m)).length ∧ ∀ m' < m, (parsed s (s.src.take m')).length < k

/-- Node i is a Parent of the tree (10_state.md R43 (c)). -/
def State.isInner (s : State) (i : Idx) : Prop := s.nsyms ≤ i ∧ i < s.nnodes

/-- Node j is a child of node i. -/
def State.childOf (s : State) (j i : Idx) : Prop :=
  zeroChild (nodeGet s.node i) = j ∨ oneChild (nodeGet s.node i) = j

/-- The number of symbols with a nonzero count, the alphabet's size (00_scope.md, glossary). -/
def alphabetSize (cnt : Vector Word 256) : Nat := allSymbols.countP fun s => 0#32 < symGet cnt s

/-- The sum of all counts (10_state.md R40). -/
def countTotal (cnt : Vector Word 256) : Nat := (allSymbols.map fun s => (symGet cnt s).toNat).sum

/-! ## Reset -/

/-- Every item of the block at the value of 10_state.md R49. -/
structure IsReset (s : State) : Prop where
  flags : s.fault = false ∧ s.treeValid = false ∧ s.codesValid = false ∧ s.trunc = false
  cause : s.cause.code = 0#4
  finfo : s.finfo = 0x00000000#32
  counts : s.symlim = 0#32 ∧ s.symcnt = 0#32
  tree : s.nsyms = 0#9 ∧ s.nnodes = 0#9 ∧ s.root = 0#9
  buffer : s.ebuf = 0#8 ∧ s.ecnt = 0#4
  dcur : s.dcur = 0#9
  unpacker : s.dsh = 0#8 ∧ s.dcnt = 0#4
  cnt : ∀ sym, symGet s.cnt sym = 0#32
  node : ∀ i : Fin 511, s.node[i] = 0x00000000#32
  wgt : ∀ i : Fin 511, s.wgt[i] = 0#32
  code : ∀ sym, symGet s.code sym = ⟨0#8, 0#255⟩
  pq : s.pq = []
  seq : s.seq = .idle
  scratch : s.sScan = 0#9 ∧ s.aIdx = 0#9 ∧ s.bIdx = 0#9 ∧ s.kBit = 0#8 ∧ s.path = 0#255 ∧ s.depth = 0#9 ∧ s.stk = []

/-! ## Invariants -/

/-- The tree invariants (a) to (d) of 10_state.md R43, of a state whose TREE_VALID is 1. -/
structure TreeOk (s : State) : Prop where
  /-- (a) -/
  size : 2 ≤ s.nsyms.toNat ∧ s.nsyms.toNat ≤ 256 ∧ s.nnodes.toNat = 2 * s.nsyms.toNat - 1 ∧
    s.root.toNat = 2 * s.nsyms.toNat - 2
  /-- (b) Leaf words of positive weight -/
  leaves : ∀ i < s.nsyms, (∃ sym, nodeGet s.node i = leafWord sym) ∧ 0#32 < wgtGet s.wgt i
  /-- (b) symbols strictly ascending with the index -/
  ascending : ∀ i j, i < j → j < s.nsyms → leafSym (nodeGet s.node i) < leafSym (nodeGet s.node j)
  /-- (c) -/
  parents : ∀ i, s.isInner i → ∃ z o, nodeGet s.node i = parentWord z o ∧ z < i ∧ o < i ∧ z ≠ o ∧
    (wgtGet s.wgt i).toNat = (wgtGet s.wgt z).toNat + (wgtGet s.wgt o).toNat
  /-- (d) "Every index 0 to 2k-3 is the child of exactly one Parent" -/
  oneParent : ∀ j < s.root, ∃ i, (s.isInner i ∧ s.childOf j i) ∧ ∀ i', s.isInner i' ∧ s.childOf j i' → i' = i

/-- The code-table invariants (a) and (b) of 10_state.md R45 with the zero bits of R44, of a state whose CODES_VALID is 1. -/
structure CodesOk (s : State) : Prop where
  /-- (a) LEN >= 1 exactly for the symbols of the leaves -/
  coded : ∀ sym, (symGet s.code sym).len ≠ 0#8 ↔ ∃ j < s.nsyms, leafSym (nodeGet s.node j) = sym
  /-- (a) (0, 0) for every other symbol -/
  absent : ∀ sym, (symGet s.code sym).len = 0#8 → symGet s.code sym = .absent
  /-- (b) the path of a leaf's symbol leads from ROOT to the leaf -/
  leads : ∀ j < s.nsyms, leadsTo s.node s.root (symGet s.code (leafSym (nodeGet s.node j))).string j
  /-- R44: BITS[k] = 0 for k >= LEN -/
  clear : ∀ sym k, (symGet s.code sym).len.toNat ≤ k → (symGet s.code sym).bits.getLsbD k = false

/-- The Encoder's buffer (10_state.md R26): ECNT is 0 to 8, 8 only in the fault state; the bits below the pending ones are
zero. -/
def BufferOk (s : State) : Prop :=
  s.ecnt.toNat ≤ 8 ∧ (s.ecnt = 8#4 → s.fault = true) ∧ ∀ k, k + s.ecnt.toNat < 8 → s.ebuf.getLsbD k = false

/-- The invariant of the machine between two steps. -/
structure Inv (s : State) : Prop where
  /-- CAUSE is 0 exactly while FAULT = 0 (60_exceptions.md R231). -/
  cause : s.cause = .none ↔ s.fault = false
  /-- FINFO is written only by `raise` and by reset, so that it is 0 while FAULT = 0 (60_exceptions.md R231). -/
  finfo : s.fault = false → s.finfo = 0#32
  /-- SEQ is IDLE after any command (10_state.md R47). -/
  idle : s.seq = .idle
  /-- (TREE_VALID, CODES_VALID) = (0, 1) never occurs (70_reset_and_hazards.md R264). -/
  flags : s.codesValid = true → s.treeValid = true
  /-- PQ holds the root alone while TREE_VALID = 1, and never more than one node between two steps (10_state.md R46). -/
  queue : s.pq.length ≤ 1 ∧ (s.treeValid = true → s.pq = [s.root])
  /-- DCNT is 0 to 8, S 0 to 256, DEPTH 0 to 255, STK at most 255 deep (10_state.md R28, R47). -/
  hidden : s.dcnt.toNat ≤ 8 ∧ s.sScan.toNat ≤ 256 ∧ s.depth.toNat ≤ 255 ∧ s.stk.length ≤ 255
  /-- The host's names are listed in ascending order, none twice (log entry 13). -/
  names : s.names.Pairwise fun p q => p.1 < q.1
  /-- NSYMS is 0 to 256 (10_state.md R23). -/
  nsyms : s.nsyms.toNat ≤ 256
  /-- ROOT is 0 to 510 (10_state.md R37). -/
  root : s.root.toNat ≤ 510
  /-- DCUR is 0 to 510 (10_state.md R37). -/
  dcur : s.dcur.toNat ≤ 510
  /-- The Encoder's buffer (10_state.md R26). -/
  buffer : BufferOk s
  /-- The sum of all counts fits 32 bits (40_count.md R123). -/
  total : countTotal s.cnt < 2 ^ 32
  /-- The tree (10_state.md R43). -/
  tree : s.treeValid = true → TreeOk s
  /-- The code table (10_state.md R45). -/
  codes : s.codesValid = true → CodesOk s

end Sys2Proof.Machine
end

