-- ==== Sys2Proof/Certificates/Slice0/Obligations.lean ====
section
/-! DEFINITION. The statements for the provers, from the numbered rules of spec/. A statement speaks of every state, unless a
premise (most often the invariant `Inv`, or the part of it that is needed) says otherwise. -/

open Sys2Proof Sys2Proof.Machine

/-! ## Command words -/

/-- R103: the eight words, written out bit by bit. -/
def Obligations.EightWordsDecode : Prop :=
  decode 0b00000000000000000000000000000001#32 = .ok .reset ∧
  decode 0b00000000000000000000000000000010#32 = .ok .count ∧
  decode 0b00000000000000000000000000000011#32 = .ok .build ∧
  decode 0b00000000000000000000000000000100#32 = .ok .gencode ∧
  decode 0b00000000000000000000000000000101#32 = .ok .encode ∧
  decode 0b00000000000000000000000000000110#32 = .ok .flush ∧
  decode 0b00000000000000000000000000000111#32 = .ok .decode ∧
  decode 0b00000000000000000000000100000111#32 = .ok .decoden

/-- R103: the words of the table with their fields OPC and L, and that "word" is the only word that selects the command; so encoding and decoding agree
both ways. -/
def Obligations.WordIsTheOnlyOneForItsCommand : Prop :=
  (encode .reset = 0x00000001#32 ∧ encode .count = 0x00000002#32 ∧ encode .build = 0x00000003#32 ∧
    encode .gencode = 0x00000004#32 ∧ encode .encode = 0x00000005#32 ∧ encode .flush = 0x00000006#32 ∧
    encode .decode = 0x00000007#32 ∧ encode .decoden = 0x00000107#32) ∧
  (∀ i, CommandWord.opc (encode i) = match i with
    | .reset => 0x01#8 | .count => 0x02#8 | .build => 0x03#8 | .gencode => 0x04#8
    | .encode => 0x05#8 | .flush => 0x06#8 | .decode => 0x07#8 | .decoden => 0x07#8) ∧
  (∀ i, CommandWord.limit (encode i) = (i == .decoden)) ∧
  ∀ (w : Word) (i : Instr), decode w = .ok i ↔ w = encode i

/-- R105: which words are illegal, and what writing one to CMD does: with FAULT = 0 it raises, with FAULT = 1 it is
refused. -/
def Obligations.IllegalWordsRaiseIllegalCommand : Prop :=
  ∀ w : Word,
    ((∀ i, w ≠ encode i) ↔
      (w.toNat % 256 = 0 ∨ 8 ≤ w.toNat % 256) ∨ (∃ b, 9 ≤ b ∧ b < 32 ∧ w.getLsbD b = true) ∨
        (w.getLsbD 8 = true ∧ w.toNat % 256 ≠ 7)) ∧
    ((∀ i, w ≠ encode i) → ∀ s : State, s.fault = false →
      memWrite 0x0000#15 4 w s =
        .next { s with fault := true, cause := .illegalCommand, finfo := w, seq := .idle, resp := .err }) ∧
    ((∀ i, w ≠ encode i) → ∀ s : State, s.fault = true → memWrite 0x0000#15 4 w s = .next { s with resp := .err })

/-- R104: the four arms of `Issue(w)`, in their order, as the step that performs the host's write of w to CMD; the last arm
runs the command and answers OK if it completes, ERR if it raises. -/
def Obligations.IssueTakesFirstApplicableArm : Prop :=
  ∀ (s : State) (w : Word) (rest : List HostAction), s.pending = .memWrite 0x0000#15 4 w :: rest →
    (w = 0x00000001#32 → step s = .next { resetBlock { s with pending := rest } with resp := .ok }) ∧
    (w ≠ 0x00000001#32 → s.fault = true → step s = .next { s with pending := rest, resp := .err }) ∧
    (s.fault = false → (∀ i, w ≠ encode i) → step s = .next (raise .illegalCommand w { s with pending := rest })) ∧
    (∀ i, s.fault = false → w = encode i → s.required i = false →
      step s = .next (raise .sequenceError w { s with pending := rest })) ∧
    (∀ i, s.fault = false → w = encode i → s.required i = true →
      step s = exec i { s with pending := rest } ∧
        ∃ t, step s = .next t ∧ (t.resp = .ok ∧ t.fault = false ∨ t.resp = .err ∧ t.fault = true))

/-- A step runs the decoded command: the host's write of a word that decodes to i is `exec i`, and `withFetchWord` puts just
that write first (log entries 1, 2). -/
def Obligations.StepRunsDecodedCommand : Prop :=
  (∀ (s : State) (w : Word) (i : Instr) (rest : List HostAction), s.pending = .memWrite 0x0000#15 4 w :: rest →
    decode w = .ok i → step s = exec i { s with pending := rest }) ∧
  ∀ (s : State) (nbits v : Nat) (i : Instr), decodeTableWord nbits v = some i →
    step (s.withFetchWord nbits v) = exec i s

/-! ## Steps as a whole -/

/-- R252: no command is stuck, and its response tells how it ended (R224, R246). -/
def Obligations.EveryCommandAnswers : Prop :=
  ∀ (i : Instr) (s : State), ∃ t, exec i s = .next t ∧
    (t.resp = .ok ∧ t.fault = false ∧ t.seq = .idle ∨
      t.resp = .err ∧ t.fault = true ∧ t.seq = .idle ∧ s.fault = false ∨
      s.fault = true ∧ t = { s with resp := .err })

/-- The one step that is refused is `LOADSRC name` of a name under which no sequence was taken (log entry 13). -/
def Obligations.OnlyUnboundNamesAreRefused : Prop :=
  ∀ s : State,
    (∃ t, step s = .next t) ∨
      ∃ x rest, s.pending = .loadSrcName x :: rest ∧ step s = .refused (.unboundName x) ∧
        ∀ bs, lookupName x s.names ≠ some (.bytes bs)

/-- R251: without a host action the block "is simply idle and keeps all state" (log entry 3). -/
def Obligations.IdleStepKeepsState : Prop := ∀ s : State, s.pending = [] → step s = .next s

/-- R108, R48: loading the source and taking the sink; a taken sequence can be loaded again. (That these actions leave the
last response as it was is log entry 14, DESIGN CHOICE.) -/
def Obligations.HostMovesSequences : Prop :=
  (∀ (s : State) (bs : List Byte) (rest : List HostAction), s.pending = .loadSrc bs :: rest →
    step s = .next { s with pending := rest, src := bs }) ∧
  (∀ (s : State) (x y : Nat) (rest : List HostAction), s.pending = .takeSnk x :: .loadSrcName y :: rest →
    ∃ t, step s = .next t ∧ t = { s with pending := .loadSrcName y :: rest, names := t.names, sink := { s.sink with out := [] } } ∧
      (y = x → step t = .next { t with pending := rest, src := s.sink.out }) ∧
      (y ≠ x → ∀ bs, lookupName y s.names = some (.bytes bs) → step t = .next { t with pending := rest, src := bs })) ∧
  ∀ (s : State) (m : Nat) (rest : List HostAction), s.pending = .sinkAccepts m :: rest →
    ∃ t, step s = .next t ∧ t = { s with pending := rest, sink := t.sink } ∧ t.sink.out = s.sink.out ∧
      t.sink.accepts m ∧ t.sink.nth m = .err

/-! ## Reset -/

/-- R49: the values after reset. -/
def Obligations.ResetValues : Prop := IsReset State.reset ∧ State.reset.status = 0x00000000#32

/-- R220, R221: RESET, by its one word, is accepted in every state and sets every item of the block; every other command is
refused in every fault state; `rst` has RESET's effect on the block's state. No clause says what `rst` does to the host's
record of the last response, which is no item of the block (log entry 14, DESIGN CHOICE). -/
def Obligations.ResetWritesEveryItem : Prop :=
  (∀ w : Word, decode w = .ok .reset ↔ w = 0x00000001#32) ∧
  (∀ s : State, ∃ t, exec .reset s = .next t ∧ IsReset t ∧ t.resp = .ok ∧
    t.src = s.src ∧ t.sink = s.sink ∧ t.pending = s.pending ∧ t.names = s.names ∧
    ∃ r, hostStep .hardReset s = .next { t with resp := r }) ∧
  ∀ s : State, s.fault = true → ∀ i, i ≠ Instr.reset → exec i s = .next { s with resp := .err }

/-- R261: every command's behaviour in a reset state. -/
def Obligations.ResetStateStartsEveryFlow : Prop :=
  ∀ s : State, IsReset s →
    (s.src.length < 2 ^ 32 → ∃ t, exec .count s = .next t ∧ t.resp = .ok ∧ t.fault = false) ∧
    (∃ scan, exec .build s = .next (raise .configurationError 0x00000000#32 { s with sScan := scan })) ∧
    exec .gencode s = .next (raise .sequenceError 0x00000004#32 s) ∧
    exec .encode s = .next (raise .sequenceError 0x00000005#32 s) ∧
    exec .decode s = .next (raise .sequenceError 0x00000007#32 s) ∧
    exec .decoden s = .next (raise .sequenceError 0x00000107#32 s) ∧
    exec .flush s = .next { s with resp := .ok } ∧
    exec .reset s = .next { s with resp := .ok }

/-! ## Faults -/

/-- R242: the fault state refuses every word but RESET and changes nothing; SYMLIM can still be written and every location
but CMD read. -/
def Obligations.FaultStateRefuses : Prop :=
  ∀ s : State, s.fault = true →
    (∀ w : Word, w ≠ 0x00000001#32 → memWrite 0x0000#15 4 w s = .next { s with resp := .err }) ∧
    (∀ i, i ≠ Instr.reset → exec i s = .next { s with resp := .err }) ∧
    (∀ v, memWrite 0x000C#15 4 v s = .next { s with symlim := v, resp := .ok }) ∧
    ∀ addr x l, locate addr 4 = some l → l ≠ .cmd →
      ∃ v, memRead addr 4 x s = { s with names := bindName x (.word v) s.names, resp := .okData v }

/-- R243: the only exit from the fault state is reset, by command or by `rst`. -/
def Obligations.OnlyResetLeavesFaultState : Prop :=
  ∀ s t : State, s.fault = true → step s = .next t → t.fault = false →
    IsReset t ∧ ∃ rest, s.pending = .hardReset :: rest ∨ s.pending = .memWrite 0x0000#15 4 0x00000001#32 :: rest

/-- R236: the preconditions, and that nothing but the fault record changes. -/
def Obligations.SequenceErrorExactlyWhereFlagIsZero : Prop :=
  (∀ s : State, s.fault = false → s.treeValid = false →
    exec .gencode s = .next
      { s with fault := true, cause := .sequenceError, finfo := 0x00000004#32, seq := .idle, resp := .err } ∧
    exec .decode s = .next
      { s with fault := true, cause := .sequenceError, finfo := 0x00000007#32, seq := .idle, resp := .err } ∧
    exec .decoden s = .next
      { s with fault := true, cause := .sequenceError, finfo := 0x00000107#32, seq := .idle, resp := .err }) ∧
  (∀ s : State, s.fault = false → s.codesValid = false →
    exec .encode s = .next
      { s with fault := true, cause := .sequenceError, finfo := 0x00000005#32, seq := .idle, resp := .err }) ∧
  ∀ (i : Instr) (s t : State), s.fault = false → s.cause ≠ .sequenceError → exec i s = .next t →
    t.cause = .sequenceError →
    s.treeValid = false ∧ (i = .gencode ∨ i = .decode ∨ i = .decoden) ∨ s.codesValid = false ∧ i = .encode

/-- R231: the cause codes, which command raises which cause, and what FINFO records. -/
def Obligations.CausesAndInformationWords : Prop :=
  (Cause.none.code = 0#4 ∧ Cause.configurationError.code = 1#4 ∧ Cause.representationLimitError.code = 2#4 ∧
    Cause.ioError.code = 3#4 ∧ Cause.contractViolation.code = 4#4 ∧ Cause.sequenceError.code = 5#4 ∧
    Cause.countOverflow.code = 6#4 ∧ Cause.illegalCommand.code = 7#4) ∧
  ∀ (i : Instr) (s t : State), s.fault = false → exec i s = .next t → t.fault = true →
    match i with
    | .reset => False
    | .count => t.cause = .countOverflow ∧ t.symcnt = 0xFFFFFFFF#32 ∧ ∃ r ∈ s.src, t.finfo = zext32 r
    | .build => t.cause = .configurationError ∧ t.nsyms.toNat < 2 ∧ t.finfo = zext32 t.nsyms
    | .gencode =>
      t.cause = .sequenceError ∧ t.finfo = encode .gencode ∨
      t.cause = .representationLimitError ∧
        ∃ (j : Idx) (bs : List Bool), t.finfo = zext32 j ∧ bs.length = 255 ∧ leadsTo s.node s.root bs j ∧
          isParent (nodeGet s.node j) = true
    | .encode =>
      t.cause = .sequenceError ∧ t.finfo = encode .encode ∨
      t.cause = .contractViolation ∧ (∃ r ∈ s.src, t.finfo = zext32 r ∧ (symGet s.code r).len = 0#8) ∨
      t.cause = .ioError ∧ t.finfo = zext32 t.ebuf
    | .flush => t.cause = .ioError ∧ t.finfo = zext32 s.ebuf
    | .decode | .decoden =>
      t.cause = .sequenceError ∧ t.finfo = encode i ∨
      t.cause = .ioError ∧ t.finfo = zext32 (leafSym (nodeGet s.node t.dcur))

/-! ## What a command leaves alone -/

/-- R29: who writes what. Whatever the outcome, a command writes the items of its column, the fault record, and its own scratch
registers, and nothing else. -/
def Obligations.CommandsWriteOnlyTheirColumn : Prop :=
  ∀ s t : State,
    (exec .count s = .next t →
      t = { s with
        cnt := t.cnt, symcnt := t.symcnt, src := t.src
        fault := t.fault, cause := t.cause, finfo := t.finfo, seq := t.seq, resp := t.resp }) ∧
    (exec .build s = .next t →
      t = { s with
        node := t.node, wgt := t.wgt, nsyms := t.nsyms, nnodes := t.nnodes, root := t.root, pq := t.pq
        treeValid := t.treeValid, codesValid := t.codesValid, sScan := t.sScan, aIdx := t.aIdx, bIdx := t.bIdx
        fault := t.fault, cause := t.cause, finfo := t.finfo, seq := t.seq, resp := t.resp }) ∧
    (exec .gencode s = .next t →
      t = { s with
        code := t.code, codesValid := t.codesValid, path := t.path, depth := t.depth, stk := t.stk
        fault := t.fault, cause := t.cause, finfo := t.finfo, seq := t.seq, resp := t.resp }) ∧
    (exec .encode s = .next t →
      t = { s with
        symcnt := t.symcnt, ebuf := t.ebuf, ecnt := t.ecnt, kBit := t.kBit, src := t.src, sink := t.sink
        fault := t.fault, cause := t.cause, finfo := t.finfo, seq := t.seq, resp := t.resp }) ∧
    (exec .flush s = .next t →
      t = { s with
        ebuf := t.ebuf, ecnt := t.ecnt, sink := t.sink
        fault := t.fault, cause := t.cause, finfo := t.finfo, seq := t.seq, resp := t.resp }) ∧
    (exec .decode s = .next t ∨ exec .decoden s = .next t →
      t = { s with
        symcnt := t.symcnt, dcur := t.dcur, dsh := t.dsh, dcnt := t.dcnt, trunc := t.trunc, src := t.src, sink := t.sink
        fault := t.fault, cause := t.cause, finfo := t.finfo, seq := t.seq, resp := t.resp })

/-- R29: bytes are only taken from the front of `src` and only appended to `snk`; COUNT, BUILD and GENCODE give the sink
nothing (R76: "The block never reads back what it wrote"). -/
def Obligations.StreamsOnlyMoveForward : Prop :=
  ∀ (i : Instr) (s t : State), exec i s = .next t →
    (∃ taken, s.src = taken ++ t.src) ∧ (∃ given, t.sink.out = s.sink.out ++ given)

/-- R264: the validity flags as a state machine. -/
def Obligations.ValidityFlagsStateMachine : Prop :=
  ∀ (i : Instr) (s t : State), s.fault = false → exec i s = .next t →
    match i with
    | .reset => t.treeValid = false ∧ t.codesValid = false
    | .build => t.codesValid = false ∧ (t.treeValid = true ↔ t.fault = false)
    | .gencode => t.treeValid = s.treeValid ∧ (t.fault = false → t.treeValid = true ∧ t.codesValid = true)
    | .count | .encode | .flush | .decode | .decoden => t.treeValid = s.treeValid ∧ t.codesValid = s.codesValid

/-! ## The register port -/

/-- R37, R38, R50: the fields of STATUS, EBITS and the index registers, and their zero bits. -/
def Obligations.StatusRegistersLayout : Prop :=
  ∀ s : State,
    (s.status.getLsbD 0 = s.fault ∧ s.status.getLsbD 1 = s.treeValid ∧ s.status.getLsbD 2 = s.codesValid ∧
      s.status.getLsbD 3 = s.trunc ∧ s.status.extractLsb' 8 4 = s.cause.code ∧
      ∀ b, 4 ≤ b ∧ b < 8 ∨ 12 ≤ b → s.status.getLsbD b = false) ∧
    (s.ebits.extractLsb' 0 8 = s.ebuf ∧ s.ebits.extractLsb' 8 4 = s.ecnt ∧ ∀ b, 12 ≤ b → s.ebits.getLsbD b = false) ∧
    ∀ a : Addr, a = 0x0014#15 ∨ a = 0x0018#15 ∨ a = 0x001C#15 ∨ a = 0x0024#15 →
      ∃ v : Word, portRead s a 4 = some v ∧ v.toNat < 512

/-- R62, R65, R68: the data of every mapped location, in every state. -/
def Obligations.PortReadsTheMap : Prop :=
  ∀ s : State,
    (portRead s 0x0004#15 4 = some s.status ∧ portRead s 0x0008#15 4 = some s.finfo ∧
      portRead s 0x000C#15 4 = some s.symlim ∧ portRead s 0x0010#15 4 = some s.symcnt ∧
      portRead s 0x0014#15 4 = some (zext32 s.nsyms) ∧ portRead s 0x0018#15 4 = some (zext32 s.nnodes) ∧
      portRead s 0x001C#15 4 = some (zext32 s.root) ∧ portRead s 0x0020#15 4 = some s.ebits ∧
      portRead s 0x0024#15 4 = some (zext32 s.dcur)) ∧
    (∀ sym : Byte, portRead s (BitVec.ofNat 15 (0x0400 + 4 * sym.toNat)) 4 = some (symGet s.cnt sym)) ∧
    (∀ i : Fin 511, portRead s (BitVec.ofNat 15 (0x0800 + 4 * i.val)) 4 = some s.node[i] ∧
      portRead s (BitVec.ofNat 15 (0x1000 + 4 * i.val)) 4 = some s.wgt[i])

/-- R69: how a code entry appears as nine words. -/
def Obligations.PortReadsCodeWords : Prop :=
  ∀ (s : State) (sym : Byte),
    portRead s (BitVec.ofNat 15 (0x4000 + 64 * sym.toNat)) 4 = some (zext32 (symGet s.code sym).len) ∧
    ∀ j, 1 ≤ j → j ≤ 8 →
      ∃ v : Word, portRead s (BitVec.ofNat 15 (0x4000 + 64 * sym.toNat + 4 * j)) 4 = some v ∧
        ∀ b < 32, v.getLsbD b = if 32 * (j - 1) + b < 255 then (symGet s.code sym).bits.getLsbD (32 * (j - 1) + b) else false

/-- R62, R63, R64, R65: which accesses are answered ERR, and that such an access changes nothing (R246). -/
def Obligations.PortRefusesEverythingElse : Prop :=
  ∀ (s : State) (addr : Addr) (n : Nat),
    (portRead s addr n = none ↔
      n ≠ 4 ∨ addr.toNat % 4 ≠ 0 ∨ addr = 0x0000#15 ∨ (0x0028 ≤ addr.toNat ∧ addr.toNat < 0x0400) ∨ addr = 0x0FFC#15 ∨
        (0x17FC ≤ addr.toNat ∧ addr.toNat < 0x4000) ∨ (0x4000 ≤ addr.toNat ∧ 36 ≤ addr.toNat % 64)) ∧
    (portRead s addr n = none → ∀ x, memRead addr n x s = { s with resp := .err }) ∧
    (n ≠ 4 ∨ addr ≠ 0x0000#15 ∧ addr ≠ 0x000C#15 → ∀ v, memWrite addr n v s = .next { s with resp := .err })

/-- R63: a write to SYMLIM stores the word, in every state. -/
def Obligations.SymlimStoresAnyWord : Prop :=
  ∀ (s : State) (v : Word), ∃ t, memWrite 0x000C#15 4 v s = .next t ∧ t = { s with symlim := v, resp := .ok } ∧
    portRead t 0x000C#15 4 = some v

/-- R62, R67: a read gives the data to the host and changes nothing of the block, so that reads may be repeated. -/
def Obligations.ReadsHaveNoSideEffect : Prop :=
  ∀ (s : State) (addr : Addr) (n x : Nat),
    (∀ v, portRead s addr n = some v → ∃ names, memRead addr n x s = { s with names := names, resp := .okData v } ∧
      lookupName x names = some (.word v) ∧ ∀ y, y ≠ x → lookupName y names = lookupName y s.names) ∧
    ∀ (addr' : Addr) (n' : Nat), portRead (memRead addr n x s) addr' n' = portRead s addr' n'

/-! ## COUNT -/

/-- R120, R122, R125: COUNT tallies the whole source from a cleared table. -/
def Obligations.CountTalliesSource : Prop :=
  ∀ s : State, s.fault = false → s.src.length < 2 ^ 32 →
    ∃ cnt : Vector Word 256,
      exec .count s = .next
        { s with cnt := cnt, symcnt := BitVec.ofNat 32 s.src.length, src := [], seq := .idle, resp := .ok } ∧
      (∀ r, (symGet cnt r).toNat = s.src.count r) ∧ countTotal cnt = s.src.length

/-- R123: the byte after the first 2^32-1 is taken, not tallied, and raises CountOverflow. -/
def Obligations.CountOverflowAtLimit : Prop :=
  ∀ (s : State) (pre : List Byte) (r : Byte) (rest : List Byte), s.fault = false → s.src = pre ++ r :: rest →
    pre.length = 2 ^ 32 - 1 →
    ∃ cnt : Vector Word 256,
      exec .count s = .next
        (raise .countOverflow (zext32 r) { s with cnt := cnt, symcnt := 0xFFFFFFFF#32, src := rest }) ∧
      (∀ x, (symGet cnt x).toNat = pre.count x) ∧ countTotal cnt = 2 ^ 32 - 1

/-! ## BUILD -/

/-- R133: the order of the queue is total, and `popmin` removes the element before all others. -/
def Obligations.PopminTakesTheFirst : Prop :=
  ∀ wgt : Vector Word 511,
    (∀ i j, before wgt i j = true ↔ wgtGet wgt i < wgtGet wgt j ∨ (wgtGet wgt i = wgtGet wgt j ∧ i < j)) ∧
    (∀ i j, i ≠ j → (before wgt i j = true ↔ before wgt j i = false)) ∧
    (∀ i j l, before wgt i j = true → before wgt j l = true → before wgt i l = true) ∧
    ∀ pq : List Idx, pq ≠ [] → ∃ m, popmin wgt pq = some (m, pq.erase m) ∧ m ∈ pq ∧
      ∀ j ∈ pq, j ≠ m → before wgt m j = true

/-- R134, R144: fewer than two distinct symbols. -/
def Obligations.BuildFailsBelowTwoSymbols : Prop :=
  ∀ s : State, s.fault = false →
    ((∀ x, symGet s.cnt x = 0#32) →
      ∃ scan, exec .build s = .next (raise .configurationError 0#32
        { s with treeValid := false, codesValid := false, nsyms := 0#9, nnodes := 0#9, pq := [], sScan := scan })) ∧
    ∀ x, (∀ y, symGet s.cnt y ≠ 0#32 ↔ y = x) →
      ∃ scan, exec .build s = .next (raise .configurationError 1#32
        { s with
          treeValid := false, codesValid := false, nsyms := 1#9, nnodes := 1#9, pq := [0#9], sScan := scan
          node := s.node.set 0 (leafWord x), wgt := s.wgt.set 0 (symGet s.cnt x) })

/-- R130, R131, R136, R137, R143: BUILD completes on two symbols or more; the sizes and the root; what is left of an earlier
arena (R43 (f)). -/
def Obligations.BuildCompletesWithTwoSymbols : Prop :=
  ∀ s : State, s.fault = false → 2 ≤ alphabetSize s.cnt →
    ∃ (node wgt : Vector Word 511) (scan a b : Idx),
      exec .build s = .next (complete
        { s with
          treeValid := true, codesValid := false, node := node, wgt := wgt
          nsyms := BitVec.ofNat 9 (alphabetSize s.cnt), nnodes := BitVec.ofNat 9 (2 * alphabetSize s.cnt - 1)
          root := BitVec.ofNat 9 (2 * alphabetSize s.cnt - 2), pq := [BitVec.ofNat 9 (2 * alphabetSize s.cnt - 2)]
          sScan := scan, aIdx := a, bIdx := b }) ∧
      ∀ i : Fin 511, 2 * alphabetSize s.cnt - 1 ≤ i.val → node[i] = s.node[i] ∧ wgt[i] = s.wgt[i]

/-- R43, R132, R139: what BUILD builds is a tree over exactly the counted symbols, with their counts as weights and the
total at the root. -/
def Obligations.BuildMakesATree : Prop :=
  ∀ s t : State, s.fault = false → countTotal s.cnt < 2 ^ 32 → exec .build s = .next t → t.fault = false →
    TreeOk t ∧ (wgtGet t.wgt t.root).toNat = countTotal s.cnt ∧
    (∀ x, 0#32 < symGet s.cnt x ↔ ∃ i < t.nsyms, nodeGet t.node i = leafWord x) ∧
    ∀ i < t.nsyms, wgtGet t.wgt i = symGet s.cnt (leafSym (nodeGet t.node i))

/-- R135, R139, R141: each Parent's zero child is before every other node of the queue as it was, its one child before every other
but that; a node is in the queue at a merge when it exists and no earlier Parent has it as a child. Its weight is the exact sum of theirs. -/
def Obligations.BuildMergesTheTwoLeast : Prop :=
  ∀ s t : State, s.fault = false → countTotal s.cnt < 2 ^ 32 → exec .build s = .next t → t.fault = false →
    ∀ i, t.isInner i →
      ∃ z o, nodeGet t.node i = parentWord z o ∧ z < i ∧ o < i ∧ before t.wgt z o = true ∧
        (wgtGet t.wgt i).toNat = (wgtGet t.wgt z).toNat + (wgtGet t.wgt o).toNat ∧
        ∀ j < i, (∀ i' < i, t.isInner i' → ¬ t.childOf j i') →
          (j ≠ z → before t.wgt z j = true) ∧ (j ≠ z → j ≠ o → before t.wgt o j = true)

/-- R141: "the parents' weights are non-decreasing in creation order". -/
def Obligations.ParentWeightsDoNotDecrease : Prop :=
  ∀ s t : State, s.fault = false → countTotal s.cnt < 2 ^ 32 → exec .build s = .next t → t.fault = false →
    ∀ i j, t.isInner i → t.isInner j → i ≤ j → wgtGet t.wgt i ≤ wgtGet t.wgt j

/-- R138: the result of BUILD is one fixed value of CNT, whatever else the states hold. -/
def Obligations.BuildDependsOnCountsOnly : Prop :=
  ∀ s s' t t' : State, s.fault = false → s'.fault = false → s.cnt = s'.cnt →
    exec .build s = .next t → exec .build s' = .next t' → t.fault = false →
    t'.fault = false ∧ t'.nsyms = t.nsyms ∧ t'.nnodes = t.nnodes ∧ t'.root = t.root ∧
    ∀ i < t.nnodes, nodeGet t'.node i = nodeGet t.node i ∧ wgtGet t'.wgt i = wgtGet t.wgt i

/-! ## GENCODE -/

/-- R160, R161, R163, R165: GENCODE on a tree completes; the entry of every leaf's symbol is its path, no other symbol has
one. -/
def Obligations.GencodeWritesThePaths : Prop :=
  ∀ s : State, s.fault = false → s.treeValid = true → TreeOk s →
    ∃ (code : Vector CodeEntry 256) (path : PathBits) (depth : Idx) (stk : List Idx),
      exec .gencode s = .next (complete
        { s with codesValid := true, code := code, path := path, depth := depth, stk := stk }) ∧
      CodesOk { s with code := code } ∧
      ∀ j < s.nsyms, ∀ bs, leadsTo s.node s.root bs j → (symGet code (leafSym (nodeGet s.node j))).string = bs

/-- R164: where a walk of 255 edges stands on a Parent, GENCODE raises RepresentationLimitError with such a node; CODES_VALID
is then 0. No tree of BUILD has one. -/
def Obligations.GencodeRepresentationLimit : Prop :=
  (∀ (s : State) (bs : List Bool) (i : Idx), s.fault = false → s.treeValid = true → bs.length = 255 →
    leadsTo s.node s.root bs i → isParent (nodeGet s.node i) = true →
    ∃ t, exec .gencode s = .next t ∧ t.fault = true ∧ t.cause = .representationLimitError ∧ t.codesValid = false ∧
      ∃ (bs' : List Bool) (i' : Idx), bs'.length = 255 ∧ leadsTo s.node s.root bs' i' ∧
        isParent (nodeGet s.node i') = true ∧ t.finfo = zext32 i') ∧
  ∀ (s : State) (bs : List Bool) (i : Idx), TreeOk s → leadsTo s.node s.root bs i →
    isParent (nodeGet s.node i) = true → bs.length < 255

/-- R166: run twice on one tree GENCODE writes the same table, and all else stays too, but for the walk's scratch registers,
which are left unnamed. -/
def Obligations.GencodeMayBeRepeated : Prop :=
  ∀ s t : State, s.fault = false → exec .gencode s = .next t → t.fault = false →
    ∃ (path : PathBits) (depth : Idx) (stk : List Idx),
      exec .gencode t = .next { t with path := path, depth := depth, stk := stk }

/-- R45 (c): no code is a prefix of another. -/
def Obligations.CodesArePrefixFree : Prop :=
  ∀ s : State, Inv s → s.codesValid = true → ∀ x y, (symGet s.code x).len ≠ 0#8 → (symGet s.code y).len ≠ 0#8 →
    (symGet s.code x).string <+: (symGet s.code y).string → x = y

/-- R45 (d): the sum of 2^(-LEN) over the coded symbols is exactly 1 (multiplied by 2^255). -/
def Obligations.CodesFillTheCodeSpace : Prop :=
  ∀ s : State, Inv s → s.codesValid = true →
    ((allSymbols.filter fun x => (symGet s.code x).len != 0#8).map fun x => 2 ^ (255 - (symGet s.code x).len.toNat)).sum
      = 2 ^ 255

/-- R45 (e): LEN <= NSYMS-1 <= 255. -/
def Obligations.CodeLengthBound : Prop :=
  ∀ s : State, Inv s → s.codesValid = true → ∀ x, (symGet s.code x).len.toNat ≤ s.nsyms.toNat - 1

/-- R142: "symbols with strictly higher counts receive codes no longer than symbols with strictly lower counts". -/
def Obligations.HigherCountsNoLongerCodes : Prop :=
  ∀ s t u : State, s.fault = false → countTotal s.cnt < 2 ^ 32 → exec .build s = .next t → exec .gencode t = .next u →
    u.fault = false → ∀ x y, symGet s.cnt y < symGet s.cnt x → 0#32 < symGet s.cnt y →
      (symGet u.code x).len ≤ (symGet u.code y).len

/-! ## ENCODE and FLUSH -/

/-- R180, R183, R186, R187: the whole bytes of the codes of the source go to the sink, the rest stays pending. -/
def Obligations.EncodePacksTheCodes : Prop :=
  ∀ s : State, s.fault = false → s.codesValid = true → allCoded s.code s.src →
    s.sink.accepts ((codeBits s.code s.src).length / 8) →
    ∃ (bytes : List Byte) (ebuf : Byte) (ecnt : BitVec 4) (k : BitVec 8),
      exec .encode s = .next (complete
        { s with
          src := [], sink := s.sink.after bytes, ebuf := ebuf, ecnt := ecnt
          symcnt := BitVec.ofNat 32 s.src.length, kBit := k }) ∧
      Packs s.code s.src bytes ebuf ecnt

/-- R184: a byte without a code is taken and raises ContractViolation before any bit of it is appended. -/
def Obligations.EncodeContractViolation : Prop :=
  ∀ (s : State) (pre : List Byte) (r : Byte) (rest : List Byte), s.fault = false → s.codesValid = true →
    s.src = pre ++ r :: rest → allCoded s.code pre → (symGet s.code r).len = 0#8 →
    s.sink.accepts ((codeBits s.code pre).length / 8) →
    ∃ (bytes : List Byte) (ebuf : Byte) (ecnt : BitVec 4) (k : BitVec 8),
      exec .encode s = .next (raise .contractViolation (zext32 r)
        { s with
          src := rest, sink := s.sink.after bytes, ebuf := ebuf, ecnt := ecnt
          symcnt := BitVec.ofNat 32 pre.length, kBit := k }) ∧
      Packs s.code pre bytes ebuf ecnt

/-- R185: the sink refuses the byte after m accepted ones; it stays in EBUF with ECNT = 8, inside the code of byte r, which is
not counted. -/
def Obligations.EncodeRefusedByte : Prop :=
  ∀ (s : State) (pre : List Byte) (r : Byte) (rest : List Byte) (m : Nat), s.fault = false → s.codesValid = true →
    s.src = pre ++ r :: rest → allCoded s.code (pre ++ [r]) →
    (codeBits s.code pre).length < 8 * (m + 1) → 8 * (m + 1) ≤ (codeBits s.code (pre ++ [r])).length →
    s.sink.accepts m → s.sink.nth m = .err →
    ∃ (bytes : List Byte) (ebuf : Byte),
      exec .encode s = .next (raise .ioError (zext32 ebuf)
        { s with
          src := rest, sink := (s.sink.after bytes).past 1, ebuf := ebuf, ecnt := 8#4
          symcnt := BitVec.ofNat 32 pre.length
          kBit := BitVec.ofNat 8 (8 * (m + 1) - (codeBits s.code pre).length) }) ∧
      bytes.length = m ∧ streamBits bytes ++ byteBits ebuf = (codeBits s.code (pre ++ [r])).take (8 * (m + 1))

/-- R190, R191: FLUSH with nothing pending, with the byte accepted, and with the byte refused; FLUSH after FLUSH writes
nothing. -/
def Obligations.FlushWritesThePendingByte : Prop :=
  (∀ s : State, s.fault = false →
    (s.ecnt = 0#4 → exec .flush s = .next (complete s)) ∧
    (s.ecnt ≠ 0#4 → s.sink.nth 0 = .ok →
      exec .flush s = .next (complete { s with sink := s.sink.after [s.ebuf], ebuf := 0#8, ecnt := 0#4 })) ∧
    (s.ecnt ≠ 0#4 → s.sink.nth 0 = .err →
      exec .flush s = .next (raise .ioError (zext32 s.ebuf) { s with sink := s.sink.past 1 }))) ∧
  ∀ s t : State, s.fault = false → exec .flush s = .next t → t.fault = false → exec .flush t = .next t

/-- R192: the length and the padding of the stream ENCODE and FLUSH write. -/
def Obligations.PaddedStreamIsCodesAndZeros : Prop :=
  ∀ s t u : State, s.fault = false → exec .encode s = .next t → exec .flush t = .next u → u.fault = false →
    ∃ y : List Byte, u.sink.out = s.sink.out ++ y ∧ y.length = ((codeBits s.code s.src).length + 7) / 8 ∧
      streamBits y = codeBits s.code s.src ++ List.replicate (8 * y.length - (codeBits s.code s.src).length) false

/-! ## DECODE and DECODEN -/

/-- R200, R206, R213: DECODE writes the greedy parse of the whole source. -/
def Obligations.DecodeWritesTheGreedyParse : Prop :=
  ∀ s : State, s.fault = false → s.treeValid = true → s.sink.accepts (parsed s s.src).length →
    ∃ (dsh : Byte) (dcnt : BitVec 4),
      exec .decode s = .next (complete
        { s with
          src := [], sink := s.sink.after (parsed s s.src), symcnt := BitVec.ofNat 32 (parsed s s.src).length
          dcur := parseEnd s s.src, trunc := (parseEnd s s.src != s.root), dsh := dsh, dcnt := dcnt })

/-- R210, R211, R207: DECODEN stops after SYMLIM symbols, at the root, leaving the bytes it did not need; a source that has
fewer symbols is decoded as by DECODE. -/
def Obligations.DecodenStopsAtTheLimit : Prop :=
  ∀ s : State, s.fault = false → s.treeValid = true →
    ((parsed s s.src).length < s.symlim.toNat → s.sink.accepts (parsed s s.src).length →
      ∃ (dsh : Byte) (dcnt : BitVec 4),
        exec .decoden s = .next (complete
          { s with
            src := [], sink := s.sink.after (parsed s s.src), symcnt := BitVec.ofNat 32 (parsed s s.src).length
            dcur := parseEnd s s.src, trunc := (parseEnd s s.src != s.root), dsh := dsh, dcnt := dcnt })) ∧
    (s.symlim.toNat ≤ (parsed s s.src).length → s.sink.accepts s.symlim.toNat →
      ∃ (m : Nat) (dsh : Byte) (dcnt : BitVec 4),
        exec .decoden s = .next (complete
          { s with
            src := s.src.drop m, sink := s.sink.after ((parsed s s.src).take s.symlim.toNat), symcnt := s.symlim
            dcur := s.root, trunc := false, dsh := dsh, dcnt := dcnt }) ∧
        neededFor s s.symlim.toNat m ∧ dcnt.toNat ≤ 7)

/-- R208: a refused symbol, in both decode commands. -/
def Obligations.DecodeRefusedSymbol : Prop :=
  ∀ (s : State) (j : Nat) (sym : Byte), s.fault = false → s.treeValid = true → (parsed s s.src)[j]? = some sym →
    s.sink.accepts j → s.sink.nth j = .err →
    ∃ (m : Nat) (leaf : Idx) (dsh : Byte) (dcnt : BitVec 4),
      neededFor s (j + 1) m ∧ isParent (nodeGet s.node leaf) = false ∧ leafSym (nodeGet s.node leaf) = sym ∧
      exec .decode s = .next (raise .ioError (zext32 sym)
        { s with
          src := s.src.drop m, sink := (s.sink.after ((parsed s s.src).take j)).past 1, symcnt := BitVec.ofNat 32 j
          dcur := leaf, trunc := false, dsh := dsh, dcnt := dcnt }) ∧
      (j < s.symlim.toNat → exec .decoden s = exec .decode s)

/-- R209: the symbols DECODE reads into p bits of zero padding. -/
def Obligations.ZeroPaddingDecodesToOneSymbol : Prop :=
  ∀ s : State, Inv s → s.codesValid = true →
    ∃ (sym : Byte) (z : Nat), 0 < z ∧ (symGet s.code sym).string = List.replicate z false ∧
      ∀ (x y : List Byte) (p : Nat), allCoded s.code x → streamBits y = codeBits s.code x ++ List.replicate p false →
        parsed s y = x ++ List.replicate (p / z) sym ∧ (parseEnd s y = s.root ↔ p % z = 0)

/-- R214: decoding the encoding of a sequence, with the tree of its own counts, gives it back. -/
def Obligations.RoundTripReproducesInput : Prop :=
  ∀ (s : State) (x : List Byte), s.fault = false → x.length < 2 ^ 32 → (∃ a ∈ x, ∃ b ∈ x, a ≠ b) →
    s.sink.accepts (33 * x.length + 1) →
    ∃ s1 s2 s3 s4 s5 s6 : State,
      exec .count { s with src := x } = .next s1 ∧ exec .build s1 = .next s2 ∧ exec .gencode s2 = .next s3 ∧
      exec .encode { s3 with src := x } = .next s4 ∧ exec .flush s4 = .next s5 ∧
      exec .decoden
        { s5 with
          src := s5.sink.out.drop s.sink.out.length, symlim := BitVec.ofNat 32 x.length
          sink := { s5.sink with out := [] } } = .next s6 ∧
      s6.sink.out = x ∧ s6.fault = false ∧ s6.symcnt = BitVec.ofNat 32 x.length ∧ s6.trunc = false ∧ s6.src = [] ∧
      (s5.sink.out.drop s.sink.out.length).length = ((codeBits s3.code x).length + 7) / 8

/-! ## The state machines of the units: `exec` is what their micro-steps do

They end in one state with the leftovers of the hidden registers (log entry 7), and do so too in states no run reaches (log
entries 6, 9, 12, DESIGN CHOICE). -/

/-- R126: COUNT. -/
def Obligations.CountIsItsStateMachine : Prop :=
  ∀ s : State, s.fault = false → ∃ n, exec .count s = .next (microRun n { s with seq := .cClear })

/-- R140: BUILD. -/
def Obligations.BuildIsItsStateMachine : Prop :=
  ∀ s : State, s.fault = false → ∃ n, exec .build s = .next (microRun n { s with seq := .tbClear })

/-- R167: GENCODE; "The table and the recursion write the same entries in the same order". -/
def Obligations.GencodeIsItsStateMachine : Prop :=
  ∀ s : State, s.fault = false → ∃ n, exec .gencode s = .next (microRun n { s with seq := .cgClear })

/-- R188: ENCODE. -/
def Obligations.EncodeIsItsStateMachine : Prop :=
  ∀ s : State, s.fault = false → ∃ n, exec .encode s = .next (microRun n { s with seq := .eStart })

/-- R212: DECODE and DECODEN. -/
def Obligations.DecodeIsItsStateMachine : Prop :=
  ∀ s : State, s.fault = false →
    (∃ n, exec .decode s = .next (microRun n { s with seq := .dStart false })) ∧
    ∃ n, exec .decoden s = .next (microRun n { s with seq := .dStart true })

/-! ## The invariant -/

/-- The invariant holds after reset. -/
def Obligations.InvariantHoldsAtReset : Prop := Inv State.reset

/-- Every step keeps the invariant: the fault record, the flags, the register ranges, the Encoder's buffer, the queue, the
count total, the tree and the code table (R23, R26, R28, R36, R37, R40, R43, R45, R46, R47, R231, R264). -/
def Obligations.InvariantKeptByEveryStep : Prop := ∀ s t : State, Inv s → step s = .next t → Inv t
end

