-- ==== Sys2Proof/Laws/State.lean ====
section
/-! SUPPORT. One lemma for each field of State and each update of it, true by rfl, so that no proof unfolds an update. -/

namespace Sys2Proof.Machine

/-! `raise` -/

@[simp] theorem raise_symcnt (c : Cause) (v : Word) (s : State) : (raise c v s).symcnt = s.symcnt := rfl
@[simp] theorem raise_symlim (c : Cause) (v : Word) (s : State) : (raise c v s).symlim = s.symlim := rfl
@[simp] theorem raise_nsyms (c : Cause) (v : Word) (s : State) : (raise c v s).nsyms = s.nsyms := rfl
@[simp] theorem raise_nnodes (c : Cause) (v : Word) (s : State) : (raise c v s).nnodes = s.nnodes := rfl
@[simp] theorem raise_root (c : Cause) (v : Word) (s : State) : (raise c v s).root = s.root := rfl
@[simp] theorem raise_ebuf (c : Cause) (v : Word) (s : State) : (raise c v s).ebuf = s.ebuf := rfl
@[simp] theorem raise_ecnt (c : Cause) (v : Word) (s : State) : (raise c v s).ecnt = s.ecnt := rfl
@[simp] theorem raise_dcur (c : Cause) (v : Word) (s : State) : (raise c v s).dcur = s.dcur := rfl
@[simp] theorem raise_fault (c : Cause) (v : Word) (s : State) : (raise c v s).fault = true := rfl
@[simp] theorem raise_treeValid (c : Cause) (v : Word) (s : State) : (raise c v s).treeValid = s.treeValid := rfl
@[simp] theorem raise_codesValid (c : Cause) (v : Word) (s : State) : (raise c v s).codesValid = s.codesValid := rfl
@[simp] theorem raise_trunc (c : Cause) (v : Word) (s : State) : (raise c v s).trunc = s.trunc := rfl
@[simp] theorem raise_cause (c : Cause) (v : Word) (s : State) : (raise c v s).cause = c := rfl
@[simp] theorem raise_finfo (c : Cause) (v : Word) (s : State) : (raise c v s).finfo = v := rfl
@[simp] theorem raise_cnt (c : Cause) (v : Word) (s : State) : (raise c v s).cnt = s.cnt := rfl
@[simp] theorem raise_node (c : Cause) (v : Word) (s : State) : (raise c v s).node = s.node := rfl
@[simp] theorem raise_wgt (c : Cause) (v : Word) (s : State) : (raise c v s).wgt = s.wgt := rfl
@[simp] theorem raise_code (c : Cause) (v : Word) (s : State) : (raise c v s).code = s.code := rfl
@[simp] theorem raise_pq (c : Cause) (v : Word) (s : State) : (raise c v s).pq = s.pq := rfl
@[simp] theorem raise_dsh (c : Cause) (v : Word) (s : State) : (raise c v s).dsh = s.dsh := rfl
@[simp] theorem raise_dcnt (c : Cause) (v : Word) (s : State) : (raise c v s).dcnt = s.dcnt := rfl
@[simp] theorem raise_seq (c : Cause) (v : Word) (s : State) : (raise c v s).seq = .idle := rfl
@[simp] theorem raise_sScan (c : Cause) (v : Word) (s : State) : (raise c v s).sScan = s.sScan := rfl
@[simp] theorem raise_aIdx (c : Cause) (v : Word) (s : State) : (raise c v s).aIdx = s.aIdx := rfl
@[simp] theorem raise_bIdx (c : Cause) (v : Word) (s : State) : (raise c v s).bIdx = s.bIdx := rfl
@[simp] theorem raise_kBit (c : Cause) (v : Word) (s : State) : (raise c v s).kBit = s.kBit := rfl
@[simp] theorem raise_path (c : Cause) (v : Word) (s : State) : (raise c v s).path = s.path := rfl
@[simp] theorem raise_depth (c : Cause) (v : Word) (s : State) : (raise c v s).depth = s.depth := rfl
@[simp] theorem raise_stk (c : Cause) (v : Word) (s : State) : (raise c v s).stk = s.stk := rfl
@[simp] theorem raise_src (c : Cause) (v : Word) (s : State) : (raise c v s).src = s.src := rfl
@[simp] theorem raise_sink (c : Cause) (v : Word) (s : State) : (raise c v s).sink = s.sink := rfl
@[simp] theorem raise_pending (c : Cause) (v : Word) (s : State) : (raise c v s).pending = s.pending := rfl
@[simp] theorem raise_names (c : Cause) (v : Word) (s : State) : (raise c v s).names = s.names := rfl
@[simp] theorem raise_resp (c : Cause) (v : Word) (s : State) : (raise c v s).resp = .err := rfl

/-! `complete` -/

@[simp] theorem complete_symcnt (s : State) : (complete s).symcnt = s.symcnt := rfl
@[simp] theorem complete_symlim (s : State) : (complete s).symlim = s.symlim := rfl
@[simp] theorem complete_nsyms (s : State) : (complete s).nsyms = s.nsyms := rfl
@[simp] theorem complete_nnodes (s : State) : (complete s).nnodes = s.nnodes := rfl
@[simp] theorem complete_root (s : State) : (complete s).root = s.root := rfl
@[simp] theorem complete_ebuf (s : State) : (complete s).ebuf = s.ebuf := rfl
@[simp] theorem complete_ecnt (s : State) : (complete s).ecnt = s.ecnt := rfl
@[simp] theorem complete_dcur (s : State) : (complete s).dcur = s.dcur := rfl
@[simp] theorem complete_fault (s : State) : (complete s).fault = s.fault := rfl
@[simp] theorem complete_treeValid (s : State) : (complete s).treeValid = s.treeValid := rfl
@[simp] theorem complete_codesValid (s : State) : (complete s).codesValid = s.codesValid := rfl
@[simp] theorem complete_trunc (s : State) : (complete s).trunc = s.trunc := rfl
@[simp] theorem complete_cause (s : State) : (complete s).cause = s.cause := rfl
@[simp] theorem complete_finfo (s : State) : (complete s).finfo = s.finfo := rfl
@[simp] theorem complete_cnt (s : State) : (complete s).cnt = s.cnt := rfl
@[simp] theorem complete_node (s : State) : (complete s).node = s.node := rfl
@[simp] theorem complete_wgt (s : State) : (complete s).wgt = s.wgt := rfl
@[simp] theorem complete_code (s : State) : (complete s).code = s.code := rfl
@[simp] theorem complete_pq (s : State) : (complete s).pq = s.pq := rfl
@[simp] theorem complete_dsh (s : State) : (complete s).dsh = s.dsh := rfl
@[simp] theorem complete_dcnt (s : State) : (complete s).dcnt = s.dcnt := rfl
@[simp] theorem complete_seq (s : State) : (complete s).seq = .idle := rfl
@[simp] theorem complete_sScan (s : State) : (complete s).sScan = s.sScan := rfl
@[simp] theorem complete_aIdx (s : State) : (complete s).aIdx = s.aIdx := rfl
@[simp] theorem complete_bIdx (s : State) : (complete s).bIdx = s.bIdx := rfl
@[simp] theorem complete_kBit (s : State) : (complete s).kBit = s.kBit := rfl
@[simp] theorem complete_path (s : State) : (complete s).path = s.path := rfl
@[simp] theorem complete_depth (s : State) : (complete s).depth = s.depth := rfl
@[simp] theorem complete_stk (s : State) : (complete s).stk = s.stk := rfl
@[simp] theorem complete_src (s : State) : (complete s).src = s.src := rfl
@[simp] theorem complete_sink (s : State) : (complete s).sink = s.sink := rfl
@[simp] theorem complete_pending (s : State) : (complete s).pending = s.pending := rfl
@[simp] theorem complete_names (s : State) : (complete s).names = s.names := rfl
@[simp] theorem complete_resp (s : State) : (complete s).resp = .ok := rfl

/-! `refuse` -/

@[simp] theorem refuse_symcnt (s : State) : (refuse s).symcnt = s.symcnt := rfl
@[simp] theorem refuse_symlim (s : State) : (refuse s).symlim = s.symlim := rfl
@[simp] theorem refuse_nsyms (s : State) : (refuse s).nsyms = s.nsyms := rfl
@[simp] theorem refuse_nnodes (s : State) : (refuse s).nnodes = s.nnodes := rfl
@[simp] theorem refuse_root (s : State) : (refuse s).root = s.root := rfl
@[simp] theorem refuse_ebuf (s : State) : (refuse s).ebuf = s.ebuf := rfl
@[simp] theorem refuse_ecnt (s : State) : (refuse s).ecnt = s.ecnt := rfl
@[simp] theorem refuse_dcur (s : State) : (refuse s).dcur = s.dcur := rfl
@[simp] theorem refuse_fault (s : State) : (refuse s).fault = s.fault := rfl
@[simp] theorem refuse_treeValid (s : State) : (refuse s).treeValid = s.treeValid := rfl
@[simp] theorem refuse_codesValid (s : State) : (refuse s).codesValid = s.codesValid := rfl
@[simp] theorem refuse_trunc (s : State) : (refuse s).trunc = s.trunc := rfl
@[simp] theorem refuse_cause (s : State) : (refuse s).cause = s.cause := rfl
@[simp] theorem refuse_finfo (s : State) : (refuse s).finfo = s.finfo := rfl
@[simp] theorem refuse_cnt (s : State) : (refuse s).cnt = s.cnt := rfl
@[simp] theorem refuse_node (s : State) : (refuse s).node = s.node := rfl
@[simp] theorem refuse_wgt (s : State) : (refuse s).wgt = s.wgt := rfl
@[simp] theorem refuse_code (s : State) : (refuse s).code = s.code := rfl
@[simp] theorem refuse_pq (s : State) : (refuse s).pq = s.pq := rfl
@[simp] theorem refuse_dsh (s : State) : (refuse s).dsh = s.dsh := rfl
@[simp] theorem refuse_dcnt (s : State) : (refuse s).dcnt = s.dcnt := rfl
@[simp] theorem refuse_seq (s : State) : (refuse s).seq = s.seq := rfl
@[simp] theorem refuse_sScan (s : State) : (refuse s).sScan = s.sScan := rfl
@[simp] theorem refuse_aIdx (s : State) : (refuse s).aIdx = s.aIdx := rfl
@[simp] theorem refuse_bIdx (s : State) : (refuse s).bIdx = s.bIdx := rfl
@[simp] theorem refuse_kBit (s : State) : (refuse s).kBit = s.kBit := rfl
@[simp] theorem refuse_path (s : State) : (refuse s).path = s.path := rfl
@[simp] theorem refuse_depth (s : State) : (refuse s).depth = s.depth := rfl
@[simp] theorem refuse_stk (s : State) : (refuse s).stk = s.stk := rfl
@[simp] theorem refuse_src (s : State) : (refuse s).src = s.src := rfl
@[simp] theorem refuse_sink (s : State) : (refuse s).sink = s.sink := rfl
@[simp] theorem refuse_pending (s : State) : (refuse s).pending = s.pending := rfl
@[simp] theorem refuse_names (s : State) : (refuse s).names = s.names := rfl
@[simp] theorem refuse_resp (s : State) : (refuse s).resp = .err := rfl

/-! `resetBlock` -/

@[simp] theorem resetBlock_symcnt (s : State) : (resetBlock s).symcnt = State.reset.symcnt := rfl
@[simp] theorem resetBlock_symlim (s : State) : (resetBlock s).symlim = State.reset.symlim := rfl
@[simp] theorem resetBlock_nsyms (s : State) : (resetBlock s).nsyms = State.reset.nsyms := rfl
@[simp] theorem resetBlock_nnodes (s : State) : (resetBlock s).nnodes = State.reset.nnodes := rfl
@[simp] theorem resetBlock_root (s : State) : (resetBlock s).root = State.reset.root := rfl
@[simp] theorem resetBlock_ebuf (s : State) : (resetBlock s).ebuf = State.reset.ebuf := rfl
@[simp] theorem resetBlock_ecnt (s : State) : (resetBlock s).ecnt = State.reset.ecnt := rfl
@[simp] theorem resetBlock_dcur (s : State) : (resetBlock s).dcur = State.reset.dcur := rfl
@[simp] theorem resetBlock_fault (s : State) : (resetBlock s).fault = State.reset.fault := rfl
@[simp] theorem resetBlock_treeValid (s : State) : (resetBlock s).treeValid = State.reset.treeValid := rfl
@[simp] theorem resetBlock_codesValid (s : State) : (resetBlock s).codesValid = State.reset.codesValid := rfl
@[simp] theorem resetBlock_trunc (s : State) : (resetBlock s).trunc = State.reset.trunc := rfl
@[simp] theorem resetBlock_cause (s : State) : (resetBlock s).cause = State.reset.cause := rfl
@[simp] theorem resetBlock_finfo (s : State) : (resetBlock s).finfo = State.reset.finfo := rfl
@[simp] theorem resetBlock_cnt (s : State) : (resetBlock s).cnt = State.reset.cnt := rfl
@[simp] theorem resetBlock_node (s : State) : (resetBlock s).node = State.reset.node := rfl
@[simp] theorem resetBlock_wgt (s : State) : (resetBlock s).wgt = State.reset.wgt := rfl
@[simp] theorem resetBlock_code (s : State) : (resetBlock s).code = State.reset.code := rfl
@[simp] theorem resetBlock_pq (s : State) : (resetBlock s).pq = State.reset.pq := rfl
@[simp] theorem resetBlock_dsh (s : State) : (resetBlock s).dsh = State.reset.dsh := rfl
@[simp] theorem resetBlock_dcnt (s : State) : (resetBlock s).dcnt = State.reset.dcnt := rfl
@[simp] theorem resetBlock_seq (s : State) : (resetBlock s).seq = State.reset.seq := rfl
@[simp] theorem resetBlock_sScan (s : State) : (resetBlock s).sScan = State.reset.sScan := rfl
@[simp] theorem resetBlock_aIdx (s : State) : (resetBlock s).aIdx = State.reset.aIdx := rfl
@[simp] theorem resetBlock_bIdx (s : State) : (resetBlock s).bIdx = State.reset.bIdx := rfl
@[simp] theorem resetBlock_kBit (s : State) : (resetBlock s).kBit = State.reset.kBit := rfl
@[simp] theorem resetBlock_path (s : State) : (resetBlock s).path = State.reset.path := rfl
@[simp] theorem resetBlock_depth (s : State) : (resetBlock s).depth = State.reset.depth := rfl
@[simp] theorem resetBlock_stk (s : State) : (resetBlock s).stk = State.reset.stk := rfl
@[simp] theorem resetBlock_src (s : State) : (resetBlock s).src = s.src := rfl
@[simp] theorem resetBlock_sink (s : State) : (resetBlock s).sink = s.sink := rfl
@[simp] theorem resetBlock_pending (s : State) : (resetBlock s).pending = s.pending := rfl
@[simp] theorem resetBlock_names (s : State) : (resetBlock s).names = s.names := rfl
@[simp] theorem resetBlock_resp (s : State) : (resetBlock s).resp = s.resp := rfl

/-! `putTally` -/

@[simp] theorem putTally_symcnt (s : State) (d : Tally × List Byte) : (putTally s d).symcnt = d.1.symcnt := rfl
@[simp] theorem putTally_symlim (s : State) (d : Tally × List Byte) : (putTally s d).symlim = s.symlim := rfl
@[simp] theorem putTally_nsyms (s : State) (d : Tally × List Byte) : (putTally s d).nsyms = s.nsyms := rfl
@[simp] theorem putTally_nnodes (s : State) (d : Tally × List Byte) : (putTally s d).nnodes = s.nnodes := rfl
@[simp] theorem putTally_root (s : State) (d : Tally × List Byte) : (putTally s d).root = s.root := rfl
@[simp] theorem putTally_ebuf (s : State) (d : Tally × List Byte) : (putTally s d).ebuf = s.ebuf := rfl
@[simp] theorem putTally_ecnt (s : State) (d : Tally × List Byte) : (putTally s d).ecnt = s.ecnt := rfl
@[simp] theorem putTally_dcur (s : State) (d : Tally × List Byte) : (putTally s d).dcur = s.dcur := rfl
@[simp] theorem putTally_fault (s : State) (d : Tally × List Byte) : (putTally s d).fault = s.fault := rfl
@[simp] theorem putTally_treeValid (s : State) (d : Tally × List Byte) : (putTally s d).treeValid = s.treeValid := rfl
@[simp] theorem putTally_codesValid (s : State) (d : Tally × List Byte) : (putTally s d).codesValid = s.codesValid := rfl
@[simp] theorem putTally_trunc (s : State) (d : Tally × List Byte) : (putTally s d).trunc = s.trunc := rfl
@[simp] theorem putTally_cause (s : State) (d : Tally × List Byte) : (putTally s d).cause = s.cause := rfl
@[simp] theorem putTally_finfo (s : State) (d : Tally × List Byte) : (putTally s d).finfo = s.finfo := rfl
@[simp] theorem putTally_cnt (s : State) (d : Tally × List Byte) : (putTally s d).cnt = d.1.cnt := rfl
@[simp] theorem putTally_node (s : State) (d : Tally × List Byte) : (putTally s d).node = s.node := rfl
@[simp] theorem putTally_wgt (s : State) (d : Tally × List Byte) : (putTally s d).wgt = s.wgt := rfl
@[simp] theorem putTally_code (s : State) (d : Tally × List Byte) : (putTally s d).code = s.code := rfl
@[simp] theorem putTally_pq (s : State) (d : Tally × List Byte) : (putTally s d).pq = s.pq := rfl
@[simp] theorem putTally_dsh (s : State) (d : Tally × List Byte) : (putTally s d).dsh = s.dsh := rfl
@[simp] theorem putTally_dcnt (s : State) (d : Tally × List Byte) : (putTally s d).dcnt = s.dcnt := rfl
@[simp] theorem putTally_seq (s : State) (d : Tally × List Byte) : (putTally s d).seq = s.seq := rfl
@[simp] theorem putTally_sScan (s : State) (d : Tally × List Byte) : (putTally s d).sScan = s.sScan := rfl
@[simp] theorem putTally_aIdx (s : State) (d : Tally × List Byte) : (putTally s d).aIdx = s.aIdx := rfl
@[simp] theorem putTally_bIdx (s : State) (d : Tally × List Byte) : (putTally s d).bIdx = s.bIdx := rfl
@[simp] theorem putTally_kBit (s : State) (d : Tally × List Byte) : (putTally s d).kBit = s.kBit := rfl
@[simp] theorem putTally_path (s : State) (d : Tally × List Byte) : (putTally s d).path = s.path := rfl
@[simp] theorem putTally_depth (s : State) (d : Tally × List Byte) : (putTally s d).depth = s.depth := rfl
@[simp] theorem putTally_stk (s : State) (d : Tally × List Byte) : (putTally s d).stk = s.stk := rfl
@[simp] theorem putTally_src (s : State) (d : Tally × List Byte) : (putTally s d).src = d.2 := rfl
@[simp] theorem putTally_sink (s : State) (d : Tally × List Byte) : (putTally s d).sink = s.sink := rfl
@[simp] theorem putTally_pending (s : State) (d : Tally × List Byte) : (putTally s d).pending = s.pending := rfl
@[simp] theorem putTally_names (s : State) (d : Tally × List Byte) : (putTally s d).names = s.names := rfl
@[simp] theorem putTally_resp (s : State) (d : Tally × List Byte) : (putTally s d).resp = s.resp := rfl

/-! `putBuilder` -/

@[simp] theorem putBuilder_symcnt (s : State) (n : Idx) (b : Builder) : (putBuilder s n b).symcnt = s.symcnt := rfl
@[simp] theorem putBuilder_symlim (s : State) (n : Idx) (b : Builder) : (putBuilder s n b).symlim = s.symlim := rfl
@[simp] theorem putBuilder_nsyms (s : State) (n : Idx) (b : Builder) : (putBuilder s n b).nsyms = n := rfl
@[simp] theorem putBuilder_nnodes (s : State) (n : Idx) (b : Builder) : (putBuilder s n b).nnodes = b.nnodes := rfl
@[simp] theorem putBuilder_root (s : State) (n : Idx) (b : Builder) : (putBuilder s n b).root = s.root := rfl
@[simp] theorem putBuilder_ebuf (s : State) (n : Idx) (b : Builder) : (putBuilder s n b).ebuf = s.ebuf := rfl
@[simp] theorem putBuilder_ecnt (s : State) (n : Idx) (b : Builder) : (putBuilder s n b).ecnt = s.ecnt := rfl
@[simp] theorem putBuilder_dcur (s : State) (n : Idx) (b : Builder) : (putBuilder s n b).dcur = s.dcur := rfl
@[simp] theorem putBuilder_fault (s : State) (n : Idx) (b : Builder) : (putBuilder s n b).fault = s.fault := rfl
@[simp] theorem putBuilder_treeValid (s : State) (n : Idx) (b : Builder) : (putBuilder s n b).treeValid = false := rfl
@[simp] theorem putBuilder_codesValid (s : State) (n : Idx) (b : Builder) : (putBuilder s n b).codesValid = false := rfl
@[simp] theorem putBuilder_trunc (s : State) (n : Idx) (b : Builder) : (putBuilder s n b).trunc = s.trunc := rfl
@[simp] theorem putBuilder_cause (s : State) (n : Idx) (b : Builder) : (putBuilder s n b).cause = s.cause := rfl
@[simp] theorem putBuilder_finfo (s : State) (n : Idx) (b : Builder) : (putBuilder s n b).finfo = s.finfo := rfl
@[simp] theorem putBuilder_cnt (s : State) (n : Idx) (b : Builder) : (putBuilder s n b).cnt = s.cnt := rfl
@[simp] theorem putBuilder_node (s : State) (n : Idx) (b : Builder) : (putBuilder s n b).node = b.node := rfl
@[simp] theorem putBuilder_wgt (s : State) (n : Idx) (b : Builder) : (putBuilder s n b).wgt = b.wgt := rfl
@[simp] theorem putBuilder_code (s : State) (n : Idx) (b : Builder) : (putBuilder s n b).code = s.code := rfl
@[simp] theorem putBuilder_pq (s : State) (n : Idx) (b : Builder) : (putBuilder s n b).pq = b.pq := rfl
@[simp] theorem putBuilder_dsh (s : State) (n : Idx) (b : Builder) : (putBuilder s n b).dsh = s.dsh := rfl
@[simp] theorem putBuilder_dcnt (s : State) (n : Idx) (b : Builder) : (putBuilder s n b).dcnt = s.dcnt := rfl
@[simp] theorem putBuilder_seq (s : State) (n : Idx) (b : Builder) : (putBuilder s n b).seq = s.seq := rfl
@[simp] theorem putBuilder_sScan (s : State) (n : Idx) (b : Builder) : (putBuilder s n b).sScan = 256#9 := rfl
@[simp] theorem putBuilder_aIdx (s : State) (n : Idx) (b : Builder) : (putBuilder s n b).aIdx = b.aIdx := rfl
@[simp] theorem putBuilder_bIdx (s : State) (n : Idx) (b : Builder) : (putBuilder s n b).bIdx = b.bIdx := rfl
@[simp] theorem putBuilder_kBit (s : State) (n : Idx) (b : Builder) : (putBuilder s n b).kBit = s.kBit := rfl
@[simp] theorem putBuilder_path (s : State) (n : Idx) (b : Builder) : (putBuilder s n b).path = s.path := rfl
@[simp] theorem putBuilder_depth (s : State) (n : Idx) (b : Builder) : (putBuilder s n b).depth = s.depth := rfl
@[simp] theorem putBuilder_stk (s : State) (n : Idx) (b : Builder) : (putBuilder s n b).stk = s.stk := rfl
@[simp] theorem putBuilder_src (s : State) (n : Idx) (b : Builder) : (putBuilder s n b).src = s.src := rfl
@[simp] theorem putBuilder_sink (s : State) (n : Idx) (b : Builder) : (putBuilder s n b).sink = s.sink := rfl
@[simp] theorem putBuilder_pending (s : State) (n : Idx) (b : Builder) : (putBuilder s n b).pending = s.pending := rfl
@[simp] theorem putBuilder_names (s : State) (n : Idx) (b : Builder) : (putBuilder s n b).names = s.names := rfl
@[simp] theorem putBuilder_resp (s : State) (n : Idx) (b : Builder) : (putBuilder s n b).resp = s.resp := rfl

/-! `markRoot` -/

@[simp] theorem markRoot_symcnt (s : State) : (markRoot s).symcnt = s.symcnt := rfl
@[simp] theorem markRoot_symlim (s : State) : (markRoot s).symlim = s.symlim := rfl
@[simp] theorem markRoot_nsyms (s : State) : (markRoot s).nsyms = s.nsyms := rfl
@[simp] theorem markRoot_nnodes (s : State) : (markRoot s).nnodes = s.nnodes := rfl
@[simp] theorem markRoot_root (s : State) : (markRoot s).root = s.pq.headD s.root := rfl
@[simp] theorem markRoot_ebuf (s : State) : (markRoot s).ebuf = s.ebuf := rfl
@[simp] theorem markRoot_ecnt (s : State) : (markRoot s).ecnt = s.ecnt := rfl
@[simp] theorem markRoot_dcur (s : State) : (markRoot s).dcur = s.dcur := rfl
@[simp] theorem markRoot_fault (s : State) : (markRoot s).fault = s.fault := rfl
@[simp] theorem markRoot_treeValid (s : State) : (markRoot s).treeValid = true := rfl
@[simp] theorem markRoot_codesValid (s : State) : (markRoot s).codesValid = s.codesValid := rfl
@[simp] theorem markRoot_trunc (s : State) : (markRoot s).trunc = s.trunc := rfl
@[simp] theorem markRoot_cause (s : State) : (markRoot s).cause = s.cause := rfl
@[simp] theorem markRoot_finfo (s : State) : (markRoot s).finfo = s.finfo := rfl
@[simp] theorem markRoot_cnt (s : State) : (markRoot s).cnt = s.cnt := rfl
@[simp] theorem markRoot_node (s : State) : (markRoot s).node = s.node := rfl
@[simp] theorem markRoot_wgt (s : State) : (markRoot s).wgt = s.wgt := rfl
@[simp] theorem markRoot_code (s : State) : (markRoot s).code = s.code := rfl
@[simp] theorem markRoot_pq (s : State) : (markRoot s).pq = s.pq := rfl
@[simp] theorem markRoot_dsh (s : State) : (markRoot s).dsh = s.dsh := rfl
@[simp] theorem markRoot_dcnt (s : State) : (markRoot s).dcnt = s.dcnt := rfl
@[simp] theorem markRoot_seq (s : State) : (markRoot s).seq = s.seq := rfl
@[simp] theorem markRoot_sScan (s : State) : (markRoot s).sScan = s.sScan := rfl
@[simp] theorem markRoot_aIdx (s : State) : (markRoot s).aIdx = s.aIdx := rfl
@[simp] theorem markRoot_bIdx (s : State) : (markRoot s).bIdx = s.bIdx := rfl
@[simp] theorem markRoot_kBit (s : State) : (markRoot s).kBit = s.kBit := rfl
@[simp] theorem markRoot_path (s : State) : (markRoot s).path = s.path := rfl
@[simp] theorem markRoot_depth (s : State) : (markRoot s).depth = s.depth := rfl
@[simp] theorem markRoot_stk (s : State) : (markRoot s).stk = s.stk := rfl
@[simp] theorem markRoot_src (s : State) : (markRoot s).src = s.src := rfl
@[simp] theorem markRoot_sink (s : State) : (markRoot s).sink = s.sink := rfl
@[simp] theorem markRoot_pending (s : State) : (markRoot s).pending = s.pending := rfl
@[simp] theorem markRoot_names (s : State) : (markRoot s).names = s.names := rfl
@[simp] theorem markRoot_resp (s : State) : (markRoot s).resp = s.resp := rfl

/-! `putWalk` -/

@[simp] theorem putWalk_symcnt (s : State) (w : Walk) : (putWalk s w).symcnt = s.symcnt := rfl
@[simp] theorem putWalk_symlim (s : State) (w : Walk) : (putWalk s w).symlim = s.symlim := rfl
@[simp] theorem putWalk_nsyms (s : State) (w : Walk) : (putWalk s w).nsyms = s.nsyms := rfl
@[simp] theorem putWalk_nnodes (s : State) (w : Walk) : (putWalk s w).nnodes = s.nnodes := rfl
@[simp] theorem putWalk_root (s : State) (w : Walk) : (putWalk s w).root = s.root := rfl
@[simp] theorem putWalk_ebuf (s : State) (w : Walk) : (putWalk s w).ebuf = s.ebuf := rfl
@[simp] theorem putWalk_ecnt (s : State) (w : Walk) : (putWalk s w).ecnt = s.ecnt := rfl
@[simp] theorem putWalk_dcur (s : State) (w : Walk) : (putWalk s w).dcur = s.dcur := rfl
@[simp] theorem putWalk_fault (s : State) (w : Walk) : (putWalk s w).fault = s.fault := rfl
@[simp] theorem putWalk_treeValid (s : State) (w : Walk) : (putWalk s w).treeValid = s.treeValid := rfl
@[simp] theorem putWalk_codesValid (s : State) (w : Walk) : (putWalk s w).codesValid = false := rfl
@[simp] theorem putWalk_trunc (s : State) (w : Walk) : (putWalk s w).trunc = s.trunc := rfl
@[simp] theorem putWalk_cause (s : State) (w : Walk) : (putWalk s w).cause = s.cause := rfl
@[simp] theorem putWalk_finfo (s : State) (w : Walk) : (putWalk s w).finfo = s.finfo := rfl
@[simp] theorem putWalk_cnt (s : State) (w : Walk) : (putWalk s w).cnt = s.cnt := rfl
@[simp] theorem putWalk_node (s : State) (w : Walk) : (putWalk s w).node = s.node := rfl
@[simp] theorem putWalk_wgt (s : State) (w : Walk) : (putWalk s w).wgt = s.wgt := rfl
@[simp] theorem putWalk_code (s : State) (w : Walk) : (putWalk s w).code = w.code := rfl
@[simp] theorem putWalk_pq (s : State) (w : Walk) : (putWalk s w).pq = s.pq := rfl
@[simp] theorem putWalk_dsh (s : State) (w : Walk) : (putWalk s w).dsh = s.dsh := rfl
@[simp] theorem putWalk_dcnt (s : State) (w : Walk) : (putWalk s w).dcnt = s.dcnt := rfl
@[simp] theorem putWalk_seq (s : State) (w : Walk) : (putWalk s w).seq = s.seq := rfl
@[simp] theorem putWalk_sScan (s : State) (w : Walk) : (putWalk s w).sScan = s.sScan := rfl
@[simp] theorem putWalk_aIdx (s : State) (w : Walk) : (putWalk s w).aIdx = s.aIdx := rfl
@[simp] theorem putWalk_bIdx (s : State) (w : Walk) : (putWalk s w).bIdx = s.bIdx := rfl
@[simp] theorem putWalk_kBit (s : State) (w : Walk) : (putWalk s w).kBit = s.kBit := rfl
@[simp] theorem putWalk_path (s : State) (w : Walk) : (putWalk s w).path = w.path := rfl
@[simp] theorem putWalk_depth (s : State) (w : Walk) : (putWalk s w).depth = BitVec.ofNat 9 w.depth := rfl
@[simp] theorem putWalk_stk (s : State) (w : Walk) : (putWalk s w).stk = w.stk := rfl
@[simp] theorem putWalk_src (s : State) (w : Walk) : (putWalk s w).src = s.src := rfl
@[simp] theorem putWalk_sink (s : State) (w : Walk) : (putWalk s w).sink = s.sink := rfl
@[simp] theorem putWalk_pending (s : State) (w : Walk) : (putWalk s w).pending = s.pending := rfl
@[simp] theorem putWalk_names (s : State) (w : Walk) : (putWalk s w).names = s.names := rfl
@[simp] theorem putWalk_resp (s : State) (w : Walk) : (putWalk s w).resp = s.resp := rfl

/-! `markCodes` -/

@[simp] theorem markCodes_symcnt (s : State) : (markCodes s).symcnt = s.symcnt := rfl
@[simp] theorem markCodes_symlim (s : State) : (markCodes s).symlim = s.symlim := rfl
@[simp] theorem markCodes_nsyms (s : State) : (markCodes s).nsyms = s.nsyms := rfl
@[simp] theorem markCodes_nnodes (s : State) : (markCodes s).nnodes = s.nnodes := rfl
@[simp] theorem markCodes_root (s : State) : (markCodes s).root = s.root := rfl
@[simp] theorem markCodes_ebuf (s : State) : (markCodes s).ebuf = s.ebuf := rfl
@[simp] theorem markCodes_ecnt (s : State) : (markCodes s).ecnt = s.ecnt := rfl
@[simp] theorem markCodes_dcur (s : State) : (markCodes s).dcur = s.dcur := rfl
@[simp] theorem markCodes_fault (s : State) : (markCodes s).fault = s.fault := rfl
@[simp] theorem markCodes_treeValid (s : State) : (markCodes s).treeValid = s.treeValid := rfl
@[simp] theorem markCodes_codesValid (s : State) : (markCodes s).codesValid = true := rfl
@[simp] theorem markCodes_trunc (s : State) : (markCodes s).trunc = s.trunc := rfl
@[simp] theorem markCodes_cause (s : State) : (markCodes s).cause = s.cause := rfl
@[simp] theorem markCodes_finfo (s : State) : (markCodes s).finfo = s.finfo := rfl
@[simp] theorem markCodes_cnt (s : State) : (markCodes s).cnt = s.cnt := rfl
@[simp] theorem markCodes_node (s : State) : (markCodes s).node = s.node := rfl
@[simp] theorem markCodes_wgt (s : State) : (markCodes s).wgt = s.wgt := rfl
@[simp] theorem markCodes_code (s : State) : (markCodes s).code = s.code := rfl
@[simp] theorem markCodes_pq (s : State) : (markCodes s).pq = s.pq := rfl
@[simp] theorem markCodes_dsh (s : State) : (markCodes s).dsh = s.dsh := rfl
@[simp] theorem markCodes_dcnt (s : State) : (markCodes s).dcnt = s.dcnt := rfl
@[simp] theorem markCodes_seq (s : State) : (markCodes s).seq = s.seq := rfl
@[simp] theorem markCodes_sScan (s : State) : (markCodes s).sScan = s.sScan := rfl
@[simp] theorem markCodes_aIdx (s : State) : (markCodes s).aIdx = s.aIdx := rfl
@[simp] theorem markCodes_bIdx (s : State) : (markCodes s).bIdx = s.bIdx := rfl
@[simp] theorem markCodes_kBit (s : State) : (markCodes s).kBit = s.kBit := rfl
@[simp] theorem markCodes_path (s : State) : (markCodes s).path = s.path := rfl
@[simp] theorem markCodes_depth (s : State) : (markCodes s).depth = s.depth := rfl
@[simp] theorem markCodes_stk (s : State) : (markCodes s).stk = s.stk := rfl
@[simp] theorem markCodes_src (s : State) : (markCodes s).src = s.src := rfl
@[simp] theorem markCodes_sink (s : State) : (markCodes s).sink = s.sink := rfl
@[simp] theorem markCodes_pending (s : State) : (markCodes s).pending = s.pending := rfl
@[simp] theorem markCodes_names (s : State) : (markCodes s).names = s.names := rfl
@[simp] theorem markCodes_resp (s : State) : (markCodes s).resp = s.resp := rfl

/-! `putPacker` -/

@[simp] theorem putPacker_symcnt (s : State) (d : Packer × List Byte) : (putPacker s d).symcnt = d.1.symcnt := rfl
@[simp] theorem putPacker_symlim (s : State) (d : Packer × List Byte) : (putPacker s d).symlim = s.symlim := rfl
@[simp] theorem putPacker_nsyms (s : State) (d : Packer × List Byte) : (putPacker s d).nsyms = s.nsyms := rfl
@[simp] theorem putPacker_nnodes (s : State) (d : Packer × List Byte) : (putPacker s d).nnodes = s.nnodes := rfl
@[simp] theorem putPacker_root (s : State) (d : Packer × List Byte) : (putPacker s d).root = s.root := rfl
@[simp] theorem putPacker_ebuf (s : State) (d : Packer × List Byte) : (putPacker s d).ebuf = d.1.ebuf := rfl
@[simp] theorem putPacker_ecnt (s : State) (d : Packer × List Byte) : (putPacker s d).ecnt = d.1.ecnt := rfl
@[simp] theorem putPacker_dcur (s : State) (d : Packer × List Byte) : (putPacker s d).dcur = s.dcur := rfl
@[simp] theorem putPacker_fault (s : State) (d : Packer × List Byte) : (putPacker s d).fault = s.fault := rfl
@[simp] theorem putPacker_treeValid (s : State) (d : Packer × List Byte) : (putPacker s d).treeValid = s.treeValid := rfl
@[simp] theorem putPacker_codesValid (s : State) (d : Packer × List Byte) : (putPacker s d).codesValid = s.codesValid := rfl
@[simp] theorem putPacker_trunc (s : State) (d : Packer × List Byte) : (putPacker s d).trunc = s.trunc := rfl
@[simp] theorem putPacker_cause (s : State) (d : Packer × List Byte) : (putPacker s d).cause = s.cause := rfl
@[simp] theorem putPacker_finfo (s : State) (d : Packer × List Byte) : (putPacker s d).finfo = s.finfo := rfl
@[simp] theorem putPacker_cnt (s : State) (d : Packer × List Byte) : (putPacker s d).cnt = s.cnt := rfl
@[simp] theorem putPacker_node (s : State) (d : Packer × List Byte) : (putPacker s d).node = s.node := rfl
@[simp] theorem putPacker_wgt (s : State) (d : Packer × List Byte) : (putPacker s d).wgt = s.wgt := rfl
@[simp] theorem putPacker_code (s : State) (d : Packer × List Byte) : (putPacker s d).code = s.code := rfl
@[simp] theorem putPacker_pq (s : State) (d : Packer × List Byte) : (putPacker s d).pq = s.pq := rfl
@[simp] theorem putPacker_dsh (s : State) (d : Packer × List Byte) : (putPacker s d).dsh = s.dsh := rfl
@[simp] theorem putPacker_dcnt (s : State) (d : Packer × List Byte) : (putPacker s d).dcnt = s.dcnt := rfl
@[simp] theorem putPacker_seq (s : State) (d : Packer × List Byte) : (putPacker s d).seq = s.seq := rfl
@[simp] theorem putPacker_sScan (s : State) (d : Packer × List Byte) : (putPacker s d).sScan = s.sScan := rfl
@[simp] theorem putPacker_aIdx (s : State) (d : Packer × List Byte) : (putPacker s d).aIdx = s.aIdx := rfl
@[simp] theorem putPacker_bIdx (s : State) (d : Packer × List Byte) : (putPacker s d).bIdx = s.bIdx := rfl
@[simp] theorem putPacker_kBit (s : State) (d : Packer × List Byte) : (putPacker s d).kBit = d.1.kBit := rfl
@[simp] theorem putPacker_path (s : State) (d : Packer × List Byte) : (putPacker s d).path = s.path := rfl
@[simp] theorem putPacker_depth (s : State) (d : Packer × List Byte) : (putPacker s d).depth = s.depth := rfl
@[simp] theorem putPacker_stk (s : State) (d : Packer × List Byte) : (putPacker s d).stk = s.stk := rfl
@[simp] theorem putPacker_src (s : State) (d : Packer × List Byte) : (putPacker s d).src = d.2 := rfl
@[simp] theorem putPacker_sink (s : State) (d : Packer × List Byte) : (putPacker s d).sink = d.1.sink := rfl
@[simp] theorem putPacker_pending (s : State) (d : Packer × List Byte) : (putPacker s d).pending = s.pending := rfl
@[simp] theorem putPacker_names (s : State) (d : Packer × List Byte) : (putPacker s d).names = s.names := rfl
@[simp] theorem putPacker_resp (s : State) (d : Packer × List Byte) : (putPacker s d).resp = s.resp := rfl

/-! `putUnpacker` -/

@[simp] theorem putUnpacker_symcnt (s : State) (d : Unpacker × List Byte) : (putUnpacker s d).symcnt = d.1.symcnt := rfl
@[simp] theorem putUnpacker_symlim (s : State) (d : Unpacker × List Byte) : (putUnpacker s d).symlim = s.symlim := rfl
@[simp] theorem putUnpacker_nsyms (s : State) (d : Unpacker × List Byte) : (putUnpacker s d).nsyms = s.nsyms := rfl
@[simp] theorem putUnpacker_nnodes (s : State) (d : Unpacker × List Byte) : (putUnpacker s d).nnodes = s.nnodes := rfl
@[simp] theorem putUnpacker_root (s : State) (d : Unpacker × List Byte) : (putUnpacker s d).root = s.root := rfl
@[simp] theorem putUnpacker_ebuf (s : State) (d : Unpacker × List Byte) : (putUnpacker s d).ebuf = s.ebuf := rfl
@[simp] theorem putUnpacker_ecnt (s : State) (d : Unpacker × List Byte) : (putUnpacker s d).ecnt = s.ecnt := rfl
@[simp] theorem putUnpacker_dcur (s : State) (d : Unpacker × List Byte) : (putUnpacker s d).dcur = d.1.dcur := rfl
@[simp] theorem putUnpacker_fault (s : State) (d : Unpacker × List Byte) : (putUnpacker s d).fault = s.fault := rfl
@[simp] theorem putUnpacker_treeValid (s : State) (d : Unpacker × List Byte) : (putUnpacker s d).treeValid = s.treeValid := rfl
@[simp] theorem putUnpacker_codesValid (s : State) (d : Unpacker × List Byte) : (putUnpacker s d).codesValid = s.codesValid := rfl
@[simp] theorem putUnpacker_trunc (s : State) (d : Unpacker × List Byte) : (putUnpacker s d).trunc = false := rfl
@[simp] theorem putUnpacker_cause (s : State) (d : Unpacker × List Byte) : (putUnpacker s d).cause = s.cause := rfl
@[simp] theorem putUnpacker_finfo (s : State) (d : Unpacker × List Byte) : (putUnpacker s d).finfo = s.finfo := rfl
@[simp] theorem putUnpacker_cnt (s : State) (d : Unpacker × List Byte) : (putUnpacker s d).cnt = s.cnt := rfl
@[simp] theorem putUnpacker_node (s : State) (d : Unpacker × List Byte) : (putUnpacker s d).node = s.node := rfl
@[simp] theorem putUnpacker_wgt (s : State) (d : Unpacker × List Byte) : (putUnpacker s d).wgt = s.wgt := rfl
@[simp] theorem putUnpacker_code (s : State) (d : Unpacker × List Byte) : (putUnpacker s d).code = s.code := rfl
@[simp] theorem putUnpacker_pq (s : State) (d : Unpacker × List Byte) : (putUnpacker s d).pq = s.pq := rfl
@[simp] theorem putUnpacker_dsh (s : State) (d : Unpacker × List Byte) : (putUnpacker s d).dsh = d.1.dsh := rfl
@[simp] theorem putUnpacker_dcnt (s : State) (d : Unpacker × List Byte) : (putUnpacker s d).dcnt = d.1.dcnt := rfl
@[simp] theorem putUnpacker_seq (s : State) (d : Unpacker × List Byte) : (putUnpacker s d).seq = s.seq := rfl
@[simp] theorem putUnpacker_sScan (s : State) (d : Unpacker × List Byte) : (putUnpacker s d).sScan = s.sScan := rfl
@[simp] theorem putUnpacker_aIdx (s : State) (d : Unpacker × List Byte) : (putUnpacker s d).aIdx = s.aIdx := rfl
@[simp] theorem putUnpacker_bIdx (s : State) (d : Unpacker × List Byte) : (putUnpacker s d).bIdx = s.bIdx := rfl
@[simp] theorem putUnpacker_kBit (s : State) (d : Unpacker × List Byte) : (putUnpacker s d).kBit = s.kBit := rfl
@[simp] theorem putUnpacker_path (s : State) (d : Unpacker × List Byte) : (putUnpacker s d).path = s.path := rfl
@[simp] theorem putUnpacker_depth (s : State) (d : Unpacker × List Byte) : (putUnpacker s d).depth = s.depth := rfl
@[simp] theorem putUnpacker_stk (s : State) (d : Unpacker × List Byte) : (putUnpacker s d).stk = s.stk := rfl
@[simp] theorem putUnpacker_src (s : State) (d : Unpacker × List Byte) : (putUnpacker s d).src = d.2 := rfl
@[simp] theorem putUnpacker_sink (s : State) (d : Unpacker × List Byte) : (putUnpacker s d).sink = d.1.sink := rfl
@[simp] theorem putUnpacker_pending (s : State) (d : Unpacker × List Byte) : (putUnpacker s d).pending = s.pending := rfl
@[simp] theorem putUnpacker_names (s : State) (d : Unpacker × List Byte) : (putUnpacker s d).names = s.names := rfl
@[simp] theorem putUnpacker_resp (s : State) (d : Unpacker × List Byte) : (putUnpacker s d).resp = s.resp := rfl

/-! `markTrunc` -/

@[simp] theorem markTrunc_symcnt (s : State) : (markTrunc s).symcnt = s.symcnt := rfl
@[simp] theorem markTrunc_symlim (s : State) : (markTrunc s).symlim = s.symlim := rfl
@[simp] theorem markTrunc_nsyms (s : State) : (markTrunc s).nsyms = s.nsyms := rfl
@[simp] theorem markTrunc_nnodes (s : State) : (markTrunc s).nnodes = s.nnodes := rfl
@[simp] theorem markTrunc_root (s : State) : (markTrunc s).root = s.root := rfl
@[simp] theorem markTrunc_ebuf (s : State) : (markTrunc s).ebuf = s.ebuf := rfl
@[simp] theorem markTrunc_ecnt (s : State) : (markTrunc s).ecnt = s.ecnt := rfl
@[simp] theorem markTrunc_dcur (s : State) : (markTrunc s).dcur = s.dcur := rfl
@[simp] theorem markTrunc_fault (s : State) : (markTrunc s).fault = s.fault := rfl
@[simp] theorem markTrunc_treeValid (s : State) : (markTrunc s).treeValid = s.treeValid := rfl
@[simp] theorem markTrunc_codesValid (s : State) : (markTrunc s).codesValid = s.codesValid := rfl
@[simp] theorem markTrunc_trunc (s : State) : (markTrunc s).trunc = truncFlag s.dcur s.root := rfl
@[simp] theorem markTrunc_cause (s : State) : (markTrunc s).cause = s.cause := rfl
@[simp] theorem markTrunc_finfo (s : State) : (markTrunc s).finfo = s.finfo := rfl
@[simp] theorem markTrunc_cnt (s : State) : (markTrunc s).cnt = s.cnt := rfl
@[simp] theorem markTrunc_node (s : State) : (markTrunc s).node = s.node := rfl
@[simp] theorem markTrunc_wgt (s : State) : (markTrunc s).wgt = s.wgt := rfl
@[simp] theorem markTrunc_code (s : State) : (markTrunc s).code = s.code := rfl
@[simp] theorem markTrunc_pq (s : State) : (markTrunc s).pq = s.pq := rfl
@[simp] theorem markTrunc_dsh (s : State) : (markTrunc s).dsh = s.dsh := rfl
@[simp] theorem markTrunc_dcnt (s : State) : (markTrunc s).dcnt = s.dcnt := rfl
@[simp] theorem markTrunc_seq (s : State) : (markTrunc s).seq = s.seq := rfl
@[simp] theorem markTrunc_sScan (s : State) : (markTrunc s).sScan = s.sScan := rfl
@[simp] theorem markTrunc_aIdx (s : State) : (markTrunc s).aIdx = s.aIdx := rfl
@[simp] theorem markTrunc_bIdx (s : State) : (markTrunc s).bIdx = s.bIdx := rfl
@[simp] theorem markTrunc_kBit (s : State) : (markTrunc s).kBit = s.kBit := rfl
@[simp] theorem markTrunc_path (s : State) : (markTrunc s).path = s.path := rfl
@[simp] theorem markTrunc_depth (s : State) : (markTrunc s).depth = s.depth := rfl
@[simp] theorem markTrunc_stk (s : State) : (markTrunc s).stk = s.stk := rfl
@[simp] theorem markTrunc_src (s : State) : (markTrunc s).src = s.src := rfl
@[simp] theorem markTrunc_sink (s : State) : (markTrunc s).sink = s.sink := rfl
@[simp] theorem markTrunc_pending (s : State) : (markTrunc s).pending = s.pending := rfl
@[simp] theorem markTrunc_names (s : State) : (markTrunc s).names = s.names := rfl
@[simp] theorem markTrunc_resp (s : State) : (markTrunc s).resp = s.resp := rfl

/-! `queueCommand` -/

@[simp] theorem queueCommand_symcnt (w : Word) (s : State) : (queueCommand w s).symcnt = s.symcnt := rfl
@[simp] theorem queueCommand_symlim (w : Word) (s : State) : (queueCommand w s).symlim = s.symlim := rfl
@[simp] theorem queueCommand_nsyms (w : Word) (s : State) : (queueCommand w s).nsyms = s.nsyms := rfl
@[simp] theorem queueCommand_nnodes (w : Word) (s : State) : (queueCommand w s).nnodes = s.nnodes := rfl
@[simp] theorem queueCommand_root (w : Word) (s : State) : (queueCommand w s).root = s.root := rfl
@[simp] theorem queueCommand_ebuf (w : Word) (s : State) : (queueCommand w s).ebuf = s.ebuf := rfl
@[simp] theorem queueCommand_ecnt (w : Word) (s : State) : (queueCommand w s).ecnt = s.ecnt := rfl
@[simp] theorem queueCommand_dcur (w : Word) (s : State) : (queueCommand w s).dcur = s.dcur := rfl
@[simp] theorem queueCommand_fault (w : Word) (s : State) : (queueCommand w s).fault = s.fault := rfl
@[simp] theorem queueCommand_treeValid (w : Word) (s : State) : (queueCommand w s).treeValid = s.treeValid := rfl
@[simp] theorem queueCommand_codesValid (w : Word) (s : State) : (queueCommand w s).codesValid = s.codesValid := rfl
@[simp] theorem queueCommand_trunc (w : Word) (s : State) : (queueCommand w s).trunc = s.trunc := rfl
@[simp] theorem queueCommand_cause (w : Word) (s : State) : (queueCommand w s).cause = s.cause := rfl
@[simp] theorem queueCommand_finfo (w : Word) (s : State) : (queueCommand w s).finfo = s.finfo := rfl
@[simp] theorem queueCommand_cnt (w : Word) (s : State) : (queueCommand w s).cnt = s.cnt := rfl
@[simp] theorem queueCommand_node (w : Word) (s : State) : (queueCommand w s).node = s.node := rfl
@[simp] theorem queueCommand_wgt (w : Word) (s : State) : (queueCommand w s).wgt = s.wgt := rfl
@[simp] theorem queueCommand_code (w : Word) (s : State) : (queueCommand w s).code = s.code := rfl
@[simp] theorem queueCommand_pq (w : Word) (s : State) : (queueCommand w s).pq = s.pq := rfl
@[simp] theorem queueCommand_dsh (w : Word) (s : State) : (queueCommand w s).dsh = s.dsh := rfl
@[simp] theorem queueCommand_dcnt (w : Word) (s : State) : (queueCommand w s).dcnt = s.dcnt := rfl
@[simp] theorem queueCommand_seq (w : Word) (s : State) : (queueCommand w s).seq = s.seq := rfl
@[simp] theorem queueCommand_sScan (w : Word) (s : State) : (queueCommand w s).sScan = s.sScan := rfl
@[simp] theorem queueCommand_aIdx (w : Word) (s : State) : (queueCommand w s).aIdx = s.aIdx := rfl
@[simp] theorem queueCommand_bIdx (w : Word) (s : State) : (queueCommand w s).bIdx = s.bIdx := rfl
@[simp] theorem queueCommand_kBit (w : Word) (s : State) : (queueCommand w s).kBit = s.kBit := rfl
@[simp] theorem queueCommand_path (w : Word) (s : State) : (queueCommand w s).path = s.path := rfl
@[simp] theorem queueCommand_depth (w : Word) (s : State) : (queueCommand w s).depth = s.depth := rfl
@[simp] theorem queueCommand_stk (w : Word) (s : State) : (queueCommand w s).stk = s.stk := rfl
@[simp] theorem queueCommand_src (w : Word) (s : State) : (queueCommand w s).src = s.src := rfl
@[simp] theorem queueCommand_sink (w : Word) (s : State) : (queueCommand w s).sink = s.sink := rfl
@[simp] theorem queueCommand_pending (w : Word) (s : State) : (queueCommand w s).pending = .memWrite 0x0000 4 w :: s.pending := rfl
@[simp] theorem queueCommand_names (w : Word) (s : State) : (queueCommand w s).names = s.names := rfl
@[simp] theorem queueCommand_resp (w : Word) (s : State) : (queueCommand w s).resp = s.resp := rfl

end Sys2Proof.Machine
end

