-- ==== Sys2Proof/Laws/Tables.lean ====
section
/-! SUPPORT. The laws of the tables: a read after a write, and that a write leaves every other entry alone; the fields of
node words and code entries. -/

namespace Sys2Proof.Machine

theorem symGet_symSet {α : Type} (t : Vector α 256) (s s' : Byte) (v : α) :
    symGet (symSet t s v) s' = if s = s' then v else symGet t s' := by
  simp only [symGet, symSet, Vector.getElem_set, BitVec.toNat_inj]

@[simp] theorem symGet_symSet_self {α : Type} (t : Vector α 256) (s : Byte) (v : α) :
    symGet (symSet t s v) s = v := by simp [symGet_symSet]

theorem symGet_symSet_of_ne {α : Type} (t : Vector α 256) {s s' : Byte} (v : α) (h : s ≠ s') :
    symGet (symSet t s v) s' = symGet t s' := by simp [symGet_symSet, h]

@[simp] theorem symGet_replicate {α : Type} (v : α) (s : Byte) : symGet (Vector.replicate 256 v) s = v := by
  simp [symGet]

/-- Two tables with the same entries are the same table. -/
theorem symGet_ext {α : Type} {t u : Vector α 256} (h : ∀ s, symGet t s = symGet u s) : t = u := by
  apply Vector.ext
  intro i hi
  simpa [symGet, BitVec.toNat_ofNat, Nat.mod_eq_of_lt hi] using h (BitVec.ofNat 8 i)

@[simp] theorem symGet_clearedCounts (s : Byte) : symGet clearedCounts s = 0 := symGet_replicate _ _

@[simp] theorem symGet_clearedCodes (s : Byte) : symGet clearedCodes s = .absent := symGet_replicate _ _

theorem nodeGet_of_lt (t : Vector Word 511) {i : Idx} (h : i.toNat < 511) : nodeGet t i = t[i.toNat] := by
  simp [nodeGet, h]

theorem wgtGet_of_lt (t : Vector Word 511) {i : Idx} (h : i.toNat < 511) : wgtGet t i = t[i.toNat] := by
  simp [wgtGet, h]

theorem nodeGet_arenaSet (t : Vector Word 511) {i : Idx} (h : i.toNat < 511) (j : Idx) (v : Word) :
    nodeGet (arenaSet t i v) j = if i = j then v else nodeGet t j := by
  by_cases hj : j.toNat < 511
  · simp only [nodeGet, arenaSet, h, hj, dif_pos, Vector.getElem_set, BitVec.toNat_inj]
  · have : i ≠ j := fun e => hj (e ▸ h)
    simp [nodeGet, hj, this]

theorem wgtGet_arenaSet (t : Vector Word 511) {i : Idx} (h : i.toNat < 511) (j : Idx) (v : Word) :
    wgtGet (arenaSet t i v) j = if i = j then v else wgtGet t j := by
  by_cases hj : j.toNat < 511
  · simp only [wgtGet, arenaSet, h, hj, dif_pos, Vector.getElem_set, BitVec.toNat_inj]
  · have : i ≠ j := fun e => hj (e ▸ h)
    simp [wgtGet, hj, this]

/-! Node words (10_state.md R41). -/

theorem toNat_parentWord (z o : Idx) : (parentWord z o).toNat = 2 ^ 31 + o.toNat * 2 ^ 16 + z.toNat := by
  have hz := z.isLt
  have ho := o.isLt
  simp only [parentWord, BitVec.toNat_ofNat]
  omega

@[simp] theorem isParent_parentWord (z o : Idx) : isParent (parentWord z o) = true := by
  have hz := z.isLt
  have ho := o.isLt
  rw [isParent, ← BitVec.testBit_toNat, toNat_parentWord, Nat.testBit_eq_decide_div_mod_eq]
  simp only [decide_eq_true_eq]
  omega

@[simp] theorem zeroChild_parentWord (z o : Idx) : zeroChild (parentWord z o) = z := by
  have hz := z.isLt
  have ho := o.isLt
  apply BitVec.eq_of_toNat_eq
  simp only [zeroChild, BitVec.extractLsb'_toNat, toNat_parentWord, Nat.shiftRight_zero]
  omega

@[simp] theorem oneChild_parentWord (z o : Idx) : oneChild (parentWord z o) = o := by
  have hz := z.isLt
  have ho := o.isLt
  apply BitVec.eq_of_toNat_eq
  simp only [oneChild, BitVec.extractLsb'_toNat, toNat_parentWord, Nat.shiftRight_eq_div_pow]
  omega

@[simp] theorem isParent_leafWord (s : Byte) : isParent (leafWord s) = false := by
  simp [isParent, leafWord, zext32]

@[simp] theorem leafSym_leafWord (s : Byte) : leafSym (leafWord s) = s := by
  apply BitVec.eq_of_toNat_eq
  have := s.isLt
  simp only [leafSym, leafWord, zext32, BitVec.extractLsb'_toNat, BitVec.toNat_setWidth, Nat.shiftRight_zero]
  omega

@[simp] theorem childBy_parentWord (b : Bool) (z o : Idx) : childBy b (parentWord z o) = if b then o else z := by
  cases b <;> simp [childBy]

/-! Single bits. -/

theorem getLsbD_writeBit {n : Nat} (v : BitVec n) (i : Nat) (b : Bool) (k : Nat) :
    (writeBit v i b).getLsbD k = if k = i ∧ i < n then b else v.getLsbD k := by
  cases b
  · by_cases hk : k = i
    · subst hk
      by_cases hn : k < n <;> simp [writeBit, hn, BitVec.getLsbD_of_ge, Nat.le_of_not_lt]
    · by_cases hn : k < n
      · simp [writeBit, hk, hn]
      · simp [writeBit, hk, hn, BitVec.getLsbD_of_ge, Nat.le_of_not_lt]
  · by_cases hk : k = i
    · subst hk
      by_cases hn : k < n <;> simp [writeBit, hn, BitVec.getLsbD_of_ge, Nat.le_of_not_lt]
    · simp [writeBit, hk, BitVec.getLsbD_twoPow, Ne.symm hk]

/-! Code entries (10_state.md R44). -/

@[simp] theorem CodeEntry.absent_len : CodeEntry.absent.len = 0 := rfl

@[simp] theorem CodeEntry.absent_bits : CodeEntry.absent.bits = 0 := rfl

@[simp] theorem CodeEntry.ofPath_bits (d : Nat) (p : PathBits) : (CodeEntry.ofPath d p).bits = p := rfl

theorem CodeEntry.ofPath_len {d : Nat} (p : PathBits) (h : d ≤ 255) : (CodeEntry.ofPath d p).len.toNat = d := by
  simp only [CodeEntry.ofPath, BitVec.toNat_ofNat]
  omega

@[simp] theorem CodeEntry.length_string (c : CodeEntry) : c.string.length = c.len.toNat := by simp [CodeEntry.string]

end Sys2Proof.Machine
end

