-- ==== Sys2Proof/Laws/Ops.lean ====
section
/-! SUPPORT. What each shared operation can do, said once: the guards, the sink, and the ends of a command. -/

namespace Sys2Proof.Machine

/-! Guards -/

theorem unlessFaulted_live {s : State} (h : s.fault = false) (b : Host.Outcome State Fault Refusal) :
    unlessFaulted s b = b := by simp [unlessFaulted, h]

theorem unlessFaulted_faulted {s : State} (h : s.fault = true) (b : Host.Outcome State Fault Refusal) :
    unlessFaulted s b = .next (refuse s) := by simp [unlessFaulted, h]

/-- A guarded command answers next t only by refusing or by running its body. -/
theorem unlessFaulted_next {s t : State} {b : Host.Outcome State Fault Refusal} (h : unlessFaulted s b = .next t) :
    (s.fault = true ∧ t = refuse s) ∨ (s.fault = false ∧ b = .next t) := by
  cases hf : s.fault with
  | true => exact .inl ⟨rfl, by simpa [unlessFaulted, hf] using h.symm⟩
  | false => exact .inr ⟨rfl, by simpa [unlessFaulted, hf] using h⟩

theorem requiring_ok {s : State} {i : Instr} (h : s.required i = true) (b : Host.Outcome State Fault Refusal) :
    requiring i s b = b := by simp [requiring, h]

theorem requiring_fail {s : State} {i : Instr} (h : s.required i = false) (b : Host.Outcome State Fault Refusal) :
    requiring i s b = .next (raise .sequenceError (encode i) s) := by simp [requiring, h]

/-- A command with a precondition answers next t only by raising SequenceError or by running its body. -/
theorem requiring_next {s t : State} {i : Instr} {b : Host.Outcome State Fault Refusal}
    (h : requiring i s b = .next t) :
    (s.required i = false ∧ t = raise .sequenceError (encode i) s) ∨ (s.required i = true ∧ b = .next t) := by
  cases hr : s.required i with
  | false => exact .inl ⟨rfl, by simpa [requiring, hr] using h.symm⟩
  | true => exact .inr ⟨rfl, by simpa [requiring, hr] using h⟩

@[simp] theorem finish_done {σ : Type} (d : σ) (put : σ → State) : finish (.done d) put = .next (complete (put d)) := rfl

@[simp] theorem finish_raised {σ : Type} (c : Cause) (v : Word) (d : σ) (put : σ → State) :
    finish (.raised c v d) put = .next (raise c v (put d)) := rfl

/-- A command ends in a next state, either completed or faulted. -/
theorem finish_next {σ : Type} {r : Run σ} {put : σ → State} {t : State} (h : finish r put = .next t) :
    (∃ d, r = .done d ∧ t = complete (put d)) ∨ ∃ c v d, r = .raised c v d ∧ t = raise c v (put d) := by
  cases r with
  | done d => exact .inl ⟨d, rfl, by simpa using h.symm⟩
  | raised c v d => exact .inr ⟨c, v, d, rfl, by simpa using h.symm⟩

/-! The sink -/

/-- A write is answered OK and appends the byte, or ERR and appends nothing (20_memory.md R74). -/
theorem snkWrite_cases (b : Byte) (k : Sink) :
    (∃ k', snkWrite b k = (.ok, k') ∧ k'.out = k.out ++ [b]) ∨ ∃ k', snkWrite b k = (.err, k') ∧ k'.out = k.out := by
  unfold snkWrite Sink.answer
  cases k.answers with
  | nil => cases Config.sinkAnswer k.draws <;> simp
  | cons a as => cases a <;> simp

@[simp] theorem Sink.past_zero (k : Sink) : k.past 0 = k := by simp [Sink.past]

@[simp] theorem Sink.past_out (k : Sink) (n : Nat) : (k.past n).out = k.out := rfl

theorem Sink.past_past (k : Sink) (m n : Nat) : (k.past m).past n = k.past (m + n) := by
  simp only [Sink.past, List.drop_drop, List.length_drop, Sink.mk.injEq, true_and]
  omega

theorem Sink.nth_past (k : Sink) (m n : Nat) : (k.past m).nth n = k.nth (m + n) := by
  simp only [Sink.nth, Sink.past, List.getElem?_drop, List.length_drop]
  rw [show k.draws + (m - k.answers.length) + (n - (k.answers.length - m)) = k.draws + (m + n - k.answers.length) by
    omega]

@[simp] theorem Sink.after_nil (k : Sink) : k.after [] = k := by simp [Sink.after]

@[simp] theorem Sink.after_out (k : Sink) (bs : List Byte) : (k.after bs).out = k.out ++ bs := rfl

theorem Sink.after_after (k : Sink) (as bs : List Byte) : (k.after as).after bs = k.after (as ++ bs) := by
  simp only [Sink.after, Sink.past, List.drop_drop, List.length_drop, List.length_append, List.append_assoc, Sink.mk.injEq,
    true_and]
  omega

theorem Sink.past_after (k : Sink) (bs : List Byte) (n : Nat) :
    (k.after bs).past n = { k.past (bs.length + n) with out := k.out ++ bs } := by
  simp only [Sink.after, Sink.past, List.drop_drop, List.length_drop, Sink.mk.injEq, true_and]
  omega

theorem Sink.nth_after (k : Sink) (bs : List Byte) (n : Nat) : (k.after bs).nth n = k.nth (bs.length + n) :=
  Sink.nth_past k bs.length n

@[simp] theorem Sink.accepts_zero (k : Sink) : k.accepts 0 := fun _ h => absurd h (by omega)

theorem Sink.accepts_mono {k : Sink} {m n : Nat} (h : k.accepts n) (hm : m ≤ n) : k.accepts m :=
  fun j hj => h j (by omega)

theorem Sink.accepts_after {k : Sink} {m n : Nat} {bs : List Byte} (h : k.accepts n) (hl : bs.length + m ≤ n) :
    (k.after bs).accepts m := fun j hj => by rw [Sink.nth_after]; exact h _ (by omega)

/-- Either the next n writes are accepted, or one of them is the first that is not. -/
theorem Sink.accepts_or (k : Sink) (n : Nat) : k.accepts n ∨ ∃ m < n, k.accepts m ∧ k.nth m = .err := by
  induction n with
  | zero => exact .inl (Sink.accepts_zero k)
  | succ n ih =>
    rcases ih with h | ⟨m, hm, h⟩
    · cases hn : k.nth n with
      | ok => exact .inl fun j hj => (Nat.lt_succ_iff_lt_or_eq.1 hj).elim (h j) fun e => e ▸ hn
      | err => exact .inr ⟨n, Nat.lt_succ_self n, h, hn⟩
    · exact .inr ⟨m, by omega, h⟩

/-- The next answer, and what is left of the sink. -/
theorem Sink.answer_eq (k : Sink) : k.answer = (k.nth 0, k.past 1) := by
  cases k with
  | mk out answers draws => cases answers <;> simp [Sink.answer, Sink.nth, Sink.past]

/-- A write answered OK. -/
theorem snkWrite_ok {k : Sink} (h : k.nth 0 = .ok) (b : Byte) : snkWrite b k = (.ok, k.after [b]) := by
  simp only [snkWrite, Sink.answer_eq, h]; rfl

/-- A write answered ERR. -/
theorem snkWrite_err {k : Sink} (h : k.nth 0 = .err) (b : Byte) : snkWrite b k = (.err, k.past 1) := by
  simp only [snkWrite, Sink.answer_eq, h]

/-- A write the sink is known to accept. -/
theorem snkWrite_of_accepts {k : Sink} {n : Nat} (h : k.accepts (n + 1)) (b : Byte) :
    snkWrite b k = (.ok, k.after [b]) := snkWrite_ok (h 0 (by omega)) b

end Sys2Proof.Machine
end

