-- ==== Sys2Proof/Laws/Count.lean ====
section
/-! SUPPORT. What the loop of COUNT does (40_count.md R120 to R123), and the sum of the counts. -/

namespace Sys2Proof.Machine

/-! All symbols -/

@[simp] theorem mem_allSymbols (s : Byte) : s ∈ allSymbols := by
  simp only [allSymbols, List.mem_map, List.mem_range]
  exact ⟨s.toNat, s.isLt, by simp⟩

theorem nodup_allSymbols : allSymbols.Nodup := by
  refine List.Nodup.map_on ?_ List.nodup_range
  intro a ha b hb h
  simp only [List.mem_range] at ha hb
  have := congrArg BitVec.toNat h
  simpa [BitVec.toNat_ofNat, Nat.mod_eq_of_lt ha, Nat.mod_eq_of_lt hb] using this

/-- Each byte of a sequence is one of the 256 symbols: the numbers of occurrences add up to the length. -/
theorem sum_count_eq_length (xs : List Byte) : (allSymbols.map fun s => xs.count s).sum = xs.length := by
  induction xs with
  | nil => simp
  | cons x xs ih =>
    have h1 : (allSymbols.map fun s => (x :: xs).count s)
        = allSymbols.map fun s => xs.count s + if x = s then 1 else 0 := by
      apply List.map_congr_left
      intro s _
      simp [List.count_cons]
    have h2 : (allSymbols.map fun s => if x = s then 1 else 0).sum = allSymbols.count x := by
      generalize allSymbols = l
      induction l with
      | nil => rfl
      | cons y l ihl =>
        simp only [List.map_cons, List.sum_cons, List.count_cons, ihl, beq_iff_eq]
        by_cases h : x = y
        · subst h; simp; omega
        · simp [h, Ne.symm h]
    rw [h1, List.sum_map_add, ih, h2, List.count_eq_one_of_mem nodup_allSymbols (mem_allSymbols x)]
    simp

/-! The loop -/

/-- All bytes tallied, one after the other. -/
def tallyAll (xs : List Byte) (t : Tally) : Tally := xs.foldl (fun t r => tallyByte r t) t

@[simp] theorem tallyAll_nil (t : Tally) : tallyAll [] t = t := rfl

@[simp] theorem tallyAll_cons (r : Byte) (xs : List Byte) (t : Tally) :
    tallyAll (r :: xs) t = tallyAll xs (tallyByte r t) := rfl

theorem tallyAll_symcnt (xs : List Byte) (t : Tally) :
    (tallyAll xs t).symcnt = t.symcnt + BitVec.ofNat 32 xs.length := by
  induction xs generalizing t with
  | nil => simp
  | cons r xs ih =>
    rw [tallyAll_cons, ih, List.length_cons, Nat.add_comm xs.length 1, BitVec.ofNat_add, ← BitVec.add_assoc]
    rfl

theorem tallyAll_cnt (xs : List Byte) (t : Tally) (s : Byte) :
    symGet (tallyAll xs t).cnt s = symGet t.cnt s + BitVec.ofNat 32 (xs.count s) := by
  induction xs generalizing t with
  | nil => simp
  | cons r xs ih =>
    rw [tallyAll_cons, ih]
    by_cases h : r = s
    · subst h
      rw [List.count_cons_self, Nat.add_comm (xs.count r) 1, BitVec.ofNat_add, ← BitVec.add_assoc]
      simp [tallyByte]
    · rw [List.count_cons_of_ne h]
      simp [tallyByte, symGet_symSet_of_ne _ _ h]

/-- A sequence that fits is tallied whole. -/
theorem countLoop_fits (xs : List Byte) (t : Tally) (h : t.symcnt.toNat + xs.length < 2 ^ 32) :
    countLoop xs t = .done (tallyAll xs t, []) := by
  induction xs generalizing t with
  | nil => rfl
  | cons r xs ih =>
    simp only [List.length_cons] at h
    have hne : t.symcnt ≠ Config.maxCount := by
      intro e; rw [e] at h; simp at h; omega
    have hs : (tallyByte r t).symcnt.toNat = t.symcnt.toNat + 1 := by
      simp only [tallyByte, BitVec.toNat_add]
      simp; omega
    simp only [countLoop, hne, if_false, tallyAll_cons]
    exact ih _ (by omega)

/-- The byte read while SYMCNT = 2^32-1 is taken and raises CountOverflow. -/
theorem countLoop_overflow (pre : List Byte) (r : Byte) (rest : List Byte) (t : Tally)
    (h : t.symcnt.toNat + pre.length = 2 ^ 32 - 1) :
    countLoop (pre ++ r :: rest) t = .raised .countOverflow (zext32 r) (tallyAll pre t, rest) := by
  induction pre generalizing t with
  | nil =>
    have : t.symcnt = Config.maxCount := by
      apply BitVec.eq_of_toNat_eq
      simpa using h
    simp [countLoop, this]
  | cons x pre ih =>
    simp only [List.length_cons] at h
    have hne : t.symcnt ≠ Config.maxCount := by
      intro e; rw [e] at h; simp at h
    have hs : (tallyByte x t).symcnt.toNat = t.symcnt.toNat + 1 := by
      simp only [tallyByte, BitVec.toNat_add]
      simp; omega
    simp only [List.cons_append, countLoop, hne, if_false, tallyAll_cons]
    exact ih _ (by omega)

/-- Counts that are numbers of occurrences add up to the length (10_state.md R40). -/
theorem countTotal_eq_length {cnt : Vector Word 256} {xs : List Byte} (h : ∀ s, (symGet cnt s).toNat = xs.count s) :
    countTotal cnt = xs.length := by
  rw [← sum_count_eq_length xs]
  simp only [countTotal, h]

/-- The counts of a sequence that fits, from a cleared table. -/
theorem tallyStart_cnt {xs : List Byte} (h : xs.length < 2 ^ 32) (s : Byte) :
    (symGet (tallyAll xs tallyStart).cnt s).toNat = xs.count s := by
  have := List.count_le_length (a := s) (l := xs)
  rw [tallyAll_cnt]
  simp only [tallyStart, symGet_clearedCounts, BitVec.ofNat_eq_ofNat, BitVec.zero_add, BitVec.toNat_ofNat]
  omega

end Sys2Proof.Machine
end

