-- ==== Sys2Proof/Laws/Queue.lean ====
section
/-! SUPPORT. The order of the priority queue and `popmin` (41_build.md R133). -/

namespace Sys2Proof.Machine

variable (w : Vector Word 511)

theorem before_iff (i j : Idx) : before w i j = true ↔
    (wgtGet w i).toNat < (wgtGet w j).toNat ∨
      ((wgtGet w i).toNat = (wgtGet w j).toNat ∧ i.toNat < j.toNat) := by
  simp [before, BitVec.lt_def, BitVec.toNat_inj]

theorem before_irrefl (i : Idx) : before w i i = false := by
  rw [← Bool.not_eq_true, before_iff]; omega

theorem before_trans {i j l : Idx} (h : before w i j = true) (h' : before w j l = true) : before w i l = true := by
  rw [before_iff] at *; omega

theorem before_asymm {i j : Idx} (h : before w i j = true) : before w j i = false := by
  rw [← Bool.not_eq_true]; rw [before_iff] at *; omega

/-- The order is total on distinct indices. -/
theorem before_total {i j : Idx} (h : i ≠ j) : before w i j = true ∨ before w j i = true := by
  have : i.toNat ≠ j.toNat := fun e => h (BitVec.eq_of_toNat_eq e)
  simp only [before_iff]; omega

/-- A node before another weighs no more. -/
theorem before_le {i j : Idx} (h : before w i j = true) : (wgtGet w i).toNat ≤ (wgtGet w j).toNat := by
  rw [before_iff] at h; omega

theorem leastOf_spec (i : Idx) (l : List Idx) :
    leastOf w i l ∈ i :: l ∧ ∀ j ∈ i :: l, j ≠ leastOf w i l → before w (leastOf w i l) j = true := by
  induction l generalizing i with
  | nil => simp [leastOf]
  | cons x l ih =>
    have hstep : leastOf w i (x :: l) = leastOf w (if before w x i then x else i) l := rfl
    rw [hstep]
    obtain ⟨hm, hb⟩ := ih (if before w x i then x else i)
    generalize hq : leastOf w (if before w x i then x else i) l = m at hm hb
    cases hx : before w x i with
    | true =>
      simp only [hx, if_true] at hm hb
      refine ⟨by simp only [List.mem_cons] at hm ⊢; tauto, fun j hj hne => ?_⟩
      rcases List.mem_cons.1 hj with rfl | hj
      · by_cases hxm : x = m
        · exact hxm ▸ hx
        · exact before_trans w (hb x List.mem_cons_self hxm) hx
      · exact hb j hj hne
    | false =>
      simp only [hx, Bool.false_eq_true, if_false] at hm hb
      refine ⟨by simp only [List.mem_cons] at hm ⊢; tauto, fun j hj hne => ?_⟩
      rcases List.mem_cons.1 hj with rfl | hj
      · exact hb j List.mem_cons_self hne
      · rcases List.mem_cons.1 hj with rfl | hj
        · by_cases hji : j = i
          · subst hji; exact hb j List.mem_cons_self hne
          · have hij : before w i j = true := by
              rcases before_total w hji with h | h
              · rw [hx] at h; exact absurd h (by decide)
              · exact h
            by_cases him : i = m
            · exact him ▸ hij
            · exact before_trans w (hb i List.mem_cons_self him) hij
        · exact hb j (List.mem_cons_of_mem _ hj) hne

/-- `popmin` removes and returns "the element before all others". -/
theorem popmin_spec {pq : List Idx} (h : pq ≠ []) :
    ∃ m, popmin w pq = some (m, pq.erase m) ∧ m ∈ pq ∧ ∀ j ∈ pq, j ≠ m → before w m j = true := by
  cases pq with
  | nil => exact absurd rfl h
  | cons i l => exact ⟨_, rfl, (leastOf_spec w i l).1, (leastOf_spec w i l).2⟩

end Sys2Proof.Machine
end

