-- ==== Sys2Proof/Laws/Seed.lean ====
section
/-! SUPPORT. What the seeding of BUILD does (41_build.md R132): the leaves at 0 to k-1 in ascending symbol order. -/

namespace Sys2Proof.Machine

/-- The symbols with a nonzero count, in ascending order. -/
def seeds (cnt : Vector Word 256) : List Byte := allSymbols.filter fun s => decide (0#32 < symGet cnt s)

theorem mem_seeds {cnt : Vector Word 256} {s : Byte} : s ∈ seeds cnt ↔ 0#32 < symGet cnt s := by simp [seeds]

theorem length_seeds (cnt : Vector Word 256) : (seeds cnt).length = alphabetSize cnt := by
  simp [seeds, alphabetSize, List.countP_eq_length_filter]

theorem alphabetSize_le (cnt : Vector Word 256) : alphabetSize cnt ≤ 256 := by
  have := List.countP_le_length (p := fun s => decide (0#32 < symGet cnt s)) (l := allSymbols)
  simpa [alphabetSize, allSymbols] using this

theorem allSymbols_ascending : allSymbols.Pairwise (· < ·) := by
  rw [allSymbols, List.pairwise_map]
  refine List.Pairwise.imp_of_mem ?_ List.pairwise_lt_range
  intro a b ha hb h
  simp only [List.mem_range] at ha hb
  simp only [BitVec.lt_def, BitVec.toNat_ofNat]
  omega

theorem seeds_ascending (cnt : Vector Word 256) : (seeds cnt).Pairwise (· < ·) := allSymbols_ascending.filter _

/-- One leaf seeded. -/
def insertLeaf (cnt : Vector Word 256) (b : Builder) (s : Byte) : Builder := b.insert (leafWord s) (symGet cnt s)

theorem seedAll_eq (cnt : Vector Word 256) (b : Builder) : seedAll cnt b = (seeds cnt).foldl (insertLeaf cnt) b := by
  rw [seedAll, seeds]
  generalize allSymbols = l
  induction l generalizing b with
  | nil => rfl
  | cons s l ih =>
    by_cases h : 0#32 < symGet cnt s
    · simp [h, seedSymbol, insertLeaf, ih]
    · simp [h, seedSymbol, ih]

/-- What seeding a list of symbols does to a builder with room for them. -/
structure Seeded (cnt : Vector Word 256) (l : List Byte) (b b' : Builder) : Prop where
  nnodes : b'.nnodes.toNat = b.nnodes.toNat + l.length
  pq : b'.pq = b.pq ++ (List.range l.length).map fun i => BitVec.ofNat 9 (b.nnodes.toNat + i)
  leaf : ∀ i (h : i < l.length), nodeGet b'.node (BitVec.ofNat 9 (b.nnodes.toNat + i)) = leafWord l[i] ∧
    wgtGet b'.wgt (BitVec.ofNat 9 (b.nnodes.toNat + i)) = symGet cnt l[i]
  rest : ∀ j : Idx, j.toNat < b.nnodes.toNat ∨ b.nnodes.toNat + l.length ≤ j.toNat →
    nodeGet b'.node j = nodeGet b.node j ∧ wgtGet b'.wgt j = wgtGet b.wgt j
  aIdx : b'.aIdx = b.aIdx
  bIdx : b'.bIdx = b.bIdx

theorem foldl_insertLeaf (cnt : Vector Word 256) (l : List Byte) (b : Builder)
    (h : b.nnodes.toNat + l.length ≤ 511) : Seeded cnt l b (l.foldl (insertLeaf cnt) b) := by
  induction l generalizing b with
  | nil => exact ⟨rfl, by simp, by simp, fun _ _ => ⟨rfl, rfl⟩, rfl, rfl⟩
  | cons s l ih =>
    simp only [List.length_cons] at h
    have hlt : b.nnodes.toNat < 511 := by omega
    have hn : (insertLeaf cnt b s).nnodes.toNat = b.nnodes.toNat + 1 := by
      simp only [insertLeaf, Builder.insert, BitVec.toNat_add]
      simp; omega
    obtain ⟨i1, i2, i3, i4, i5, i6⟩ := ih (insertLeaf cnt b s) (by omega)
    simp only [hn] at i1 i2 i3 i4
    have hone : ∀ j : Idx, j ≠ b.nnodes → nodeGet (insertLeaf cnt b s).node j = nodeGet b.node j ∧
        wgtGet (insertLeaf cnt b s).wgt j = wgtGet b.wgt j := by
      intro j hj
      simp [insertLeaf, Builder.insert, nodeGet_arenaSet _ hlt, wgtGet_arenaSet _ hlt, Ne.symm hj]
    have hself : nodeGet (insertLeaf cnt b s).node b.nnodes = leafWord s ∧
        wgtGet (insertLeaf cnt b s).wgt b.nnodes = symGet cnt s := by
      simp [insertLeaf, Builder.insert, nodeGet_arenaSet _ hlt, wgtGet_arenaSet _ hlt]
    refine ⟨by simp only [List.foldl_cons, List.length_cons, i1]; omega, ?_, ?_, ?_, i5, i6⟩
    · rw [List.foldl_cons, i2, List.length_cons, List.range_succ_eq_map, List.map_cons, List.map_map]
      have : (insertLeaf cnt b s).pq = b.pq ++ [b.nnodes] := rfl
      rw [this, List.append_assoc]
      simp only [List.singleton_append, Nat.add_zero, BitVec.ofNat_toNat, BitVec.setWidth_eq]
      congr 2
      apply List.map_congr_left
      intro i _
      simp [Nat.add_assoc, Nat.add_comm 1 i]
    · intro i hi
      cases i with
      | zero =>
        have h0 : (BitVec.ofNat 9 (b.nnodes.toNat + 0) : Idx) = b.nnodes := by simp
        rw [h0]
        obtain ⟨r1, r2⟩ := i4 b.nnodes (by omega)
        rw [List.foldl_cons, r1, r2]
        exact hself
      | succ i =>
        have := i3 i (by simpa using hi)
        rw [show b.nnodes.toNat + (i + 1) = b.nnodes.toNat + 1 + i by omega]
        simpa using this
    · intro j hj
      obtain ⟨r1, r2⟩ := i4 j (by simp only [List.length_cons] at hj; omega)
      obtain ⟨q1, q2⟩ := hone j (by
        intro e; rw [e] at hj; simp only [List.length_cons] at hj; omega)
      exact ⟨r1.trans q1, r2.trans q2⟩

/-- BUILD's seeding, from `TB_CLEAR`. -/
theorem seedAll_seeded (s : State) : Seeded s.cnt (seeds s.cnt) (buildStart s) (seedAll s.cnt (buildStart s)) := by
  rw [seedAll_eq]
  apply foldl_insertLeaf
  have := alphabetSize_le s.cnt
  rw [← length_seeds] at this
  simp only [buildStart]
  simp; omega

end Sys2Proof.Machine
end

