-- ==== Sys2Proof/Laws/Merge.lean ====
section
/-! SUPPORT. What the merges of BUILD do (41_build.md R135, R136, R139, R141, R143): an invariant of the builder that every
merge keeps. -/

namespace Sys2Proof.Machine

/-- Node i is a parent built so far, k leaves having been seeded. -/
def Builder.inner (k : Nat) (b : Builder) (i : Idx) : Prop := k ≤ i.toNat ∧ i < b.nnodes

/-- Node j is a child of node i. -/
def Builder.childOf (b : Builder) (j i : Idx) : Prop :=
  zeroChild (nodeGet b.node i) = j ∨ oneChild (nodeGet b.node i) = j

/-- Node i is Parent(z, o), made when z was before every other node of the queue, and o before every other but z. -/
structure MergedAt (k : Nat) (b : Builder) (i z o : Idx) : Prop where
  word : nodeGet b.node i = parentWord z o
  zlt : z < i
  olt : o < i
  ne : z ≠ o
  wgt : wgtGet b.wgt i = wgtGet b.wgt z + wgtGet b.wgt o
  zfirst : ∀ j < i, (¬ ∃ i' < i, k ≤ i'.toNat ∧ b.childOf j i') → j ≠ z → before b.wgt z j = true
  ofirst : ∀ j < i, (¬ ∃ i' < i, k ≤ i'.toNat ∧ b.childOf j i') → j ≠ z → j ≠ o → before b.wgt o j = true

/-- The invariant of the merging loop. -/
structure Merging (k : Nat) (b : Builder) : Prop where
  two : k ≤ 256
  lo : k ≤ b.nnodes.toNat
  len : b.pq.length + b.nnodes.toNat = 2 * k
  pos : 1 ≤ b.pq.length
  sorted : b.pq.Pairwise (· < ·)
  lt : ∀ j ∈ b.pq, j < b.nnodes
  queued : ∀ j < b.nnodes, j ∈ b.pq ↔ ¬ ∃ i, b.inner k i ∧ b.childOf j i
  merged : ∀ i, b.inner k i → ∃ z o, MergedAt k b i z o
  unique : ∀ j i i', b.inner k i → b.inner k i' → b.childOf j i → b.childOf j i' → i = i'

theorem Merging.nodup {k : Nat} {b : Builder} (h : Merging k b) : b.pq.Nodup :=
  h.sorted.imp (fun h => BitVec.ne_of_lt h)

/-- What one merge does. -/
structure MergeStep (b b' : Builder) (z o : Idx) : Prop where
  zmem : z ∈ b.pq
  omem : o ∈ b.pq
  ne : o ≠ z
  zfirst : ∀ j ∈ b.pq, j ≠ z → before b.wgt z j = true
  ofirst : ∀ j ∈ b.pq, j ≠ z → j ≠ o → before b.wgt o j = true
  eq : b' = ({ b with pq := (b.pq.erase z).erase o, aIdx := z, bIdx := o } : Builder).insert (parentWord z o)
    (wgtGet b.wgt z + wgtGet b.wgt o)

theorem mergeOnce_step {b : Builder} (hn : b.pq.Nodup) (hl : 1 < b.pq.length) :
    ∃ z o, MergeStep b (mergeOnce b) z o := by
  obtain ⟨z, hz, hzm, hzf⟩ := popmin_spec b.wgt (pq := b.pq) (by intro e; simp [e] at hl)
  have hlen : (b.pq.erase z).length = b.pq.length - 1 := List.length_erase_of_mem hzm
  obtain ⟨o, ho, hom, hof⟩ := popmin_spec b.wgt (pq := b.pq.erase z) (by intro e; simp [e] at hlen; omega)
  rw [hn.mem_erase_iff] at hom
  refine ⟨z, o, hzm, hom.2, hom.1, hzf, fun j hj hjz hjo => hof j (hn.mem_erase_iff.2 ⟨hjz, hj⟩) hjo, ?_⟩
  simp [mergeOnce, hz, ho]

variable {k : Nat} {b : Builder}

theorem Merging.nnodes_lt (h : Merging k b) (hl : 1 < b.pq.length) : b.nnodes.toNat < 511 := by
  have := h.len; have := h.two; omega

theorem mergeOnce_nnodes {b' : Builder} {z o : Idx} (hlt : b.nnodes.toNat < 511) (h : MergeStep b b' z o) :
    b'.nnodes.toNat = b.nnodes.toNat + 1 := by
  rw [h.eq]
  simp only [Builder.insert, BitVec.toNat_add]
  simp; omega

theorem MergeStep.node_eq {b' : Builder} {z o : Idx} (hlt : b.nnodes.toNat < 511) (h : MergeStep b b' z o) (j : Idx) :
    nodeGet b'.node j = if b.nnodes = j then parentWord z o else nodeGet b.node j := by
  rw [h.eq]; exact nodeGet_arenaSet _ hlt j _

theorem MergeStep.wgt_eq {b' : Builder} {z o : Idx} (hlt : b.nnodes.toNat < 511) (h : MergeStep b b' z o) (j : Idx) :
    wgtGet b'.wgt j = if b.nnodes = j then wgtGet b.wgt z + wgtGet b.wgt o else wgtGet b.wgt j := by
  rw [h.eq]; exact wgtGet_arenaSet _ hlt j _

theorem MergeStep.pq_eq {b' : Builder} {z o : Idx} (h : MergeStep b b' z o) :
    b'.pq = (b.pq.erase z).erase o ++ [b.nnodes] := by rw [h.eq]; rfl

/-- Every merge keeps the invariant and makes the queue one shorter. -/
theorem Merging.mergeOnce (h : Merging k b) (hl : 1 < b.pq.length) : Merging k (mergeOnce b) := by
  obtain ⟨z, o, hm⟩ := mergeOnce_step h.nodup hl
  have hlt := h.nnodes_lt hl
  have hn := mergeOnce_nnodes hlt hm
  have hnode := hm.node_eq hlt
  have hwgt := hm.wgt_eq hlt
  have hpq := hm.pq_eq
  generalize Sys2Proof.Machine.mergeOnce b = b' at *
  have hnd := h.nodup
  have hz := h.lt z hm.zmem
  have ho := h.lt o hm.omem
  have oldn : ∀ j : Idx, j < b.nnodes → nodeGet b'.node j = nodeGet b.node j := fun j hj => by
    rw [hnode, if_neg (BitVec.ne_of_lt hj).symm]
  have oldw : ∀ j : Idx, j < b.nnodes → wgtGet b'.wgt j = wgtGet b.wgt j := fun j hj => by
    rw [hwgt, if_neg (BitVec.ne_of_lt hj).symm]
  have oldb : ∀ i j : Idx, i < b.nnodes → j < b.nnodes → before b'.wgt i j = before b.wgt i j := fun i j hi hj => by
    simp only [before, oldw i hi, oldw j hj]
  have oldc : ∀ j i : Idx, i < b.nnodes → (b'.childOf j i ↔ b.childOf j i) := fun j i hi => by
    simp only [Builder.childOf, oldn i hi]
  have newc : ∀ j : Idx, b'.childOf j b.nnodes ↔ j = z ∨ j = o := fun j => by
    simp only [Builder.childOf, hnode, if_pos, zeroChild_parentWord, oneChild_parentWord]
    constructor <;> (rintro (h | h) <;> simp [h])
  have split : ∀ i : Idx, i < b'.nnodes ↔ i < b.nnodes ∨ i = b.nnodes := fun i => by
    simp only [BitVec.lt_def, hn, ← BitVec.toNat_inj]; omega
  have memq : ∀ j, j ∈ b'.pq ↔ (j ∈ b.pq ∧ j ≠ z ∧ j ≠ o) ∨ j = b.nnodes := fun j => by
    rw [hpq, List.mem_append, List.mem_singleton, (hnd.erase z).mem_erase_iff, hnd.mem_erase_iff]; tauto
  have children_lt : ∀ i j, b.inner k i → b.childOf j i → j < i := fun i j hi hc => by
    obtain ⟨z', o', hmi⟩ := h.merged i hi
    rcases hc with hc | hc
    · rw [hmi.word, zeroChild_parentWord] at hc; exact hc ▸ hmi.zlt
    · rw [hmi.word, oneChild_parentWord] at hc; exact hc ▸ hmi.olt
  have hklo : k ≤ b.nnodes.toNat := h.lo
  have hlen : b'.pq.length + 1 = b.pq.length := by
    have e1 := List.length_erase_of_mem hm.zmem
    have e2 : ((b.pq.erase z).erase o).length = (b.pq.erase z).length - 1 :=
      List.length_erase_of_mem (hnd.mem_erase_iff.2 ⟨hm.ne, hm.omem⟩)
    rw [hpq, List.length_append, List.length_singleton]; omega
  refine ⟨h.two, by omega, by have := h.len; omega, by omega, ?_, ?_, ?_, ?_, ?_⟩
  · rw [hpq, List.pairwise_append]
    refine ⟨((h.sorted.erase z).erase o), by simp, fun x hx y hy => ?_⟩
    rw [List.mem_singleton] at hy
    exact hy ▸ h.lt x (List.mem_of_mem_erase (List.mem_of_mem_erase hx))
  · intro j hj
    rw [split]
    rcases (memq j).1 hj with hj | hj
    · exact .inl (h.lt j hj.1)
    · exact .inr hj
  · intro j hj
    rw [memq]
    rcases (split j).1 hj with hj | rfl
    · have hjn : j ≠ b.nnodes := BitVec.ne_of_lt hj
      constructor
      · rintro (⟨hq, hjz, hjo⟩ | e)
        · rintro ⟨i, ⟨hki, hi⟩, hc⟩
          rcases (split i).1 hi with hi | rfl
          · exact (h.queued j hj).1 hq ⟨i, ⟨hki, hi⟩, (oldc j i hi).1 hc⟩
          · rcases (newc j).1 hc with e | e
            · exact hjz e
            · exact hjo e
        · exact absurd e hjn
      · intro hno
        refine .inl ⟨(h.queued j hj).2 ?_, ?_, ?_⟩
        · rintro ⟨i, ⟨hki, hi⟩, hc⟩
          exact hno ⟨i, ⟨hki, (split i).2 (.inl hi)⟩, (oldc j i hi).2 hc⟩
        · intro e
          exact hno ⟨b.nnodes, ⟨hklo, (split _).2 (.inr rfl)⟩, (newc j).2 (.inl e)⟩
        · intro e
          exact hno ⟨b.nnodes, ⟨hklo, (split _).2 (.inr rfl)⟩, (newc j).2 (.inr e)⟩
    · constructor
      · rintro - ⟨i, ⟨hki, hi⟩, hc⟩
        rcases (split i).1 hi with hi | rfl
        · have := children_lt i _ ⟨hki, hi⟩ ((oldc _ i hi).1 hc)
          simp only [BitVec.lt_def] at this hi; omega
        · rcases (newc _).1 hc with e | e
          · exact BitVec.ne_of_lt hz e.symm
          · exact BitVec.ne_of_lt ho e.symm
      · exact fun _ => .inr rfl
  · rintro i ⟨hki, hi⟩
    rcases (split i).1 hi with hi | rfl
    · obtain ⟨z', o', hmi⟩ := h.merged i ⟨hki, hi⟩
      have hzi : z' < b.nnodes := BitVec.lt_trans hmi.zlt hi
      have hoi : o' < b.nnodes := BitVec.lt_trans hmi.olt hi
      have nochild : ∀ j < i, (¬ ∃ i' < i, k ≤ i'.toNat ∧ b'.childOf j i') → ¬ ∃ i' < i, k ≤ i'.toNat ∧ b.childOf j i' := by
        rintro j - hno ⟨i', hi', hk', hc⟩
        exact hno ⟨i', hi', hk', (oldc j i' (BitVec.lt_trans hi' hi)).2 hc⟩
      refine ⟨z', o', (oldn i hi).trans hmi.word, hmi.zlt, hmi.olt, hmi.ne, ?_, ?_, ?_⟩
      · rw [oldw i hi, oldw z' hzi, oldw o' hoi]; exact hmi.wgt
      · intro j hj hno hjz
        rw [oldb z' j hzi (BitVec.lt_trans hj hi)]
        exact hmi.zfirst j hj (nochild j hj hno) hjz
      · intro j hj hno hjz hjo
        rw [oldb o' j hoi (BitVec.lt_trans hj hi)]
        exact hmi.ofirst j hj (nochild j hj hno) hjz hjo
    · have queued' : ∀ j < b.nnodes, (¬ ∃ i' < b.nnodes, k ≤ i'.toNat ∧ b'.childOf j i') → j ∈ b.pq := by
        intro j hj hno
        refine (h.queued j hj).2 ?_
        rintro ⟨i, ⟨hk', hi'⟩, hc⟩
        exact hno ⟨i, hi', hk', (oldc j i hi').2 hc⟩
      refine ⟨z, o, by rw [hnode, if_pos rfl], hz, ho, Ne.symm hm.ne, ?_, ?_, ?_⟩
      · rw [hwgt b.nnodes, if_pos rfl, oldw z hz, oldw o ho]
      · intro j hj hno hjz
        rw [oldb z j hz hj]
        exact hm.zfirst j (queued' j hj hno) hjz
      · intro j hj hno hjz hjo
        rw [oldb o j ho hj]
        exact hm.ofirst j (queued' j hj hno) hjz hjo
  · rintro j i i' ⟨hki, hi⟩ ⟨hki', hi'⟩ hc hc'
    have gone : ∀ i : Idx, k ≤ i.toNat → i < b.nnodes → b.childOf j i → ¬ (j = z ∨ j = o) := by
      intro i hki hi hc hzo
      have hj : j ∈ b.pq := by rcases hzo with e | e <;> rw [e]; exacts [hm.zmem, hm.omem]
      exact (h.queued j (h.lt j hj)).1 hj ⟨i, ⟨hki, hi⟩, hc⟩
    rcases (split i).1 hi with hi | rfl <;> rcases (split i').1 hi' with hi' | rfl
    · exact h.unique j i i' ⟨hki, hi⟩ ⟨hki', hi'⟩ ((oldc j i hi).1 hc) ((oldc j i' hi').1 hc')
    · exact absurd ((newc j).1 hc') (gone i hki hi ((oldc j i hi).1 hc))
    · exact absurd ((newc j).1 hc) (gone i' hki' hi' ((oldc j i' hi').1 hc'))
    · rfl

theorem mergeOnce_length (h : Merging k b) (hl : 1 < b.pq.length) :
    (mergeOnce b).pq.length + 1 = b.pq.length := by
  obtain ⟨z, o, hm⟩ := mergeOnce_step h.nodup hl
  have h1 := (h.mergeOnce hl).len
  have h2 := mergeOnce_nnodes (h.nnodes_lt hl) hm
  have h3 := h.len
  omega

/-- A relation every merge keeps holds between the builder and what the loop makes of it. -/
theorem mergeLoop_induct {P : Builder → Prop} (step : ∀ b, Merging k b → 1 < b.pq.length → P b → P (mergeOnce b))
    (n : Nat) (h : Merging k b) (hp : P b) : Merging k (mergeLoop n b) ∧ P (mergeLoop n b) := by
  induction n generalizing b with
  | zero => exact ⟨h, hp⟩
  | succ n ih =>
    by_cases hl : 1 < b.pq.length
    · simp only [mergeLoop, hl, if_true]
      exact ih (h.mergeOnce hl) (step b h hl hp)
    · simp only [mergeLoop, hl, if_false]
      exact ⟨h, hp⟩

/-- |PQ| times is enough: the loop ends with one node left (R136). -/
theorem mergeLoop_length (n : Nat) (h : Merging k b) (hn : b.pq.length ≤ n + 1) : (mergeLoop n b).pq.length = 1 := by
  induction n generalizing b with
  | zero => have := h.pos; simp only [mergeLoop]; omega
  | succ n ih =>
    by_cases hl : 1 < b.pq.length
    · simp only [mergeLoop, hl, if_true]
      exact ih (h.mergeOnce hl) (by have := mergeOnce_length h hl; omega)
    · simp only [mergeLoop, hl, if_false]
      have := h.pos; omega

/-- The entries below the first parent and at and above NNODES are those the loop started from (10_state.md R43 (f)). -/
def SameOutside (b0 b : Builder) : Prop :=
  b0.nnodes ≤ b.nnodes ∧ ∀ j : Idx, j < b0.nnodes ∨ b.nnodes ≤ j →
    nodeGet b.node j = nodeGet b0.node j ∧ wgtGet b.wgt j = wgtGet b0.wgt j

theorem SameOutside.refl (b : Builder) : SameOutside b b := ⟨BitVec.le_refl _, fun _ _ => ⟨rfl, rfl⟩⟩

theorem SameOutside.mergeOnce {b0 : Builder} (h : Merging k b) (hl : 1 < b.pq.length) (hs : SameOutside b0 b) :
    SameOutside b0 (mergeOnce b) := by
  obtain ⟨z, o, hm⟩ := mergeOnce_step h.nodup hl
  have hlt := h.nnodes_lt hl
  have hn := mergeOnce_nnodes hlt hm
  have hle := hs.1
  simp only [BitVec.le_def] at hle
  refine ⟨by simp only [BitVec.le_def, hn]; omega, fun j hj => ?_⟩
  have hjn : b.nnodes ≠ j := by
    intro e
    simp only [BitVec.lt_def, BitVec.le_def, hn, ← e] at hj
    omega
  obtain ⟨q1, q2⟩ := hs.2 j (by simp only [BitVec.lt_def, BitVec.le_def, hn] at hj ⊢; omega)
  rw [hm.node_eq hlt, hm.wgt_eq hlt, if_neg hjn, if_neg hjn]
  exact ⟨q1, q2⟩

/-- The weights of the queue, added up exactly, and the parents' weights as exact sums (R139). -/
def Exact (k total : Nat) (b : Builder) : Prop :=
  (b.pq.map fun i => (wgtGet b.wgt i).toNat).sum = total ∧
    ∀ i, b.inner k i → (wgtGet b.wgt i).toNat =
      (wgtGet b.wgt (zeroChild (nodeGet b.node i))).toNat + (wgtGet b.wgt (oneChild (nodeGet b.node i))).toNat

theorem Exact.mergeOnce {total : Nat} (ht : total < 2 ^ 32) (h : Merging k b) (hl : 1 < b.pq.length)
    (he : Exact k total b) : Exact k total (mergeOnce b) := by
  obtain ⟨z, o, hm⟩ := mergeOnce_step h.nodup hl
  have hlt := h.nnodes_lt hl
  have hn := mergeOnce_nnodes hlt hm
  have hnode := hm.node_eq hlt
  have hwgt := hm.wgt_eq hlt
  have hpq := hm.pq_eq
  generalize Sys2Proof.Machine.mergeOnce b = b' at *
  have hz := h.lt z hm.zmem
  have ho := h.lt o hm.omem
  have oldw : ∀ j : Idx, j < b.nnodes → wgtGet b'.wgt j = wgtGet b.wgt j := fun j hj => by
    rw [hwgt, if_neg (BitVec.ne_of_lt hj).symm]
  have hsum1 := (List.perm_cons_erase hm.zmem).map (fun i => (wgtGet b.wgt i).toNat)
  have hsum2 := (List.perm_cons_erase (h.nodup.mem_erase_iff.2 ⟨hm.ne, hm.omem⟩)).map (fun i => (wgtGet b.wgt i).toNat)
  have hs1 := hsum1.sum_eq
  have hs2 := hsum2.sum_eq
  simp only [List.map_cons, List.sum_cons] at hs1 hs2
  have hrest : (((b.pq.erase z).erase o).map fun i => (wgtGet b'.wgt i).toNat)
      = ((b.pq.erase z).erase o).map fun i => (wgtGet b.wgt i).toNat := by
    apply List.map_congr_left
    intro j hj
    rw [oldw j (h.lt j (List.mem_of_mem_erase (List.mem_of_mem_erase hj)))]
  have hself : (wgtGet b'.wgt b.nnodes).toNat = (wgtGet b.wgt z).toNat + (wgtGet b.wgt o).toNat := by
    rw [hwgt, if_pos rfl, BitVec.toNat_add]
    have := he.1
    omega
  refine ⟨?_, ?_⟩
  · rw [hpq, List.map_append, List.sum_append, hrest, List.map_singleton, List.sum_singleton, hself]
    have := he.1
    omega
  · rintro i ⟨hki, hi⟩
    have split : i < b.nnodes ∨ i = b.nnodes := by
      simp only [BitVec.lt_def, hn, ← BitVec.toNat_inj] at hi ⊢; omega
    rcases split with hi | rfl
    · obtain ⟨z', o', hmi⟩ := h.merged i ⟨hki, hi⟩
      have hw := he.2 i ⟨hki, hi⟩
      rw [hmi.word, zeroChild_parentWord, oneChild_parentWord] at hw
      rw [hnode, if_neg (BitVec.ne_of_lt hi).symm, hmi.word, zeroChild_parentWord, oneChild_parentWord,
        oldw i hi, oldw z' (BitVec.lt_trans hmi.zlt hi), oldw o' (BitVec.lt_trans hmi.olt hi)]
      exact hw
    · rw [hself, hnode, if_pos rfl, zeroChild_parentWord, oneChild_parentWord, oldw z hz, oldw o ho]

end Sys2Proof.Machine
end

