-- ==== Sys2Proof/Laws/Build.lean ====
section
/-! SUPPORT. What BUILD leaves (41_build.md R130 to R144; 10_state.md R43). -/

namespace Sys2Proof.Machine

/-- The builder after the seeding. -/
def seeded (s : State) : Builder := seedAll s.cnt (buildStart s)

/-- The builder after the last merge. -/
def merged (s : State) : Builder := mergeLoop (seeded s).pq.length (seeded s)

/-- The state a successful BUILD completes. -/
def built (s : State) : State := markRoot (putBuilder s (seeded s).nnodes (merged s))

theorem seeded_nnodes (s : State) : (seeded s).nnodes.toNat = alphabetSize s.cnt := by
  have h := (seedAll_seeded s).nnodes
  rw [length_seeds] at h
  simpa [seeded, buildStart] using h

theorem seeded_pq (s : State) : (seeded s).pq = (List.range (alphabetSize s.cnt)).map (BitVec.ofNat 9) := by
  have h := (seedAll_seeded s).pq
  rw [length_seeds] at h
  simpa [seeded, buildStart] using h

theorem seeded_leaf (s : State) {i : Nat} (h : i < (seeds s.cnt).length) :
    nodeGet (seeded s).node (BitVec.ofNat 9 i) = leafWord (seeds s.cnt)[i] ∧
      wgtGet (seeded s).wgt (BitVec.ofNat 9 i) = symGet s.cnt (seeds s.cnt)[i] := by
  simpa [seeded, buildStart] using (seedAll_seeded s).leaf i h

theorem seeded_rest (s : State) {j : Idx} (h : alphabetSize s.cnt ≤ j.toNat) :
    nodeGet (seeded s).node j = nodeGet s.node j ∧ wgtGet (seeded s).wgt j = wgtGet s.wgt j := by
  rw [← length_seeds] at h
  simpa [seeded, buildStart] using (seedAll_seeded s).rest j (.inr (by simpa [buildStart] using h))

theorem buildBody_fails {s : State} (h : alphabetSize s.cnt < 2) :
    buildBody s = .next (raise .configurationError (zext32 (seeded s).nnodes)
      (putBuilder s (seeded s).nnodes (seeded s))) := by
  have : (seedAll s.cnt (buildStart s)).nnodes.toNat < Config.minSyms := by
    have := seeded_nnodes s
    unfold seeded at this
    simp only [Config.minSyms]
    omega
  simp only [buildBody, this, if_true, seeded]

theorem buildBody_completes {s : State} (h : 2 ≤ alphabetSize s.cnt) : buildBody s = .next (complete (built s)) := by
  have : ¬ (seedAll s.cnt (buildStart s)).nnodes.toNat < Config.minSyms := by
    have := seeded_nnodes s
    unfold seeded at this
    simp only [Config.minSyms]
    omega
  simp only [buildBody, this, if_false, built, merged, seeded]

theorem seeded_merging {s : State} (h : 1 ≤ alphabetSize s.cnt) : Merging (alphabetSize s.cnt) (seeded s) := by
  have hk := alphabetSize_le s.cnt
  have hn := seeded_nnodes s
  have hq := seeded_pq s
  have noinner : ∀ i, ¬ (seeded s).inner (alphabetSize s.cnt) i := by
    rintro i ⟨h1, h2⟩
    simp only [BitVec.lt_def] at h2; omega
  refine ⟨hk, by omega, by rw [hq]; simp; omega, by rw [hq]; simpa using h, ?_, ?_, ?_,
    fun i hi => absurd hi (noinner i), fun j i i' hi => absurd hi (noinner i)⟩
  · rw [hq, List.pairwise_map]
    refine List.Pairwise.imp_of_mem ?_ List.pairwise_lt_range
    intro a b ha hb hab
    simp only [List.mem_range] at ha hb
    simp only [BitVec.lt_def, BitVec.toNat_ofNat]; omega
  · intro j hj
    rw [hq] at hj
    obtain ⟨i, hi, rfl⟩ := List.mem_map.1 hj
    simp only [List.mem_range] at hi
    simp only [BitVec.lt_def, BitVec.toNat_ofNat]; omega
  · intro j hj
    refine ⟨fun _ ⟨i, hi, _⟩ => noinner i hi, fun _ => ?_⟩
    rw [hq]
    simp only [BitVec.lt_def] at hj
    exact List.mem_map.2 ⟨j.toNat, by simp only [List.mem_range]; omega, by simp⟩

variable {s : State}

theorem merged_merging (h : 1 ≤ alphabetSize s.cnt) : Merging (alphabetSize s.cnt) (merged s) :=
  (mergeLoop_induct (P := fun _ => True) (fun _ _ _ _ => trivial) _ (seeded_merging h) trivial).1

theorem merged_same (h : 1 ≤ alphabetSize s.cnt) : SameOutside (seeded s) (merged s) :=
  (mergeLoop_induct (fun _ hb hl hs => hs.mergeOnce hb hl) _ (seeded_merging h) (SameOutside.refl _)).2

theorem merged_length (h : 1 ≤ alphabetSize s.cnt) : (merged s).pq.length = 1 :=
  mergeLoop_length _ (seeded_merging h) (Nat.le_succ _)

theorem merged_nnodes (h : 1 ≤ alphabetSize s.cnt) : (merged s).nnodes.toNat = 2 * alphabetSize s.cnt - 1 := by
  have := (merged_merging h).len
  have := merged_length h
  omega

/-- A leaf entry of the finished arena. -/
theorem merged_leaf (h : 1 ≤ alphabetSize s.cnt) {i : Nat} (hi : i < (seeds s.cnt).length) :
    nodeGet (merged s).node (BitVec.ofNat 9 i) = leafWord (seeds s.cnt)[i] ∧
      wgtGet (merged s).wgt (BitVec.ofNat 9 i) = symGet s.cnt (seeds s.cnt)[i] := by
  have hk := alphabetSize_le s.cnt
  obtain ⟨q1, q2⟩ := (merged_same h).2 (BitVec.ofNat 9 i) (.inl (by
    rw [length_seeds] at hi
    simp only [BitVec.lt_def, seeded_nnodes, BitVec.toNat_ofNat]; omega))
  rw [q1, q2]
  exact seeded_leaf s hi

/-- The entries at and above NNODES are what they were (10_state.md R43 (f)). -/
theorem merged_rest (h : 1 ≤ alphabetSize s.cnt) {j : Idx} (hj : (merged s).nnodes ≤ j) :
    nodeGet (merged s).node j = nodeGet s.node j ∧ wgtGet (merged s).wgt j = wgtGet s.wgt j := by
  obtain ⟨q1, q2⟩ := (merged_same h).2 j (.inr hj)
  have hn := merged_nnodes h
  obtain ⟨p1, p2⟩ := seeded_rest s (j := j) (by simp only [BitVec.le_def, hn] at hj; omega)
  exact ⟨q1.trans p1, q2.trans p2⟩

/-- The one node left in the queue is the last one made (R137). -/
theorem merged_pq (h : 1 ≤ alphabetSize s.cnt) : (merged s).pq = [(merged s).nnodes - 1#9] := by
  have hk := alphabetSize_le s.cnt
  have hm := merged_merging h
  have hn := merged_nnodes h
  have hr : ((merged s).nnodes - 1#9).toNat = 2 * alphabetSize s.cnt - 2 := by
    simp only [BitVec.toNat_sub]
    simp; omega
  obtain ⟨r, hq⟩ := List.length_eq_one_iff.1 (merged_length h)
  have : (merged s).nnodes - 1#9 ∈ (merged s).pq := by
    refine (hm.queued _ (by simp only [BitVec.lt_def, hr, hn]; omega)).2 ?_
    rintro ⟨i, hi, hc⟩
    obtain ⟨z, o, hmi⟩ := hm.merged i hi
    have hlt : (merged s).nnodes - 1#9 < i := by
      rcases hc with hc | hc
      · rw [hmi.word, zeroChild_parentWord] at hc; exact hc ▸ hmi.zlt
      · rw [hmi.word, oneChild_parentWord] at hc; exact hc ▸ hmi.olt
    have := hi.2
    simp only [BitVec.lt_def, hr, hn] at this hlt
    omega
  rw [hq, List.mem_singleton] at this
  rw [hq, this]

theorem built_nsyms : (built s).nsyms.toNat = alphabetSize s.cnt := seeded_nnodes s

theorem built_nnodes (h : 1 ≤ alphabetSize s.cnt) : (built s).nnodes.toNat = 2 * alphabetSize s.cnt - 1 :=
  merged_nnodes h

theorem built_root_eq (h : 1 ≤ alphabetSize s.cnt) : (built s).root = (merged s).nnodes - 1#9 := by
  simp [built, merged_pq h]

theorem built_root (h : 1 ≤ alphabetSize s.cnt) : (built s).root.toNat = 2 * alphabetSize s.cnt - 2 := by
  have hk := alphabetSize_le s.cnt
  have hn := merged_nnodes h
  rw [built_root_eq h, BitVec.toNat_sub]
  simp; omega

theorem built_pq (h : 1 ≤ alphabetSize s.cnt) : (built s).pq = [(built s).root] := by
  rw [built_root_eq h]; exact merged_pq h

/-- The leaf at an index below NSYMS (R132). -/
theorem built_leaf (h : 1 ≤ alphabetSize s.cnt) {i : Idx} (hi : i < (built s).nsyms) :
    ∃ hl : i.toNat < (seeds s.cnt).length, nodeGet (built s).node i = leafWord (seeds s.cnt)[i.toNat] ∧
      wgtGet (built s).wgt i = symGet s.cnt (seeds s.cnt)[i.toNat] := by
  have hlt : i.toNat < (seeds s.cnt).length := by
    rw [BitVec.lt_def, built_nsyms] at hi
    rw [length_seeds]; exact hi
  refine ⟨hlt, ?_⟩
  have := merged_leaf h hlt
  rw [show (BitVec.ofNat 9 i.toNat : Idx) = i by simp] at this
  exact this

/-- The leaves are exactly the counted symbols (R43 (b)). -/
theorem built_symbol (h : 1 ≤ alphabetSize s.cnt) {x : Byte} : 0#32 < symGet s.cnt x ↔
    ∃ i < (built s).nsyms, nodeGet (built s).node i = leafWord x := by
  have hk := alphabetSize_le s.cnt
  rw [← mem_seeds]
  constructor
  · intro hx
    obtain ⟨i, hi, rfl⟩ := List.getElem_of_mem hx
    have hi2 := hi
    rw [length_seeds] at hi2
    have e : (BitVec.ofNat 9 i : Idx).toNat = i := by simp only [BitVec.toNat_ofNat]; omega
    refine ⟨BitVec.ofNat 9 i, by rw [BitVec.lt_def, built_nsyms, e]; exact hi2, (merged_leaf h hi).1⟩
  · rintro ⟨i, hi, hw⟩
    obtain ⟨hl, h2, -⟩ := built_leaf h hi
    have := congrArg leafSym (h2.symm.trans hw)
    rw [leafSym_leafWord, leafSym_leafWord] at this
    exact this ▸ List.getElem_mem hl

/-- A leaf's weight is its symbol's count (R43 (b)). -/
theorem built_leaf_weight (h : 1 ≤ alphabetSize s.cnt) {i : Idx} (hi : i < (built s).nsyms) :
    wgtGet (built s).wgt i = symGet s.cnt (leafSym (nodeGet (built s).node i)) := by
  obtain ⟨hl, h2, h3⟩ := built_leaf h hi
  rw [h3, h2, leafSym_leafWord]

/-! Weights -/

theorem sum_seeds (cnt : Vector Word 256) : ((seeds cnt).map fun s => (symGet cnt s).toNat).sum = countTotal cnt := by
  rw [seeds, countTotal]
  generalize allSymbols = l
  induction l with
  | nil => rfl
  | cons x l ih =>
    by_cases h : 0#32 < symGet cnt x
    · simp only [List.filter_cons, h, decide_true, if_true, List.map_cons, List.sum_cons, ih]
    · have h0 : (symGet cnt x).toNat = 0 := by simp only [BitVec.lt_def, BitVec.toNat_ofNat] at h; omega
      simp only [List.filter_cons, h, decide_false, Bool.false_eq_true, if_false, List.map_cons, List.sum_cons, ih, h0]
      omega

theorem seeded_exact (s : State) : Exact (alphabetSize s.cnt) (countTotal s.cnt) (seeded s) := by
  have hn := seeded_nnodes s
  refine ⟨?_, ?_⟩
  · rw [seeded_pq, List.map_map, ← sum_seeds, ← length_seeds]
    congr 1
    apply List.ext_getElem
    · simp
    · intro i h1 h2
      simp only [List.length_map, List.length_range] at h1
      simp [(seeded_leaf s h1).2]
  · rintro i ⟨h1, h2⟩
    simp only [BitVec.lt_def] at h2; omega

theorem merged_exact (h : 1 ≤ alphabetSize s.cnt) (ht : countTotal s.cnt < 2 ^ 32) :
    Exact (alphabetSize s.cnt) (countTotal s.cnt) (merged s) :=
  (mergeLoop_induct (fun _ hb hl he => he.mergeOnce ht hb hl) _ (seeded_merging h) (seeded_exact s)).2

/-- The root's weight is the sum of all counts (10_state.md R43 (e)). -/
theorem built_root_weight (h : 1 ≤ alphabetSize s.cnt) (ht : countTotal s.cnt < 2 ^ 32) :
    (wgtGet (built s).wgt (built s).root).toNat = countTotal s.cnt := by
  have := (merged_exact h ht).1
  rw [merged_pq h, ← built_root_eq h, List.map_singleton, List.sum_singleton] at this
  exact this

/-- BUILD leaves a tree (10_state.md R43 (a) to (d)). -/
theorem built_treeOk (h : 2 ≤ alphabetSize s.cnt) (ht : countTotal s.cnt < 2 ^ 32) : TreeOk (built s) := by
  have hk := alphabetSize_le s.cnt
  have h1 : 1 ≤ alphabetSize s.cnt := by omega
  have hm := merged_merging h1
  have he := merged_exact h1 ht
  have hns : (built s).nsyms.toNat = alphabetSize s.cnt := built_nsyms
  have hnn := built_nnodes h1
  have hr := built_root h1
  have inner_iff : ∀ i, (built s).isInner i ↔ (merged s).inner (alphabetSize s.cnt) i := by
    intro i
    simp only [State.isInner, Builder.inner, BitVec.le_def, hns]
    rfl
  have leaf := fun i => built_leaf (s := s) h1 (i := i)
  refine ⟨⟨by omega, by omega, by omega, by omega⟩, ?_, ?_, ?_, ?_⟩
  · intro i hi
    obtain ⟨hlt, q1, q2⟩ := leaf i hi
    exact ⟨⟨_, q1⟩, by rw [q2]; exact mem_seeds.1 (List.getElem_mem hlt)⟩
  · intro i j hij hj
    obtain ⟨hi', q1, -⟩ := leaf i (BitVec.lt_trans hij hj)
    obtain ⟨hj', r1, -⟩ := leaf j hj
    rw [q1, r1, leafSym_leafWord, leafSym_leafWord]
    exact (List.pairwise_iff_getElem.1 (seeds_ascending s.cnt)) _ _ hi' hj' hij
  · intro i hi
    have hi' := (inner_iff i).1 hi
    obtain ⟨z, o, hmi⟩ := hm.merged i hi'
    have hw := he.2 i hi'
    rw [hmi.word, zeroChild_parentWord, oneChild_parentWord] at hw
    exact ⟨z, o, hmi.word, hmi.zlt, hmi.olt, hmi.ne, hw⟩
  · intro j hj
    have hjn : j < (merged s).nnodes := by
      have hnn' := merged_nnodes h1
      simp only [BitVec.lt_def, hr, hnn'] at hj ⊢; omega
    have hjq : ¬ j ∈ (merged s).pq := by
      rw [merged_pq h1, List.mem_singleton, ← built_root_eq h1]
      exact BitVec.ne_of_lt hj
    rw [hm.queued j hjn, not_not] at hjq
    obtain ⟨i, hi, hc⟩ := hjq
    exact ⟨i, ⟨(inner_iff i).2 hi, hc⟩, fun i' hi' => hm.unique j i' i ((inner_iff i').1 hi'.1) hi hi'.2 hc⟩

end Sys2Proof.Machine
end

