-- ==== Sys2Proof/Laws/Tree.lean ====
section
/-! SUPPORT. Walks in the tree of a state whose tree invariants hold (10_state.md R43, R45; 42_gencode.md R161). -/

namespace Sys2Proof.Machine

/-! Walks in any arena -/

theorem leadsTo_append (node : Vector Word 511) (i j : Idx) (as bs : List Bool) :
    leadsTo node i (as ++ bs) j ↔ ∃ q, leadsTo node i as q ∧ leadsTo node q bs j := by
  induction as generalizing i with
  | nil => simp [leadsTo]
  | cons a as ih => simp [leadsTo, ih, and_assoc]

theorem leadsTo_snoc (node : Vector Word 511) (i j : Idx) (bs : List Bool) (b : Bool) :
    leadsTo node i (bs ++ [b]) j ↔
      ∃ q, leadsTo node i bs q ∧ isParent (nodeGet node q) = true ∧ childBy b (nodeGet node q) = j := by
  simp [leadsTo_append, leadsTo]

/-- A walk is a function of its bits. -/
theorem leadsTo_det {node : Vector Word 511} {i j j' : Idx} {bs : List Bool} (h : leadsTo node i bs j)
    (h' : leadsTo node i bs j') : j = j' := by
  induction bs generalizing i with
  | nil => exact h.symm.trans h'
  | cons b bs ih => exact ih h.2 h'.2

/-- The tree invariants speak of the arena, NSYMS, NNODES and ROOT only. -/
theorem TreeOk.transfer {s t : State} (h : TreeOk s) (hn : t.node = s.node) (hw : t.wgt = s.wgt) (hs : t.nsyms = s.nsyms)
    (hc : t.nnodes = s.nnodes) (hr : t.root = s.root) : TreeOk t := by
  constructor
  · rw [hs, hc, hr]; exact h.size
  · rw [hn, hw, hs]; exact h.leaves
  · rw [hn, hs]; exact h.ascending
  · simp only [State.isInner, hn, hw, hs, hc]; exact h.parents
  · simp only [State.isInner, State.childOf, hn, hs, hc, hr]; exact h.oneParent

/-- The code-table invariants speak of CODE, the arena, NSYMS and ROOT only. -/
theorem CodesOk.transfer {s t : State} (h : CodesOk s) (hd : t.code = s.code) (hn : t.node = s.node)
    (hs : t.nsyms = s.nsyms) (hr : t.root = s.root) : CodesOk t := by
  constructor
  · rw [hd, hn, hs]; exact h.coded
  · rw [hd]; exact h.absent
  · rw [hd, hn, hs, hr]; exact h.leads
  · rw [hd]; exact h.clear

namespace TreeOk

variable {s : State}

theorem nsyms_lt_nnodes (h : TreeOk s) : s.nsyms < s.nnodes := by
  have := h.size
  simp only [BitVec.lt_def]; omega

/-- The nodes below NNODES are the leaves below NSYMS and the Parents from NSYMS on. -/
theorem isParent_iff (h : TreeOk s) {i : Idx} (hi : i < s.nnodes) :
    isParent (nodeGet s.node i) = true ↔ s.isInner i := by
  constructor
  · intro hp
    refine ⟨?_, hi⟩
    by_contra hlt
    obtain ⟨⟨sym, hw⟩, -⟩ := h.leaves i (by simp only [BitVec.lt_def, BitVec.le_def] at *; omega)
    simp [hw] at hp
  · intro hin
    obtain ⟨z, o, hw, -⟩ := h.parents i hin
    simp [hw]

theorem child_lt (h : TreeOk s) {i : Idx} (hi : s.isInner i) (b : Bool) : childBy b (nodeGet s.node i) < i := by
  obtain ⟨z, o, hw, hz, ho, -⟩ := h.parents i hi
  rw [hw, childBy_parentWord]
  cases b
  · exact hz
  · exact ho

/-- Every step of a walk goes to a smaller index. -/
theorem leadsTo_lt (h : TreeOk s) {i j : Idx} {bs : List Bool} (hi : i < s.nnodes) (hw : leadsTo s.node i bs j) :
    j.toNat + bs.length ≤ i.toNat := by
  induction bs generalizing i with
  | nil => rw [show i = j from hw]; simp
  | cons b bs ih =>
    have hin := (h.isParent_iff hi).1 hw.1
    have hc := h.child_lt hin b
    have := ih (BitVec.lt_trans hc hi) hw.2
    simp only [BitVec.lt_def, List.length_cons] at *; omega

/-- The two children of a Parent differ: the bit that leads to a child is determined. -/
theorem childBy_inj (h : TreeOk s) {i : Idx} (hi : s.isInner i) {a b : Bool}
    (e : childBy a (nodeGet s.node i) = childBy b (nodeGet s.node i)) : a = b := by
  obtain ⟨z, o, hw, -, -, hne, -⟩ := h.parents i hi
  rw [hw, childBy_parentWord, childBy_parentWord] at e
  cases a <;> cases b <;> simp_all

theorem childOf_iff (s : State) (j i : Idx) : s.childOf j i ↔ ∃ b, childBy b (nodeGet s.node i) = j := by
  simp [State.childOf, childBy, or_comm]

/-- A node has one Parent. -/
theorem parent_unique (h : TreeOk s) {j i i' : Idx} (hi : s.isInner i) (hi' : s.isInner i')
    (hc : s.childOf j i) (hc' : s.childOf j i') : i = i' := by
  have hj : j < s.root := by
    obtain ⟨b, rfl⟩ := (childOf_iff s j i).1 hc
    have h1 := h.child_lt hi b
    have h2 := hi.2
    have := h.size
    simp only [BitVec.lt_def] at *; omega
  obtain ⟨q, -, hq⟩ := h.oneParent j hj
  exact (hq i ⟨hi, hc⟩).trans (hq i' ⟨hi', hc'⟩).symm

/-- There is one walk between two nodes (42_gencode.md R161: "exactly one sequence of nodes"). -/
theorem leadsTo_unique (h : TreeOk s) {i j : Idx} {as bs : List Bool} (hi : i < s.nnodes)
    (ha : leadsTo s.node i as j) (hb : leadsTo s.node i bs j) : as = bs := by
  induction as using List.reverseRecOn generalizing bs j with
  | nil =>
    have := h.leadsTo_lt hi hb
    rw [show i = j from ha] at this
    exact (List.eq_nil_of_length_eq_zero (by omega)).symm
  | append_singleton as a ih =>
    rcases List.eq_nil_or_concat bs with rfl | ⟨bs', b, rfl⟩
    · have := h.leadsTo_lt hi ha
      rw [show i = j from hb, List.length_append, List.length_singleton] at this
      omega
    · rw [List.concat_eq_append, leadsTo_snoc] at hb
      rw [leadsTo_snoc] at ha
      obtain ⟨p, hp, hpp, hpc⟩ := ha
      obtain ⟨q, hq, hqp, hqc⟩ := hb
      have lt : ∀ {q : Idx} {l : List Bool}, leadsTo s.node i l q → q < s.nnodes := fun hw => by
        have := h.leadsTo_lt hi hw
        simp only [BitVec.lt_def] at *; omega
      have hpi := (h.isParent_iff (lt hp)).1 hpp
      have hqi := (h.isParent_iff (lt hq)).1 hqp
      have e := h.parent_unique hpi hqi ((childOf_iff s j p).2 ⟨a, hpc⟩) ((childOf_iff s j q).2 ⟨b, hqc⟩)
      subst e
      rw [ih hp hq, h.childBy_inj hpi (hpc.trans hqc.symm), List.concat_eq_append]

theorem root_lt (h : TreeOk s) : s.root < s.nnodes := by
  have := h.size
  simp only [BitVec.lt_def]; omega

/-- Every node of the tree is reached from the root. -/
theorem reached (h : TreeOk s) {j : Idx} (hj : j < s.nnodes) : ∃ bs, leadsTo s.node s.root bs j := by
  by_cases e : j = s.root
  · exact ⟨[], e.symm⟩
  · have hsz := h.size
    have hjr : j < s.root := by
      have : j.toNat ≠ s.root.toNat := fun e' => e (BitVec.eq_of_toNat_eq e')
      simp only [BitVec.lt_def] at *; omega
    obtain ⟨i, ⟨hi, hc⟩, -⟩ := h.oneParent j hjr
    obtain ⟨b, hb⟩ := (childOf_iff s j i).1 hc
    have hlt : j < i := hb ▸ h.child_lt hi b
    have hterm : s.root.toNat - i.toNat < s.root.toNat - j.toNat := by
      have := hi.2
      simp only [BitVec.lt_def] at *; omega
    obtain ⟨bs, hbs⟩ := h.reached hi.2
    exact ⟨bs ++ [b], (leadsTo_snoc _ _ _ _ _).2 ⟨i, hbs, (h.isParent_iff hi.2).2 hi, hb⟩⟩
termination_by s.root.toNat - j.toNat

theorem leafSym_inj (h : TreeOk s) {i j : Idx} (hi : i < s.nsyms) (hj : j < s.nsyms)
    (e : leafSym (nodeGet s.node i) = leafSym (nodeGet s.node j)) : i = j := by
  rcases Nat.lt_trichotomy i.toNat j.toNat with hlt | heq | hgt
  · exact absurd e (BitVec.ne_of_lt (h.ascending i j hlt hj))
  · exact BitVec.eq_of_toNat_eq heq
  · exact absurd e.symm (BitVec.ne_of_lt (h.ascending j i hgt hi))

end TreeOk

end Sys2Proof.Machine
end

