-- ==== Sys2Proof/Laws/Agree.lean ====
section
/-! SUPPORT. Two BUILDs from the same counts, and the shares of the leaves of a tree (41_build.md R138; 10_state.md R45). -/

namespace Sys2Proof.Machine

/-- The leaves below a node at depth d have codes whose shares add up to that of depth d (10_state.md R45 (d)). -/
theorem leaves_below {s : State} (T : TreeOk s) (C : CodesOk s) : ∀ (n : Nat) (i : Idx) (d : List Bool), i.toNat = n →
    i < s.nnodes → leadsTo s.node s.root d i →
    ∃ l : List Idx, l.Nodup ∧ (∀ j, j ∈ l ↔ j < s.nsyms ∧ ∃ bs, leadsTo s.node i bs j) ∧
      (l.map fun j => 2 ^ (255 - (symGet s.code (leafSym (nodeGet s.node j))).len.toNat)).sum = 2 ^ (255 - d.length) := by
  intro n
  induction n using Nat.strong_induction_on with
  | _ n ih =>
    intro i d hn hi hd
    have len : ∀ j < s.nsyms, ∀ bs, leadsTo s.node s.root bs j → bs.length = (symGet s.code (leafSym (nodeGet s.node j))).len.toNat := by
      intro j hj bs hb
      rw [T.leadsTo_unique T.root_lt hb (C.leads j hj), CodeEntry.length_string]
    by_cases hl : i < s.nsyms
    · refine ⟨[i], by simp, fun j => ?_, by simp [len i hl d hd]⟩
      rw [List.mem_singleton]
      constructor
      · rintro rfl; exact ⟨hl, [], rfl⟩
      · rintro ⟨hj, bs, hb⟩
        cases bs with
        | nil => exact hb.symm
        | cons b bs =>
          have := (T.isParent_iff hi).1 hb.1
          have h2 := this.1
          exact absurd hl (by simp only [BitVec.lt_def, BitVec.le_def] at *; omega)
    · have inner : s.isInner i := ⟨by simp only [BitVec.lt_def, BitVec.le_def] at *; omega, hi⟩
      have hp := (T.isParent_iff hi).2 inner
      have sub : ∀ b, ∃ l : List Idx, l.Nodup ∧ (∀ j, j ∈ l ↔ j < s.nsyms ∧ ∃ bs, leadsTo s.node (childBy b (nodeGet s.node i)) bs j) ∧
          (l.map fun j => 2 ^ (255 - (symGet s.code (leafSym (nodeGet s.node j))).len.toNat)).sum = 2 ^ (255 - (d.length + 1)) := by
        intro b
        have hlt := T.child_lt inner b
        have := ih _ (by rw [← hn]; exact hlt) (childBy b (nodeGet s.node i)) (d ++ [b]) rfl (BitVec.lt_trans hlt hi)
          ((leadsTo_snoc _ _ _ _ _).2 ⟨i, hd, hp, rfl⟩)
        simpa using this
      obtain ⟨lz, nz, mz, sz⟩ := sub false
      obtain ⟨lo, no, mo, so⟩ := sub true
      have hlen : d.length + 1 ≤ 255 := by
        have hne : lz ≠ [] := by
          rintro rfl
          simp only [List.map_nil, List.sum_nil] at sz
          exact absurd sz.symm (Nat.ne_of_gt (Nat.two_pow_pos _))
        obtain ⟨j, hj⟩ := List.exists_mem_of_ne_nil _ hne
        obtain ⟨hj, bs, hb⟩ := (mz j).1 hj
        have := len j hj (d ++ false :: bs) ((leadsTo_append _ _ _ _ _).2 ⟨i, hd, hp, hb⟩)
        have h2 := (symGet s.code (leafSym (nodeGet s.node j))).len.isLt
        simp only [List.length_append, List.length_cons] at this
        omega
      refine ⟨lz ++ lo, List.nodup_append'.2 ⟨nz, no, ?_⟩, fun j => ?_, ?_⟩
      · intro j hjz hjo
        obtain ⟨_, bs, hb⟩ := (mz j).1 hjz
        obtain ⟨_, bs', hb'⟩ := (mo j).1 hjo
        have := T.leadsTo_unique T.root_lt ((leadsTo_append _ _ _ d (false :: bs)).2 ⟨i, hd, hp, hb⟩)
          ((leadsTo_append _ _ _ d (true :: bs')).2 ⟨i, hd, hp, hb'⟩)
        simp at this
      · rw [List.mem_append, mz, mo]
        constructor
        · rintro (⟨hj, bs, hb⟩ | ⟨hj, bs, hb⟩)
          · exact ⟨hj, false :: bs, hp, hb⟩
          · exact ⟨hj, true :: bs, hp, hb⟩
        · rintro ⟨hj, bs, hb⟩
          cases bs with
          | nil => exact absurd ((show i = j from hb) ▸ hj) hl
          | cons b bs =>
            cases b
            · exact .inl ⟨hj, bs, hb.2⟩
            · exact .inr ⟨hj, bs, hb.2⟩
      · rw [List.map_append, List.sum_append, sz, so, ← Nat.two_mul, ← Nat.pow_succ']
        congr 1; omega

/-- Two builders that agree on everything below NNODES. -/
structure Same (b b' : Builder) : Prop where
  nnodes : b'.nnodes = b.nnodes
  pq : b'.pq = b.pq
  node : ∀ i < b.nnodes, nodeGet b'.node i = nodeGet b.node i
  wgt : ∀ i < b.nnodes, wgtGet b'.wgt i = wgtGet b.wgt i

/-- Inserting the same node keeps the agreement. -/
theorem Same.insert {b b' : Builder} (h : Same b b') (hl : b.nnodes.toNat < 511) (w v : Word) : Same (b.insert w v) (b'.insert w v) := by
  have hl' : b'.nnodes.toNat < 511 := by rw [h.nnodes]; exact hl
  have e : (b.nnodes + 1#9).toNat = b.nnodes.toNat + 1 := by rw [BitVec.toNat_add]; simp; omega
  refine ⟨by simp only [Builder.insert, h.nnodes], by simp only [Builder.insert, h.nnodes, h.pq], fun i hi => ?_, fun i hi => ?_⟩
  · simp only [Builder.insert] at *
    rw [nodeGet_arenaSet _ hl', nodeGet_arenaSet _ hl, h.nnodes]
    split
    · rfl
    · rename_i hne
      refine h.node i ?_
      have : b.nnodes.toNat ≠ i.toNat := fun e => hne (BitVec.eq_of_toNat_eq e)
      simp only [BitVec.lt_def, e] at *; omega
  · simp only [Builder.insert] at *
    rw [wgtGet_arenaSet _ hl', wgtGet_arenaSet _ hl, h.nnodes]
    split
    · rfl
    · rename_i hne
      refine h.wgt i ?_
      have : b.nnodes.toNat ≠ i.toNat := fun e => hne (BitVec.eq_of_toNat_eq e)
      simp only [BitVec.lt_def, e] at *; omega

/-- Seeding the same symbols keeps the agreement. -/
theorem same_seed {cnt : Vector Word 256} : ∀ (l : List Byte) {b b' : Builder}, Same b b' → b.nnodes.toNat + l.length ≤ 511 →
    Same (l.foldl (insertLeaf cnt) b) (l.foldl (insertLeaf cnt) b')
  | [], _, _, h, _ => h
  | x :: l, b, b', h, hl => by
    simp only [List.length_cons] at hl
    refine same_seed l (h.insert (by omega) _ _) ?_
    have : (insertLeaf cnt b x).nnodes.toNat = b.nnodes.toNat + 1 := by
      change (b.nnodes + 1#9).toNat = _
      rw [BitVec.toNat_add]; simp; omega
    rw [this]; omega

/-- The order looks at two weights. -/
theorem before_congr {w w' : Vector Word 511} {i j : Idx} (hi : wgtGet w' i = wgtGet w i) (hj : wgtGet w' j = wgtGet w j) :
    before w' i j = before w i j := by simp [before, hi, hj]

/-- `popmin` looks at the weights of the queue. -/
theorem popmin_congr {w w' : Vector Word 511} {pq : List Idx} (h : ∀ j ∈ pq, wgtGet w' j = wgtGet w j) :
    popmin w' pq = popmin w pq := by
  by_cases hne : pq = []
  · subst hne; rfl
  obtain ⟨m, q, hm, hf⟩ := popmin_spec w hne
  obtain ⟨m', q', hm', hf'⟩ := popmin_spec w' hne
  have : m' = m := by
    by_contra hc
    have h1 := hf m' hm' hc
    have h2 := hf' m hm (Ne.symm hc)
    rw [before_congr (h m' hm') (h m hm)] at h2
    rw [before_asymm w h1] at h2; cases h2
  rw [q, q', this]

/-- A merge keeps the agreement. -/
theorem same_merge {k : Nat} {b b' : Builder} (M : Merging k b) (hl : 1 < b.pq.length) (h : Same b b') :
    Same (mergeOnce b) (mergeOnce b') := by
  have hw : ∀ j ∈ b.pq, wgtGet b'.wgt j = wgtGet b.wgt j := fun j hj => h.wgt j (M.lt j hj)
  obtain ⟨i, hi, him, _⟩ := popmin_spec b.wgt (pq := b.pq) (by intro e; simp [e] at hl)
  have hlen : (b.pq.erase i).length = b.pq.length - 1 := List.length_erase_of_mem him
  obtain ⟨j, hj, hjm, _⟩ := popmin_spec b.wgt (pq := b.pq.erase i) (by intro e; simp [e] at hlen; omega)
  have hi' : popmin b'.wgt b'.pq = some (i, b.pq.erase i) := by rw [h.pq, popmin_congr hw, hi]
  have hj' : popmin b'.wgt (b.pq.erase i) = some (j, (b.pq.erase i).erase j) := by
    rw [popmin_congr fun x hx => hw x (List.mem_of_mem_erase hx), hj]
  simp only [mergeOnce, hi, hj, hi', hj']
  rw [hw i him, hw j (List.mem_of_mem_erase hjm)]
  exact Same.insert (b := { b with pq := (b.pq.erase i).erase j, aIdx := i, bIdx := j })
    (b' := { b' with pq := (b.pq.erase i).erase j, aIdx := i, bIdx := j }) ⟨h.nnodes, rfl, h.node, h.wgt⟩ (M.nnodes_lt hl) _ _

/-- The merges keep the agreement (41_build.md R138). -/
theorem same_loop {k : Nat} : ∀ (n : Nat) {b b' : Builder}, Merging k b → Same b b' → Same (mergeLoop n b) (mergeLoop n b')
  | 0, _, _, _, h => h
  | n + 1, b, b', M, h => by
    rw [mergeLoop, mergeLoop, h.pq]
    by_cases hl : 1 < b.pq.length
    · rw [if_pos hl, if_pos hl]
      exact same_loop n (M.mergeOnce hl) (same_merge M hl h)
    · rw [if_neg hl, if_neg hl]; exact h

end Sys2Proof.Machine
end

