-- ==== Sys2Proof/Laws/Encode.lean ====
section
/-! SUPPORT. What the bit packer does with a string of bits and with an input (43_encode.md R180 to R192). -/

namespace Sys2Proof.Machine

/-! Bits of bytes -/

@[simp] theorem length_byteBits (b : Byte) : (byteBits b).length = 8 := by simp [byteBits]

@[simp] theorem streamBits_nil : streamBits [] = [] := rfl

@[simp] theorem streamBits_cons (b : Byte) (bs : List Byte) : streamBits (b :: bs) = byteBits b ++ streamBits bs := rfl

@[simp] theorem streamBits_append (as bs : List Byte) : streamBits (as ++ bs) = streamBits as ++ streamBits bs := by
  simp [streamBits]

@[simp] theorem length_streamBits (bs : List Byte) : (streamBits bs).length = 8 * bs.length := by
  induction bs with
  | nil => rfl
  | cons b bs ih => simp [ih]; omega

@[simp] theorem codeBits_nil (code : Vector CodeEntry 256) : codeBits code [] = [] := rfl

@[simp] theorem codeBits_cons (code : Vector CodeEntry 256) (r : Byte) (x : List Byte) :
    codeBits code (r :: x) = (symGet code r).string ++ codeBits code x := rfl

@[simp] theorem codeBits_append (code : Vector CodeEntry 256) (x y : List Byte) :
    codeBits code (x ++ y) = codeBits code x ++ codeBits code y := by simp [codeBits]

/-- EBUF holds the bits l from bit 7 down, zeros below (10_state.md R26). -/
def BufHolds (v : Byte) (l : List Bool) : Prop := ∀ m < 8, v.getLsbD (7 - m) = l.getD m false

theorem BufHolds.nil : BufHolds 0#8 [] := by intro m _; simp

theorem BufHolds.push {v : Byte} {l : List Bool} (h : BufHolds v l) (hl : l.length < 8) (b : Bool) :
    BufHolds (writeBit v (7 - l.length) b) (l ++ [b]) := by
  intro m hm
  rw [getLsbD_writeBit, h m hm]
  rcases Nat.lt_trichotomy m l.length with hlt | rfl | hgt
  · rw [if_neg (by omega)]
    simp [List.getD_eq_getElem?_getD, List.getElem?_append_left hlt]
  · rw [if_pos ⟨rfl, by omega⟩]
    simp [List.getD_eq_getElem?_getD]
  · rw [if_neg (by omega)]
    simp [List.getD_eq_getElem?_getD, List.getElem?_append_right (Nat.le_of_lt hgt), Nat.le_of_lt hgt,
      Nat.sub_ne_zero_of_lt hgt]

theorem BufHolds.take {v : Byte} {l : List Bool} (h : BufHolds v l) (hl : l.length ≤ 8) :
    (byteBits v).take l.length = l := by
  apply List.ext_getElem
  · simp [hl]
  · intro m h1 h2
    have := h m (by omega)
    rw [List.getD_eq_getElem?_getD, List.getElem?_eq_getElem h2] at this
    simpa [byteBits] using this

theorem BufHolds.full {v : Byte} {l : List Bool} (h : BufHolds v l) (hl : l.length = 8) : byteBits v = l := by
  have := h.take (Nat.le_of_eq hl)
  rwa [hl, List.take_of_length_le (by simp)] at this

/-- The bits below the pending ones are zero. -/
theorem BufHolds.below {v : Byte} {l : List Bool} (h : BufHolds v l) {k : Nat} (hk : k + l.length < 8) :
    v.getLsbD k = false := by
  have := h (7 - k) (by omega)
  rw [List.getD_eq_getElem?_getD, List.getElem?_eq_none (by omega)] at this
  rwa [show 7 - (7 - k) = k by omega] at this

/-- The Encoder's buffer holds the pending bits l, fewer than eight. -/
structure Packing (e : Packer) (l : List Bool) : Prop where
  lt : l.length < 8
  ecnt : e.ecnt.toNat = l.length
  holds : BufHolds e.ebuf l

theorem Packing.pending {e : Packer} {l : List Bool} (h : Packing e l) : pendingBits e.ebuf e.ecnt = l := by
  rw [pendingBits, h.ecnt]; exact h.holds.take (Nat.le_of_lt h.lt)

theorem Packing.shift_ecnt {e : Packer} {l : List Bool} (h : Packing e l) (b : Bool) :
    (shiftBit b e).ecnt.toNat = l.length + 1 := by
  have h1 := h.ecnt
  have h2 := h.lt
  simp only [shiftBit, BitVec.toNat_add]
  simp; omega

theorem Packing.shift_holds {e : Packer} {l : List Bool} (h : Packing e l) (b : Bool) :
    BufHolds (shiftBit b e).ebuf (l ++ [b]) := by
  simp only [shiftBit, h.ecnt]
  exact h.holds.push h.lt b

theorem ecnt_eq_eight {v : BitVec 4} : v = 8#4 ↔ v.toNat = 8 := by
  rw [← BitVec.toNat_inj]; rfl

/-- A bit that does not fill the buffer. -/
theorem pushBit_room {e : Packer} {l : List Bool} (h : Packing e l) (hl : l.length < 7) (b : Bool) :
    pushBit b e = .done (shiftBit b e) ∧ Packing (shiftBit b e) (l ++ [b]) := by
  have hc := h.shift_ecnt b
  refine ⟨?_, by simp; omega, by simpa using hc, h.shift_holds b⟩
  rw [pushBit, if_neg]
  rw [ecnt_eq_eight]; omega

/-- The bit that fills the buffer, with the byte written. -/
theorem pushBit_full {e : Packer} {l : List Bool} (h : Packing e l) (hl : l.length = 7) (b : Bool) :
    pushBit b e = emitBuffer (shiftBit b e) ∧ byteBits (shiftBit b e).ebuf = l ++ [b] ∧ (shiftBit b e).ecnt = 8#4 := by
  have hc : (shiftBit b e).ecnt = 8#4 := by rw [ecnt_eq_eight, h.shift_ecnt b]; omega
  exact ⟨by rw [pushBit, if_pos hc], (h.shift_holds b).full (by simp [hl]), hc⟩

/-- What appending the bits bs to a buffer holding l has done when every write was accepted: the bytes `out` were
written, and l' is left. -/
structure Pushed (e e' : Packer) (l bs : List Bool) (out : List Byte) (l' : List Bool) : Prop where
  sink : e'.sink = e.sink.after out
  bits : streamBits out ++ l' = l ++ bs
  packing : Packing e' l'
  symcnt : e'.symcnt = e.symcnt

theorem Pushed.length {e e' : Packer} {l bs l' : List Bool} {out : List Byte} (h : Pushed e e' l bs out l') :
    out.length = (l.length + bs.length) / 8 ∧ l'.length = (l.length + bs.length) % 8 := by
  have h1 := congrArg List.length h.bits
  have h2 := h.packing.lt
  simp only [List.length_append, length_streamBits] at h1
  omega

theorem pushBits_ok (bs : List Bool) {e : Packer} {l : List Bool} (h : Packing e l)
    (ha : e.sink.accepts ((l.length + bs.length) / 8)) :
    ∃ e' out l', pushBits bs e = .done e' ∧ Pushed e e' l bs out l' := by
  induction bs generalizing e l with
  | nil => exact ⟨e, [], l, rfl, by simp, by simp, h, rfl⟩
  | cons b bs ih =>
    have hlt := h.lt
    rcases Nat.lt_or_ge l.length 7 with hl | hl
    · obtain ⟨hp, hpk⟩ := pushBit_room h hl b
      obtain ⟨e', out, l', he, hs⟩ := ih hpk (by
        simpa [shiftBit, Nat.add_assoc, Nat.add_comm 1] using ha)
      exact ⟨e', out, l', by simp only [pushBits, hp, he], hs.sink, by simpa using hs.bits, hs.packing, hs.symcnt⟩
    · have hl7 : l.length = 7 := by omega
      obtain ⟨hp, hb, hc⟩ := pushBit_full h hl7 b
      have hq : (l.length + (b :: bs).length) / 8 = bs.length / 8 + 1 := by
        simp only [List.length_cons, hl7]; omega
      rw [hq] at ha
      have hw := snkWrite_of_accepts (k := (shiftBit b e).sink) ha (shiftBit b e).ebuf
      have hem : emitBuffer (shiftBit b e)
          = .done { shiftBit b e with sink := e.sink.after [(shiftBit b e).ebuf], ebuf := 0#8, ecnt := 0#4 } := by
        simp only [emitBuffer, hw]; rfl
      obtain ⟨e', out, l', he, hs⟩ := ih (e := { shiftBit b e with
          sink := e.sink.after [(shiftBit b e).ebuf], ebuf := 0#8, ecnt := 0#4 }) (l := [])
        ⟨by simp, rfl, .nil⟩ (by simpa using Sink.accepts_after ha (by simp; omega))
      refine ⟨e', (shiftBit b e).ebuf :: out, l', by simp only [pushBits, hp, hem, he], ?_, ?_, hs.packing, hs.symcnt⟩
      · rw [hs.sink]; exact Sink.after_after _ _ _
      · rw [streamBits_cons, hb, List.append_assoc, hs.bits]; simp

/-- What a refused write leaves (R185): m bytes were accepted, the next is in EBUF with ECNT = 8. -/
structure Refused (e e' : Packer) (m : Nat) (l bs : List Bool) (out : List Byte) : Prop where
  sink : e'.sink = (e.sink.after out).past 1
  length : out.length = m
  bits : streamBits out ++ byteBits e'.ebuf = (l ++ bs).take (8 * (m + 1))
  ecnt : e'.ecnt = 8#4
  symcnt : e'.symcnt = e.symcnt
  kBit : e'.kBit = e.kBit + BitVec.ofNat 8 (8 * (m + 1) - l.length)

theorem pushBits_refused (bs : List Bool) {e : Packer} {l : List Bool} {m : Nat} (h : Packing e l)
    (ha : e.sink.accepts m) (he : e.sink.nth m = .err) (hm : 8 * (m + 1) ≤ l.length + bs.length) :
    ∃ e' out, pushBits bs e = .raised .ioError (zext32 e'.ebuf) e' ∧ Refused e e' m l bs out := by
  induction bs generalizing e l m with
  | nil => have := h.lt; simp at hm; omega
  | cons b bs ih =>
    have hlt := h.lt
    rcases Nat.lt_or_ge l.length 7 with hl | hl
    · obtain ⟨hp, hpk⟩ := pushBit_room h hl b
      obtain ⟨e', out, hr, hs⟩ := ih hpk (m := m) ha he (by simpa [Nat.add_assoc, Nat.add_comm 1] using hm)
      refine ⟨e', out, by simp only [pushBits, hp, hr], hs.sink, hs.length, by simpa using hs.bits, hs.ecnt, hs.symcnt, ?_⟩
      rw [hs.kBit, show 8 * (m + 1) - l.length = 1 + (8 * (m + 1) - (l ++ [b]).length) by simp; omega, BitVec.ofNat_add,
        ← BitVec.add_assoc]
      rfl
    · have hl7 : l.length = 7 := by omega
      obtain ⟨hp, hb, hc⟩ := pushBit_full h hl7 b
      cases m with
      | zero =>
        have hw := snkWrite_err (k := (shiftBit b e).sink) he (shiftBit b e).ebuf
        refine ⟨{ shiftBit b e with sink := (shiftBit b e).sink.past 1 }, [],
          by simp only [pushBits, hp, emitBuffer, hw], by simp [shiftBit], rfl, ?_, hc, rfl,
          by simp only [shiftBit, hl7]⟩
        rw [streamBits_nil, List.nil_append]
        change byteBits (shiftBit b e).ebuf = _
        rw [hb]
        simp [hl7, List.take_append]
      | succ m =>
        have hw := snkWrite_of_accepts (k := (shiftBit b e).sink) ha (shiftBit b e).ebuf
        have hem : emitBuffer (shiftBit b e)
            = .done { shiftBit b e with sink := e.sink.after [(shiftBit b e).ebuf], ebuf := 0#8, ecnt := 0#4 } := by
          simp only [emitBuffer, hw]; rfl
        obtain ⟨e', out, hr, hs⟩ := ih (e := { shiftBit b e with
            sink := e.sink.after [(shiftBit b e).ebuf], ebuf := 0#8, ecnt := 0#4 }) (l := []) (m := m)
          ⟨by simp, rfl, .nil⟩ (Sink.accepts_after ha (by simp; omega)) (by rw [Sink.nth_after, List.length_singleton, Nat.add_comm]; exact he)
          (by simp only [List.length_cons, hl7, List.length_nil] at hm ⊢; omega)
        refine ⟨e', (shiftBit b e).ebuf :: out, by simp only [pushBits, hp, hem, hr], ?_, by simp [hs.length], ?_, hs.ecnt,
          hs.symcnt, ?_⟩
        · rw [hs.sink]; exact congrArg (Sink.past · 1) (Sink.after_after _ _ _)
        · rw [streamBits_cons, hb, List.append_assoc, hs.bits]
          have h8 : (l ++ [b]).length = 8 := by simp [hl7]
          have hq : l ++ b :: bs = (l ++ [b]) ++ bs := by simp
          rw [hq, List.take_append (l₁ := l ++ [b]), h8, List.take_of_length_le (l := l ++ [b]) (by rw [h8]; omega),
            List.nil_append, Nat.mul_succ 8 (m + 1), Nat.add_sub_cancel]
        · rw [hs.kBit, List.length_nil, hl7, show 8 * (m + 1 + 1) - 7 = 1 + (8 * (m + 1) - 0) by omega, BitVec.ofNat_add,
            ← BitVec.add_assoc]
          rfl

/-! The loop over the input -/

theorem encodeLoop_ok (code : Vector CodeEntry 256) (x : List Byte) {e : Packer} {l : List Bool} (h : Packing e l)
    (hx : allCoded code x) (ha : e.sink.accepts ((l.length + (codeBits code x).length) / 8)) (rest : List Byte) :
    ∃ e' out l', encodeLoop code (x ++ rest) e = encodeLoop code rest e' ∧
      e'.sink = e.sink.after out ∧ streamBits out ++ l' = l ++ codeBits code x ∧ Packing e' l' ∧
      e'.symcnt = e.symcnt + BitVec.ofNat 32 x.length := by
  induction x generalizing e l with
  | nil => exact ⟨e, [], l, rfl, by simp, by simp, h, by simp⟩
  | cons r x ih =>
    have hr : (symGet code r).len ≠ 0#8 := hx r List.mem_cons_self
    have hxs : allCoded code x := fun y hy => hx y (List.mem_cons_of_mem _ hy)
    rw [codeBits_cons, List.length_append] at ha
    obtain ⟨e1, out1, l1, hp, hs⟩ := pushBits_ok (symGet code r).string (e := { e with kBit := 0#8 }) (l := l)
      ⟨h.lt, h.ecnt, h.holds⟩ (Sink.accepts_mono ha (Nat.div_le_div_right (by omega)))
    have hlen := hs.length
    obtain ⟨e', out, l', he, hsink, hbits, hpk, hsym⟩ := ih (e := { e1 with symcnt := e1.symcnt + 1#32 }) (l := l1)
      ⟨hs.packing.lt, hs.packing.ecnt, hs.packing.holds⟩ hxs (by
        change e1.sink.accepts _
        rw [hs.sink]
        exact Sink.accepts_after ha (by omega))
    refine ⟨e', out1 ++ out, l', ?_, ?_, ?_, hpk, ?_⟩
    · simp only [List.cons_append, encodeLoop, hr, if_false, hp, he]
    · rw [hsink]
      change e1.sink.after out = _
      rw [hs.sink]; exact Sink.after_after _ _ _
    · rw [streamBits_append, List.append_assoc, hbits, ← List.append_assoc, hs.bits, codeBits_cons, List.append_assoc]
    · rw [hsym]
      change e1.symcnt + 1#32 + _ = _
      rw [hs.symcnt, List.length_cons, Nat.add_comm x.length 1, BitVec.ofNat_add, BitVec.add_assoc]

theorem encodeLoop_refused (code : Vector CodeEntry 256) (r : Byte) (rest : List Byte) {e : Packer} {l : List Bool}
    {m : Nat} (h : Packing e l) (hr : (symGet code r).len ≠ 0#8) (ha : e.sink.accepts m)
    (he : e.sink.nth m = .err) (hm : 8 * (m + 1) ≤ l.length + (symGet code r).string.length) :
    ∃ e' out, encodeLoop code (r :: rest) e = .raised .ioError (zext32 e'.ebuf) (e', rest) ∧
      Refused { e with kBit := 0#8 } e' m l (symGet code r).string out := by
  obtain ⟨e', out, hp, hs⟩ := pushBits_refused (symGet code r).string (e := { e with kBit := 0#8 }) (l := l) (m := m)
    ⟨h.lt, h.ecnt, h.holds⟩ ha he hm
  exact ⟨e', out, by simp only [encodeLoop, hr, if_false, hp], hs⟩

/-- The loop over the input x is done with `pre`: its bits are packed, its symbols counted, every write accepted. -/
structure Encoded (code : Vector CodeEntry 256) (e e' : Packer) (l : List Bool) (pre out : List Byte) (l' : List Bool) :
    Prop where
  coded : allCoded code pre
  sink : e'.sink = e.sink.after out
  bits : streamBits out ++ l' = l ++ codeBits code pre
  packing : Packing e' l'
  symcnt : e'.symcnt = e.symcnt + BitVec.ofNat 32 pre.length

/-- How the loop over an input ends: at the end of the input, at a byte without a code, or at a refused write. -/
theorem encodeLoop_cases (code : Vector CodeEntry 256) (x : List Byte) {e : Packer} {l : List Bool} (h : Packing e l) :
    (∃ e' out l', encodeLoop code x e = .done (e', []) ∧ Encoded code e e' l x out l') ∨
    (∃ pre r rest e' out l', x = pre ++ r :: rest ∧ (symGet code r).len = 0#8 ∧
      encodeLoop code x e = .raised .contractViolation (zext32 r) (e', rest) ∧ Encoded code e e' l pre out l') ∨
    ∃ pre r rest e1 e' out1 l1 out m, x = pre ++ r :: rest ∧ (symGet code r).len ≠ 0#8 ∧ Encoded code e e1 l pre out1 l1 ∧
      encodeLoop code x e = .raised .ioError (zext32 e'.ebuf) (e', rest) ∧ Refused { e1 with kBit := 0#8 } e' m l1 (symGet code r).string out := by
  induction x generalizing e l with
  | nil => exact .inl ⟨e, [], l, rfl, fun _ hr => absurd hr List.not_mem_nil, by simp, by simp, h, by simp⟩
  | cons r x ih =>
    by_cases hr : (symGet code r).len = 0#8
    · exact .inr (.inl ⟨[], r, x, e, [], l, rfl, hr, by simp [encodeLoop, hr],
        fun _ hr => absurd hr List.not_mem_nil, by simp, by simp, h, by simp⟩)
    · have h0 : Packing { e with kBit := 0#8 } l := ⟨h.lt, h.ecnt, h.holds⟩
      rcases Sink.accepts_or e.sink ((l.length + (symGet code r).string.length) / 8) with ha | ⟨m, hm, ha, he⟩
      · obtain ⟨e1, out1, l1, hp, hs⟩ := pushBits_ok (symGet code r).string h0 ha
        have step : ∀ {e' pre out l'}, Encoded code { e1 with symcnt := e1.symcnt + 1#32 } e' l1 pre out l' →
            Encoded code e e' l (r :: pre) (out1 ++ out) l' := by
          intro e' pre out l' hi
          refine ⟨fun y hy => ?_, ?_, ?_, hi.packing, ?_⟩
          · rcases List.mem_cons.1 hy with rfl | hy
            · exact hr
            · exact hi.coded y hy
          · rw [hi.sink]
            change e1.sink.after out = _
            rw [hs.sink]; exact Sink.after_after _ _ _
          · rw [streamBits_append, List.append_assoc, hi.bits, ← List.append_assoc, hs.bits, codeBits_cons,
              List.append_assoc]
          · rw [hi.symcnt]
            change e1.symcnt + 1#32 + _ = _
            rw [hs.symcnt, List.length_cons, Nat.add_comm pre.length 1, BitVec.ofNat_add, BitVec.add_assoc]
        have hcons : encodeLoop code (r :: x) e = encodeLoop code x { e1 with symcnt := e1.symcnt + 1#32 } := by
          simp only [encodeLoop, hr, if_false, hp]
        rw [hcons]
        rcases ih (e := { e1 with symcnt := e1.symcnt + 1#32 }) (l := l1)
            ⟨hs.packing.lt, hs.packing.ecnt, hs.packing.holds⟩ with
          ⟨e', out, l', q1, q2⟩ | ⟨pre, r', rest, e', out, l', q1, q2, q3, q4⟩ |
          ⟨pre, r', rest, e2, e', out2, l2, out, m, q1, q2, q3, q4, q5⟩
        · exact .inl ⟨e', out1 ++ out, l', q1, step q2⟩
        · exact .inr (.inl ⟨r :: pre, r', rest, e', out1 ++ out, l', by rw [q1]; rfl, q2, q3, step q4⟩)
        · exact .inr (.inr ⟨r :: pre, r', rest, e2, e', out1 ++ out2, l2, out, m, by rw [q1]; rfl, q2, step q3, q4, q5⟩)
      · obtain ⟨e', out, q1, q2⟩ := encodeLoop_refused code r x h hr ha he (by omega)
        exact .inr (.inr ⟨[], r, x, e, e', [], l, out, m, rfl, hr,
          ⟨fun _ hr => absurd hr List.not_mem_nil, by simp, by simp, h, by simp⟩, q1, q2⟩)

end Sys2Proof.Machine
end

