-- ==== Sys2Proof/Laws/Decode.lean ====
section
/-! SUPPORT. What the decode loop does with an input, in the terms of the greedy parse (44_decode.md R202 to R213). -/

namespace Sys2Proof.Machine

/-! The greedy parse -/

theorem parse_append (node : Vector Word 511) (root : Idx) (as : List Bool) : ∀ (cur : Idx) (bs : List Bool),
    parse node root cur (as ++ bs) =
      ((parse node root cur as).1 ++ (parse node root (parse node root cur as).2 bs).1,
        (parse node root (parse node root cur as).2 bs).2) := by
  induction as with
  | nil => intro cur bs; rfl
  | cons b as ih =>
    intro cur bs
    simp only [List.cons_append, parse]
    split
    · exact ih _ _
    · simp [ih]

/-- Following a code from a Parent outputs its leaf's symbol and ends at the root. -/
theorem parse_code {node : Vector Word 511} {root : Idx} {j : Idx} (hj : isParent (nodeGet node j) = false) :
    ∀ {i : Idx} {bs : List Bool}, bs ≠ [] → leadsTo node i bs j →
      parse node root i bs = ([leafSym (nodeGet node j)], root) := by
  intro i bs
  induction bs generalizing i with
  | nil => intro h; exact absurd rfl h
  | cons b bs ih =>
    rintro - ⟨-, h⟩
    cases bs with
    | nil =>
      obtain rfl : childBy b (nodeGet node i) = j := h
      simp [parse, hj]
    | cons c bs =>
      have hp : isParent (nodeGet node (childBy b (nodeGet node i))) = true := h.1
      rw [parse, if_pos hp]
      exact ih (by simp) h

/-! The unpacker -/

theorem byteBits_cons (v : Byte) : byteBits v = v.getLsbD 7 :: (byteBits (v <<< 1)).take 7 := by
  simp [byteBits, List.range_succ]

theorem take_byteBits (v : Byte) {n : Nat} (hn : n ≤ 7) :
    (byteBits v).take (n + 1) = v.getLsbD 7 :: (byteBits (v <<< 1)).take n := by
  rw [byteBits_cons, List.take_succ_cons, List.take_take, Nat.min_eq_left hn]

/-- The Decoder's registers after n more bits, with the symbols `out` written. -/
def Unpacker.moved (d : Unpacker) (n : Nat) (out : List Byte) (cur : Idx) : Unpacker :=
  ⟨d.sink.after out, d.symcnt + BitVec.ofNat 32 out.length, cur, d.dsh <<< n, d.dcnt - BitVec.ofNat 4 n⟩

/-- The limit is not reached before k more symbols have been written. -/
def Below (limit : Option Word) (symcnt : Word) (k : Nat) : Prop := ∀ l, limit = some l → symcnt.toNat + k < l.toNat

theorem Below.mono {limit : Option Word} {symcnt : Word} {j k : Nat} (h : Below limit symcnt k) (hj : j ≤ k) :
    Below limit symcnt j := fun l hl => by have := h l hl; omega

theorem Below.not_reached {limit : Option Word} {symcnt : Word} {k : Nat} (h : Below limit symcnt k) :
    limitReached limit symcnt = false := by
  cases limit with
  | none => rfl
  | some l =>
    have := h l rfl
    simp only [limitReached, beq_eq_false_iff_ne, ne_eq, Option.some.injEq]
    rintro rfl; omega

theorem limitReached_self (l : Word) : limitReached (some l) l = true := by simp [limitReached]

theorem toNat_add_of_lt {v l : Word} {k : Nat} (h : v.toNat + k ≤ l.toNat) :
    (v + BitVec.ofNat 32 k).toNat = v.toNat + k := by
  have := l.isLt
  simp only [BitVec.toNat_add, BitVec.toNat_ofNat]
  omega

theorem Below.succ {limit : Option Word} {symcnt : Word} {k : Nat} (h : Below limit symcnt (k + 1)) :
    Below limit (symcnt + 1#32) k := fun l hl => by
  have h1 := h l hl
  have := toNat_add_of_lt (v := symcnt) (l := l) (k := 1) (by omega)
  change (symcnt + 1#32).toNat + k < l.toNat
  omega

@[simp] theorem Unpacker.moved_zero (d : Unpacker) : d.moved 0 [] d.dcur = d := by simp [Unpacker.moved]

theorem Unpacker.moved_moved (d : Unpacker) (m n : Nat) (as bs : List Byte) (i j : Idx) :
    (d.moved m as i).moved n bs j = d.moved (m + n) (as ++ bs) j := by
  simp only [Unpacker.moved, Sink.after_after, List.length_append, BitVec.ofNat_add, BitVec.shiftLeft_add,
    Unpacker.mk.injEq, true_and]
  constructor
  · exact BitVec.add_assoc _ _ _
  · simp only [BitVec.sub_eq_add_neg, BitVec.neg_add]
    exact BitVec.add_assoc _ _ _

/-- The node one bit leads to. -/
def Unpacker.next (t : DecodeTree) (d : Unpacker) : Idx := childBy (d.dsh.getLsbD 7) (nodeGet t.node d.dcur)

/-- A bit that leads to a Parent. -/
theorem decodeBit_inner {t : DecodeTree} {d : Unpacker} (h : isParent (nodeGet t.node (d.next t)) = true) :
    decodeBit t d = .done (d.moved 1 [] (d.next t)) := by
  rw [decodeBit, if_pos (show isParent (nodeGet t.node (takeBit t d).dcur) = true from h)]
  simp [takeBit, Unpacker.moved, Unpacker.next]

/-- A bit that leads to a leaf whose symbol the sink accepts. -/
theorem decodeBit_leaf {t : DecodeTree} {d : Unpacker} (h : isParent (nodeGet t.node (d.next t)) = false)
    (hs : d.sink.nth 0 = .ok) :
    decodeBit t d = .done (d.moved 1 [leafSym (nodeGet t.node (d.next t))] t.root) := by
  rw [decodeBit, if_neg (by simp only [takeBit]; exact ne_true_of_eq_false h), emitSymbol]
  simp only [takeBit, snkWrite_ok hs]
  rfl

/-- A bit that leads to a leaf whose symbol the sink refuses (R208). -/
theorem decodeBit_refused {t : DecodeTree} {d : Unpacker} (h : isParent (nodeGet t.node (d.next t)) = false)
    (hs : d.sink.nth 0 = .err) :
    decodeBit t d = .raised .ioError (zext32 (leafSym (nodeGet t.node (d.next t))))
      { d.moved 1 [] (d.next t) with sink := d.sink.past 1 } := by
  rw [decodeBit, if_neg (by simp only [takeBit]; exact ne_true_of_eq_false h), emitSymbol]
  simp only [takeBit, snkWrite_err hs]
  simp [Unpacker.moved, Unpacker.next]

/-- The symbols and the end of the greedy parse of the next n bits of DSH. -/
def Unpacker.parsed (t : DecodeTree) (d : Unpacker) (n : Nat) : List Byte × Idx :=
  parse t.node t.root d.dcur ((byteBits d.dsh).take n)

theorem Unpacker.parsed_inner {t : DecodeTree} {d : Unpacker} {n : Nat} (hn : n ≤ 7)
    (h : isParent (nodeGet t.node (d.next t)) = true) :
    d.parsed t (n + 1) = (d.moved 1 [] (d.next t)).parsed t n := by
  simp only [Unpacker.parsed, take_byteBits _ hn, parse]
  exact if_pos h

theorem Unpacker.parsed_leaf {t : DecodeTree} {d : Unpacker} {n : Nat} (hn : n ≤ 7)
    (h : isParent (nodeGet t.node (d.next t)) = false) (out : List Byte) :
    d.parsed t (n + 1) = (leafSym (nodeGet t.node (d.next t)) :: ((d.moved 1 out t.root).parsed t n).1,
      ((d.moved 1 out t.root).parsed t n).2) := by
  simp only [Unpacker.parsed, take_byteBits _ hn, parse]
  exact if_neg (ne_true_of_eq_false h)

/-! One byte -/

theorem Below.after_leaf {limit : Option Word} {d : Unpacker} {k : Nat} {r : Byte} {c : Idx}
    (h : Below limit d.symcnt (k + 1)) : Below limit (d.moved 1 [r] c).symcnt k := h.succ

theorem Sink.accepts_leaf {d : Unpacker} {k : Nat} {r : Byte} {c : Idx} (h : d.sink.accepts (k + 1)) :
    (d.moved 1 [r] c).sink.accepts k := Sink.accepts_after h (by simp; omega)

theorem moved_inner_symcnt (d : Unpacker) (c : Idx) : (d.moved 1 [] c).symcnt = d.symcnt := by simp [Unpacker.moved]

theorem moved_inner_sink (d : Unpacker) (c : Idx) : (d.moved 1 [] c).sink = d.sink := by simp [Unpacker.moved]

/-- Every bit is taken where the limit is not reached and every write is accepted. -/
theorem decodeByte_all {t : DecodeTree} : ∀ {n : Nat} {d : Unpacker}, n ≤ 8 →
    Below t.limit d.symcnt (d.parsed t n).1.length → d.sink.accepts (d.parsed t n).1.length →
    decodeByte t n d = .done (d.moved n (d.parsed t n).1 (d.parsed t n).2) := by
  intro n
  induction n with
  | zero => intro d _ _ _; simp [decodeByte, Unpacker.parsed, parse]
  | succ n ih =>
    intro d hn hl ha
    rw [decodeByte, hl.not_reached, if_neg (by simp)]
    cases h : isParent (nodeGet t.node (d.next t)) with
    | true =>
      rw [Unpacker.parsed_inner (by omega) h] at hl ha ⊢
      rw [decodeBit_inner h]
      simp only
      rw [ih (by omega) (by rwa [moved_inner_symcnt]) (by rwa [moved_inner_sink]), Unpacker.moved_moved, Nat.add_comm 1]
      rfl
    | false =>
      rw [Unpacker.parsed_leaf (by omega) h [leafSym (nodeGet t.node (d.next t))]] at hl ha ⊢
      rw [decodeBit_leaf h (ha 0 (by simp))]
      simp only
      rw [ih (by omega) (Below.after_leaf hl) (Sink.accepts_leaf ha), Unpacker.moved_moved, Nat.add_comm 1]
      rfl

/-- The limit ends the loop inside a byte, right after a leaf (R211). -/
theorem decodeByte_limit {t : DecodeTree} {l : Word} (ht : t.limit = some l) : ∀ {n : Nat} {d : Unpacker} {k : Nat},
    n ≤ 8 → d.symcnt.toNat + k = l.toNat → k ≤ (d.parsed t n).1.length → (k = 0 → d.dcur = t.root) → d.sink.accepts k →
    ∃ m ≤ n, (0 < k → 0 < m) ∧ decodeByte t n d = .done (d.moved m ((d.parsed t n).1.take k) t.root) := by
  intro n
  induction n with
  | zero =>
    intro d k _ _ hk hr _
    have h0 : k = 0 := by simpa [Unpacker.parsed, parse] using hk
    refine ⟨0, Nat.le_refl _, by omega, ?_⟩
    rw [h0, List.take_zero, ← hr h0, Unpacker.moved_zero]; rfl
  | succ n ih =>
    intro d k hn hs hk hr ha
    cases k with
    | zero =>
      refine ⟨0, Nat.zero_le _, by omega, ?_⟩
      obtain rfl : d.symcnt = l := BitVec.eq_of_toNat_eq (by simpa using hs)
      rw [decodeByte, ht, limitReached_self, if_pos rfl, List.take_zero, ← hr rfl, Unpacker.moved_zero]
    | succ k =>
      have hb : Below t.limit d.symcnt k := fun l' hl' => by
        obtain rfl : l = l' := Option.some.inj (ht.symm.trans hl')
        omega
      rw [decodeByte, hb.not_reached, if_neg (by simp)]
      cases h : isParent (nodeGet t.node (d.next t)) with
      | true =>
        rw [Unpacker.parsed_inner (by omega) h] at hk ⊢
        rw [decodeBit_inner h]
        obtain ⟨m, hm, -, he⟩ := ih (d := d.moved 1 [] (d.next t)) (k := k + 1) (by omega) (by rwa [moved_inner_symcnt]) hk
          (by omega) (by rwa [moved_inner_sink])
        refine ⟨m + 1, by omega, fun _ => Nat.succ_pos m, ?_⟩
        simp only [he, Unpacker.moved_moved, Nat.add_comm 1, List.nil_append]
      | false =>
        rw [Unpacker.parsed_leaf (by omega) h [leafSym (nodeGet t.node (d.next t))]] at hk ⊢
        rw [decodeBit_leaf h (ha 0 (by omega))]
        have hs' := toNat_add_of_lt (v := d.symcnt) (l := l) (k := 1) (by omega)
        obtain ⟨m, hm, -, he⟩ := ih (d := d.moved 1 [leafSym (nodeGet t.node (d.next t))] t.root) (k := k) (by omega)
          (by
            change (d.symcnt + BitVec.ofNat 32 1).toNat + k = l.toNat
            omega)
          (by simpa using hk) (fun _ => rfl) (Sink.accepts_leaf ha)
        refine ⟨m + 1, by omega, fun _ => Nat.succ_pos m, ?_⟩
        simp only [he, Unpacker.moved_moved, Nat.add_comm 1, List.take_succ_cons, List.singleton_append]

/-- A refused write inside a byte (R208): j symbols were accepted, the walk stands at the leaf of the next one. -/
structure RefusedAt (t : DecodeTree) (d d' : Unpacker) (j : Nat) (out : List Byte) (m : Nat) : Prop where
  symbol : out[j]? = some (leafSym (nodeGet t.node d'.dcur))
  leaf : isParent (nodeGet t.node d'.dcur) = false
  rest : d' = { d.moved m (out.take j) d'.dcur with sink := (d.sink.after (out.take j)).past 1 }

theorem decodeByte_refused {t : DecodeTree} : ∀ {n : Nat} {d : Unpacker} {j : Nat}, n ≤ 8 →
    Below t.limit d.symcnt j → j < (d.parsed t n).1.length → d.sink.accepts j → d.sink.nth j = .err →
    ∃ d', ∃ m ≤ n, decodeByte t n d = .raised .ioError (zext32 (leafSym (nodeGet t.node d'.dcur))) d' ∧
      RefusedAt t d d' j (d.parsed t n).1 m := by
  intro n
  induction n with
  | zero => intro d j _ _ hj; simp [Unpacker.parsed, parse] at hj
  | succ n ih =>
    intro d j hn hl hj ha he
    rw [decodeByte, hl.not_reached, if_neg (by simp)]
    cases h : isParent (nodeGet t.node (d.next t)) with
    | true =>
      rw [Unpacker.parsed_inner (by omega) h] at hj ⊢
      rw [decodeBit_inner h]
      obtain ⟨d', m, hm, hd, hr⟩ := ih (d := d.moved 1 [] (d.next t)) (j := j) (by omega) (by rwa [moved_inner_symcnt]) hj
        (by rwa [moved_inner_sink]) (by rwa [moved_inner_sink])
      refine ⟨d', m + 1, by omega, by simp only [hd], hr.symbol, hr.leaf, ?_⟩
      have := hr.rest
      rwa [Unpacker.moved_moved, moved_inner_sink, List.nil_append, Nat.add_comm 1] at this
    | false =>
      cases j with
      | zero =>
        rw [Unpacker.parsed_leaf (by omega) h [leafSym (nodeGet t.node (d.next t))]] at hj ⊢
        rw [decodeBit_refused h he]
        refine ⟨{ d.moved 1 [] (d.next t) with sink := d.sink.past 1 }, 1, by omega, rfl, ⟨rfl, h, ?_⟩⟩
        rw [List.take_zero, Sink.after_nil]
        rfl
      | succ j =>
        rw [Unpacker.parsed_leaf (by omega) h [leafSym (nodeGet t.node (d.next t))]] at hj ⊢
        rw [decodeBit_leaf h (ha 0 (by omega))]
        obtain ⟨d', m, hm, hd, hr⟩ := ih (d := d.moved 1 [leafSym (nodeGet t.node (d.next t))] t.root) (j := j) (by omega)
          (Below.after_leaf hl) (by simpa using hj) (Sink.accepts_leaf ha) (by
            change (d.sink.after _).nth j = _
            rw [Sink.nth_after, List.length_singleton, Nat.add_comm]; exact he)
        refine ⟨d', m + 1, by omega, by simp only [hd], hr.symbol, hr.leaf, ?_⟩
        have := hr.rest
        rw [Unpacker.moved_moved, Nat.add_comm 1] at this
        rw [List.take_succ_cons]
        refine this.trans ?_
        rw [show (d.moved 1 [leafSym (nodeGet t.node (d.next t))] t.root).sink = d.sink.after _ from rfl, Sink.after_after]
        rfl

/-! The loop over the input -/

/-- The symbols and the end of the greedy parse of a byte stream from node `cur`. -/
def DecodeTree.parsed (t : DecodeTree) (cur : Idx) (bytes : List Byte) : List Byte × Idx :=
  parse t.node t.root cur (streamBits bytes)

@[simp] theorem DecodeTree.parsed_nil (t : DecodeTree) (cur : Idx) : t.parsed cur [] = ([], cur) := rfl

theorem DecodeTree.parsed_cons (t : DecodeTree) (cur : Idx) (r : Byte) (bs : List Byte) :
    t.parsed cur (r :: bs) = ((t.parsed cur [r]).1 ++ (t.parsed (t.parsed cur [r]).2 bs).1,
      (t.parsed (t.parsed cur [r]).2 bs).2) := by
  simp only [DecodeTree.parsed, streamBits_cons, streamBits_nil, List.append_nil, parse_append]

/-- The unpacker refilled with byte r. -/
def Unpacker.refill (d : Unpacker) (r : Byte) : Unpacker := { d with dsh := r, dcnt := 8#4 }

theorem Unpacker.parsed_refill (t : DecodeTree) (d : Unpacker) (r : Byte) :
    (d.refill r).parsed t 8 = t.parsed d.dcur [r] := by
  simp only [Unpacker.parsed, Unpacker.refill, DecodeTree.parsed, streamBits_cons, streamBits_nil, List.append_nil]
  rw [List.take_of_length_le (by simp)]

/-- The Decoder's registers between two bytes: nothing is left in the unpacker. -/
def Unpacker.between (d : Unpacker) (out : List Byte) (cur : Idx) : Unpacker :=
  ⟨d.sink.after out, d.symcnt + BitVec.ofNat 32 out.length, cur, 0#8, 0#4⟩

theorem Unpacker.moved_refill (d : Unpacker) (r : Byte) (out : List Byte) (cur : Idx) :
    (d.refill r).moved 8 out cur = d.between out cur := by
  simp only [Unpacker.moved, Unpacker.refill, Unpacker.between, Unpacker.mk.injEq, true_and]
  exact ⟨by ext i hi; simp, rfl⟩

theorem Unpacker.between_between (d : Unpacker) (as bs : List Byte) (i j : Idx) :
    (d.between as i).between bs j = d.between (as ++ bs) j := by
  simp only [Unpacker.between, Sink.after_after, List.length_append, BitVec.ofNat_add, BitVec.add_assoc]

theorem Below.between {limit : Option Word} {d : Unpacker} {as : List Byte} {k : Nat} {c : Idx}
    (h : Below limit d.symcnt (as.length + k)) : Below limit (d.between as c).symcnt k := fun l hl => by
  have h1 := h l hl
  have := toNat_add_of_lt (v := d.symcnt) (l := l) (k := as.length) (by omega)
  change (d.symcnt + BitVec.ofNat 32 as.length).toNat + k < l.toNat
  omega

theorem decodeLoop_done {t : DecodeTree} {r : Byte} {bs : List Byte} {d d' : Unpacker}
    (hl : limitReached t.limit d.symcnt = false) (hd : decodeByte t 8 (d.refill r) = .done d') :
    decodeLoop t (r :: bs) d = decodeLoop t bs d' := by
  rw [decodeLoop, hl, if_neg (by simp), show (⟨d.sink, d.symcnt, d.dcur, r, 8#4⟩ : Unpacker) = d.refill r from rfl, hd]

theorem decodeLoop_raised {t : DecodeTree} {r : Byte} {bs : List Byte} {d d' : Unpacker} {c : Cause} {v : Word}
    (hl : limitReached t.limit d.symcnt = false) (hd : decodeByte t 8 (d.refill r) = .raised c v d') :
    decodeLoop t (r :: bs) d = .raised c v (d', bs) := by
  rw [decodeLoop, hl, if_neg (by simp), show (⟨d.sink, d.symcnt, d.dcur, r, 8#4⟩ : Unpacker) = d.refill r from rfl, hd]

/-- The whole input is decoded where the limit is not reached and every write is accepted (R206, R213). -/
theorem decodeLoop_all {t : DecodeTree} : ∀ {bs : List Byte} {d : Unpacker}, d.dsh = 0#8 → d.dcnt = 0#4 →
    Below t.limit d.symcnt (t.parsed d.dcur bs).1.length → d.sink.accepts (t.parsed d.dcur bs).1.length →
    decodeLoop t bs d = .done (d.between (t.parsed d.dcur bs).1 (t.parsed d.dcur bs).2, []) := by
  intro bs
  induction bs with
  | nil =>
    intro d h1 h2 _ _
    simp only [decodeLoop, DecodeTree.parsed_nil, Unpacker.between, Sink.after_nil, ← h1, ← h2]
    simp
  | cons r bs ih =>
    intro d h1 h2 hl ha
    rw [DecodeTree.parsed_cons, List.length_append] at hl ha
    have hp := Unpacker.parsed_refill t d r
    have hone := decodeByte_all (t := t) (n := 8) (d := d.refill r) (Nat.le_refl 8)
      (by rw [hp]; exact hl.mono (by omega)) (by rw [hp]; exact Sink.accepts_mono ha (by omega))
    rw [hp, Unpacker.moved_refill] at hone
    rw [decodeLoop_done hl.not_reached hone, ih rfl rfl (Below.between hl) (Sink.accepts_after ha (Nat.le_refl _)), Unpacker.between_between,
      DecodeTree.parsed_cons t d.dcur r bs]
    rfl

/-- m bytes are needed for k symbols: the first m have them and no fewer do. -/
def Needs (t : DecodeTree) (cur : Idx) (bytes : List Byte) (k m : Nat) : Prop :=
  k ≤ (t.parsed cur (bytes.take m)).1.length ∧ ∀ m' < m, (t.parsed cur (bytes.take m')).1.length < k

theorem Needs.succ {t : DecodeTree} {cur : Idx} {r : Byte} {bs : List Byte} {k m : Nat}
    (h : Needs t (t.parsed cur [r]).2 bs k m) (hk : 0 < k) :
    Needs t cur (r :: bs) ((t.parsed cur [r]).1.length + k) (m + 1) := by
  constructor
  · rw [List.take_succ_cons, DecodeTree.parsed_cons t cur r (bs.take m), List.length_append]
    exact Nat.add_le_add_left h.1 _
  · intro m' hm'
    cases m' with
    | zero => simp; omega
    | succ m' =>
      rw [List.take_succ_cons, DecodeTree.parsed_cons t cur r (bs.take m'), List.length_append]
      exact Nat.add_lt_add_left (h.2 m' (by omega)) _

theorem Needs.one {t : DecodeTree} {cur : Idx} {r : Byte} {bs : List Byte} {k : Nat}
    (hk : 0 < k) (h : k ≤ (t.parsed cur [r]).1.length) : Needs t cur (r :: bs) k 1 := by
  constructor
  · simpa using h
  · intro m' hm'
    obtain rfl : m' = 0 := by omega
    simpa using hk

/-- The limit ends the loop (R207, R211): the first k symbols are written and the bytes not needed for them stay. -/
theorem decodeLoop_limit {t : DecodeTree} {l : Word} (ht : t.limit = some l) : ∀ {bs : List Byte} {d : Unpacker} {k : Nat},
    d.dcnt = 0#4 → d.symcnt.toNat + k = l.toNat → k ≤ (t.parsed d.dcur bs).1.length → (k = 0 → d.dcur = t.root) →
    d.sink.accepts k →
    ∃ d' m, decodeLoop t bs d = .done (d', bs.drop m) ∧ Needs t d.dcur bs k m ∧
      d'.sink = d.sink.after ((t.parsed d.dcur bs).1.take k) ∧ d'.symcnt = l ∧ d'.dcur = t.root ∧ d'.dcnt.toNat ≤ 7 := by
  intro bs
  induction bs with
  | nil =>
    intro d k h2 hs hk hr _
    obtain rfl : k = 0 := by simpa using hk
    refine ⟨d, 0, rfl, ⟨Nat.zero_le _, fun _ h => absurd h (by omega)⟩, by simp, ?_, hr rfl, by rw [h2]; decide⟩
    exact BitVec.eq_of_toNat_eq (by simpa using hs)
  | cons r bs ih =>
    intro d k h2 hs hk hr ha
    rcases Nat.eq_zero_or_pos k with rfl | hpos
    · refine ⟨d, 0, ?_, ⟨Nat.zero_le _, fun _ h => absurd h (by omega)⟩, by simp, ?_, hr rfl, by rw [h2]; decide⟩
      · obtain rfl : d.symcnt = l := BitVec.eq_of_toNat_eq (by simpa using hs)
        rw [decodeLoop, ht, limitReached_self, if_pos rfl]; rfl
      · exact BitVec.eq_of_toNat_eq (by simpa using hs)
    · have hb : Below t.limit d.symcnt (k - 1) := fun l' hl' => by
        obtain rfl : l = l' := Option.some.inj (ht.symm.trans hl')
        omega
      have hp := Unpacker.parsed_refill t d r
      rcases Nat.lt_or_ge (t.parsed d.dcur [r]).1.length k with hlt | hge
      · have hone := decodeByte_all (t := t) (n := 8) (d := d.refill r) (Nat.le_refl 8)
          (by rw [hp]; exact hb.mono (by omega)) (by rw [hp]; exact Sink.accepts_mono ha (by omega))
        rw [hp, Unpacker.moved_refill] at hone
        rw [decodeLoop_done hb.not_reached hone]
        rw [DecodeTree.parsed_cons t d.dcur r bs, List.length_append] at hk
        have hsym := toNat_add_of_lt (v := d.symcnt) (l := l) (k := (t.parsed d.dcur [r]).1.length) (by omega)
        obtain ⟨d', m, hd, hn, h3, h4, h5, h6⟩ := ih (d := d.between (t.parsed d.dcur [r]).1 (t.parsed d.dcur [r]).2)
          (k := k - (t.parsed d.dcur [r]).1.length) rfl (by
            change (d.symcnt + BitVec.ofNat 32 _).toNat + _ = _
            omega)
          (by change _ ≤ (t.parsed (t.parsed d.dcur [r]).2 bs).1.length; omega) (by omega)
          (Sink.accepts_after ha (by omega))
        refine ⟨d', m + 1, hd, ?_, ?_, h4, h5, h6⟩
        · have := Needs.succ hn (by omega)
          rwa [Nat.add_sub_cancel' (by omega)] at this
        · rw [h3, DecodeTree.parsed_cons t d.dcur r bs, List.take_append,
            List.take_of_length_le (l := (t.parsed d.dcur [r]).1) (by omega)]
          exact Sink.after_after _ _ _
      · obtain ⟨m, hm, hm0, hd⟩ := decodeByte_limit (t := t) ht (n := 8) (d := d.refill r) (k := k) (Nat.le_refl 8) hs
          (by rw [hp]; exact hge) hr ha
        have hlen : ((Unpacker.parsed t (d.refill r) 8).1.take k).length = k := by
          rw [hp, List.length_take]; omega
        refine ⟨(d.refill r).moved m ((Unpacker.parsed t (d.refill r) 8).1.take k) t.root, 1, ?_, Needs.one hpos hge, ?_, ?_,
          rfl, ?_⟩
        · rw [decodeLoop_done hb.not_reached hd]
          cases bs with
          | nil => rfl
          | cons r' bs =>
            rw [decodeLoop, ht, if_pos]
            · rfl
            · change limitReached (some l) (d.symcnt + BitVec.ofNat 32 _) = true
              rw [hlen, show d.symcnt + BitVec.ofNat 32 k = l from
                BitVec.eq_of_toNat_eq (by rw [toNat_add_of_lt (l := l) (by omega)]; exact hs)]
              exact limitReached_self l
        · rw [hp, DecodeTree.parsed_cons t d.dcur r bs, List.take_append_of_le_length hge]; rfl
        · change d.symcnt + BitVec.ofNat 32 _ = l
          rw [hlen]
          exact BitVec.eq_of_toNat_eq (by rw [toNat_add_of_lt (l := l) (by omega)]; exact hs)
        · change (8#4 - BitVec.ofNat 4 m).toNat ≤ 7
          have := hm0 hpos
          simp only [BitVec.toNat_sub, BitVec.toNat_ofNat]
          omega

/-- A refused write ends the loop (R208). -/
theorem decodeLoop_refused {t : DecodeTree} : ∀ {bs : List Byte} {d : Unpacker} {j : Nat},
    Below t.limit d.symcnt j → j < (t.parsed d.dcur bs).1.length → d.sink.accepts j → d.sink.nth j = .err →
    ∃ d' m, decodeLoop t bs d = .raised .ioError (zext32 (leafSym (nodeGet t.node d'.dcur))) (d', bs.drop m) ∧
      Needs t d.dcur bs (j + 1) m ∧ (t.parsed d.dcur bs).1[j]? = some (leafSym (nodeGet t.node d'.dcur)) ∧
      isParent (nodeGet t.node d'.dcur) = false ∧ d'.sink = (d.sink.after ((t.parsed d.dcur bs).1.take j)).past 1 ∧
      d'.symcnt = d.symcnt + BitVec.ofNat 32 j := by
  intro bs
  induction bs with
  | nil => intro d j _ hj; simp at hj
  | cons r bs ih =>
    intro d j hl hj ha he
    have hp := Unpacker.parsed_refill t d r
    rcases Nat.lt_or_ge j (t.parsed d.dcur [r]).1.length with hlt | hge
    · obtain ⟨d', m, hm, hd, hr⟩ := decodeByte_refused (t := t) (n := 8) (d := d.refill r) (j := j) (Nat.le_refl 8) hl
        (by rw [hp]; exact hlt) ha he
      rw [hp] at hr
      refine ⟨d', 1, decodeLoop_raised hl.not_reached hd, Needs.one (by omega) hlt, ?_, hr.leaf, ?_, ?_⟩
      · rw [DecodeTree.parsed_cons t d.dcur r bs, List.getElem?_append_left hlt, hr.symbol]
      · rw [DecodeTree.parsed_cons t d.dcur r bs, List.take_append_of_le_length (Nat.le_of_lt hlt)]
        exact congrArg Unpacker.sink hr.rest
      · refine (congrArg Unpacker.symcnt hr.rest).trans ?_
        change d.symcnt + BitVec.ofNat 32 _ = _
        rw [List.length_take, Nat.min_eq_left (Nat.le_of_lt hlt)]
    · have hone := decodeByte_all (t := t) (n := 8) (d := d.refill r) (Nat.le_refl 8)
        (by rw [hp]; exact hl.mono hge) (by rw [hp]; exact Sink.accepts_mono ha hge)
      rw [hp, Unpacker.moved_refill] at hone
      rw [decodeLoop_done hl.not_reached hone]
      rw [DecodeTree.parsed_cons t d.dcur r bs, List.length_append] at hj
      obtain ⟨k, rfl⟩ := Nat.exists_eq_add_of_le hge
      obtain ⟨d', m, hd, hn, h3, h4, h5, h6⟩ := ih (d := d.between (t.parsed d.dcur [r]).1 (t.parsed d.dcur [r]).2)
        (j := k) (Below.between hl) (by change k < (t.parsed (t.parsed d.dcur [r]).2 bs).1.length; omega)
        (Sink.accepts_after ha (Nat.le_refl _)) ((Sink.nth_after _ _ _).trans he)
      refine ⟨d', m + 1, hd, Needs.succ hn (Nat.succ_pos k), ?_, h4, ?_, ?_⟩
      · rw [DecodeTree.parsed_cons t d.dcur r bs, List.getElem?_append_right hge, Nat.add_sub_cancel_left]
        exact h3
      · rw [h5, DecodeTree.parsed_cons t d.dcur r bs, List.take_append, List.take_of_length_le hge, Nat.add_sub_cancel_left]
        exact congrArg (Sink.past · 1) (Sink.after_after _ _ _)
      · rw [h6, BitVec.ofNat_add, ← BitVec.add_assoc]; rfl

/-- Where the loop of a decode command starts (R201). -/
structure Starts (t : DecodeTree) (d : Unpacker) : Prop where
  dsh : d.dsh = 0#8
  dcnt : d.dcnt = 0#4
  symcnt : d.symcnt = 0#32
  dcur : d.dcur = t.root

theorem Starts.below_some {t : DecodeTree} {d : Unpacker} (h : Starts t d) {l : Word} (ht : t.limit = some l) {k : Nat}
    (hk : k < l.toNat) : Below t.limit d.symcnt k := fun l' hl' => by
  obtain rfl : l = l' := Option.some.inj (ht.symm.trans hl')
  simp [h.symcnt, hk]

theorem Starts.below_none {t : DecodeTree} {d : Unpacker} (ht : t.limit = none) (k : Nat) : Below t.limit d.symcnt k :=
  fun l hl => by rw [ht] at hl; cases hl

/-- How the loop of a decode command ends: at the end of the input, at the limit, or at a refused write. -/
theorem decodeLoop_cases (t : DecodeTree) (bs : List Byte) {d : Unpacker} (h : Starts t d) :
    decodeLoop t bs d = .done (d.between (t.parsed t.root bs).1 (t.parsed t.root bs).2, []) ∨
    (∃ l d' m, t.limit = some l ∧ decodeLoop t bs d = .done (d', bs.drop m) ∧ Needs t t.root bs l.toNat m ∧
      d'.sink = d.sink.after ((t.parsed t.root bs).1.take l.toNat) ∧ d'.symcnt = l ∧ d'.dcur = t.root ∧
      d'.dcnt.toNat ≤ 7) ∨
    ∃ j d' m, decodeLoop t bs d = .raised .ioError (zext32 (leafSym (nodeGet t.node d'.dcur))) (d', bs.drop m) ∧
      Needs t t.root bs (j + 1) m ∧ (t.parsed t.root bs).1[j]? = some (leafSym (nodeGet t.node d'.dcur)) ∧
      isParent (nodeGet t.node d'.dcur) = false ∧ d'.sink = (d.sink.after ((t.parsed t.root bs).1.take j)).past 1 ∧
      d'.symcnt = BitVec.ofNat 32 j := by
  have all : Below t.limit d.symcnt (t.parsed t.root bs).1.length → d.sink.accepts (t.parsed t.root bs).1.length →
      decodeLoop t bs d = .done (d.between (t.parsed t.root bs).1 (t.parsed t.root bs).2, []) := by
    rw [← h.dcur]; exact decodeLoop_all h.dsh h.dcnt
  have refused : ∀ {j}, Below t.limit d.symcnt j → j < (t.parsed t.root bs).1.length → d.sink.accepts j →
      d.sink.nth j = .err →
      ∃ d' m, decodeLoop t bs d = .raised .ioError (zext32 (leafSym (nodeGet t.node d'.dcur))) (d', bs.drop m) ∧
        Needs t t.root bs (j + 1) m ∧ (t.parsed t.root bs).1[j]? = some (leafSym (nodeGet t.node d'.dcur)) ∧
        isParent (nodeGet t.node d'.dcur) = false ∧ d'.sink = (d.sink.after ((t.parsed t.root bs).1.take j)).past 1 ∧
        d'.symcnt = BitVec.ofNat 32 j := by
    intro j h1 h2 h3 h4
    rw [← h.dcur] at h2 ⊢
    obtain ⟨d', m, q1, q2, q3, q4, q5, q6⟩ := decodeLoop_refused h1 h2 h3 h4
    exact ⟨d', m, q1, q2, q3, q4, q5, by simpa [h.symcnt] using q6⟩
  cases ht : t.limit with
  | none =>
    rcases Sink.accepts_or d.sink (t.parsed t.root bs).1.length with ha | ⟨m, hm, ha, he⟩
    · exact .inl (all (Starts.below_none ht _) ha)
    · obtain ⟨d', m', q⟩ := refused (Starts.below_none ht _) hm ha he
      exact .inr (.inr ⟨m, d', m', q⟩)
  | some l =>
    rcases Nat.lt_or_ge (t.parsed t.root bs).1.length l.toNat with hlt | hge
    · rcases Sink.accepts_or d.sink (t.parsed t.root bs).1.length with ha | ⟨m, hm, ha, he⟩
      · exact .inl (all (h.below_some ht hlt) ha)
      · obtain ⟨d', m', q⟩ := refused (h.below_some ht (by omega)) hm ha he
        exact .inr (.inr ⟨m, d', m', q⟩)
    · rcases Sink.accepts_or d.sink l.toNat with ha | ⟨m, hm, ha, he⟩
      · have := decodeLoop_limit ht h.dcnt (k := l.toNat) (bs := bs) (by simp [h.symcnt]) (by rw [h.dcur]; exact hge)
          (fun _ => h.dcur) ha
        rw [h.dcur] at this
        obtain ⟨d', m, q⟩ := this
        exact .inr (.inl ⟨l, d', m, rfl, q⟩)
      · obtain ⟨d', m', q⟩ := refused (h.below_some ht (by omega)) (by omega) ha he
        exact .inr (.inr ⟨m, d', m', q⟩)

end Sys2Proof.Machine
end

