-- ==== Sys2Proof/Laws/Gencode.lean ====
section
/-! SUPPORT. What the walk of GENCODE writes (42_gencode.md R160 to R165), and the code table it leaves (10_state.md R45). -/

namespace Sys2Proof.Machine

/-- A code entry holds exactly the string l: its length, its bits in path order, zeros above. -/
structure CodeEntry.Holds (c : CodeEntry) (l : List Bool) : Prop where
  len : c.len.toNat = l.length
  bits : ∀ m, c.bits.getLsbD m = l.getD m false

/-- The register PATH holds the string l, zeros above. -/
def PathHolds (p : PathBits) (l : List Bool) : Prop := ∀ m, p.getLsbD m = l.getD m false

theorem PathHolds.nil : PathHolds 0#255 [] := by intro m; simp

theorem PathHolds.false {p : PathBits} {l : List Bool} (h : PathHolds p l) : PathHolds p (l ++ [false]) := by
  intro m
  rw [h m]
  rcases Nat.lt_trichotomy m l.length with hm | rfl | hm
  · simp [List.getD_eq_getElem?_getD, List.getElem?_append_left hm]
  · simp [List.getD_eq_getElem?_getD]
  · simp [List.getD_eq_getElem?_getD, List.getElem?_append_right (Nat.le_of_lt hm), Nat.le_of_lt hm,
      Nat.sub_ne_zero_of_lt hm]

theorem PathHolds.true {p : PathBits} {l : List Bool} (h : PathHolds p l) (hl : l.length < 255) :
    PathHolds (writeBit p l.length true) (l ++ [true]) := by
  intro m
  rw [getLsbD_writeBit, h m]
  rcases Nat.lt_trichotomy m l.length with hm | rfl | hm
  · simp [List.getD_eq_getElem?_getD, List.getElem?_append_left hm, Nat.ne_of_lt hm]
  · simp [List.getD_eq_getElem?_getD, hl]
  · simp [List.getD_eq_getElem?_getD, List.getElem?_append_right (Nat.le_of_lt hm), Nat.le_of_lt hm,
      Nat.sub_ne_zero_of_lt hm, Nat.ne_of_gt hm]

theorem PathHolds.entry {p : PathBits} {l : List Bool} (h : PathHolds p l) (hl : l.length ≤ 255) :
    (CodeEntry.ofPath l.length p).Holds l := ⟨CodeEntry.ofPath_len p hl, h⟩

theorem CodeEntry.Holds.string {c : CodeEntry} {l : List Bool} (h : c.Holds l) : c.string = l := by
  apply List.ext_getElem
  · simp [h.len]
  · intro m h1 h2
    simp [CodeEntry.string, h.bits, List.getD_eq_getElem?_getD, h2]

theorem CodeEntry.Holds.clear {c : CodeEntry} {l : List Bool} (h : c.Holds l) {m : Nat} (hm : c.len.toNat ≤ m) :
    c.bits.getLsbD m = Bool.false := by
  rw [h.bits, List.getD_eq_getElem?_getD, List.getElem?_eq_none (by rw [← h.len]; exact hm)]
  rfl

/-- What the visit of node i, reached by the string l, writes: every leaf below i gets its whole path, no other entry
changes. -/
structure Visited (s : State) (i : Idx) (l : List Bool) (code code' : Vector CodeEntry 256) : Prop where
  below : ∀ j < s.nsyms, ∀ bs, leadsTo s.node i bs j →
    (symGet code' (leafSym (nodeGet s.node j))).Holds (l ++ bs)
  other : ∀ sym, (¬ ∃ j < s.nsyms, (∃ bs, leadsTo s.node i bs j) ∧ leafSym (nodeGet s.node j) = sym) →
    symGet code' sym = symGet code sym

/-- The visit of a leaf writes its one entry. -/
theorem visited_leaf {s : State} (h : TreeOk s) {i : Idx} {path : PathBits} {code : Vector CodeEntry 256} {l : List Bool}
    (hi : i < s.nnodes) (hl : l.length ≤ 255) (hp : PathHolds path l) (hnp : isParent (nodeGet s.node i) = Bool.false) :
    Visited s i l code (symSet code (leafSym (nodeGet s.node i)) (.ofPath l.length path)) := by
  have hlt : i < s.nsyms := by
    by_contra hge
    have := (h.isParent_iff hi).2 ⟨by simp only [BitVec.lt_def, BitVec.le_def] at *; omega, hi⟩
    rw [hnp] at this; cases this
  have stay : ∀ bs j, leadsTo s.node i bs j → bs = [] ∧ i = j := by
    intro bs j hw
    cases bs with
    | nil => exact ⟨rfl, hw⟩
    | cons b bs => rw [hw.1] at hnp; cases hnp
  refine ⟨fun j _ bs hw => ?_, fun sym hno => ?_⟩
  · obtain ⟨rfl, rfl⟩ := stay bs j hw
    rw [symGet_symSet_self, List.append_nil]
    exact hp.entry hl
  · exact symGet_symSet_of_ne _ _ fun e => hno ⟨i, hlt, ⟨[], rfl⟩, e⟩

/-- The visit of a node of the tree never raises: a Parent never stands at depth 255 (R164). -/
theorem visit_spec {s : State} (h : TreeOk s) (room : Nat) (i : Idx) (path : PathBits) (stk : List Idx)
    (code : Vector CodeEntry 256) (l : List Bool) (hi : i < s.nnodes) (hl : l.length + room = 255)
    (hroom : i.toNat < s.nsyms.toNat + room) (hp : PathHolds path l) :
    ∃ code', visit s.node room i path stk code = .done ⟨code', path, l.length, stk⟩ ∧ Visited s i l code code' := by
  induction room generalizing i path stk code l with
  | zero =>
    have hnp : isParent (nodeGet s.node i) = Bool.false := by
      by_contra hpar
      have := ((h.isParent_iff hi).1 (by simpa using hpar)).1
      simp only [BitVec.le_def] at this; omega
    have hl' : Config.maxLen = l.length := by simp only [Config.maxLen]; omega
    refine ⟨_, ?_, visited_leaf h hi (by omega) hp hnp⟩
    simp only [visit, hnp, hl', Bool.false_eq_true, if_false]
  | succ room ih =>
    have hl' : Config.maxLen - (room + 1) = l.length := by simp only [Config.maxLen]; omega
    cases hpar : isParent (nodeGet s.node i) with
    | false =>
      refine ⟨_, ?_, visited_leaf h hi (by omega) hp hpar⟩
      simp only [visit, hpar, hl', Bool.false_eq_true, if_false]
    | true =>
      have hin := (h.isParent_iff hi).1 hpar
      have hz : zeroChild (nodeGet s.node i) < i := by simpa [childBy] using h.child_lt hin Bool.false
      have ho : oneChild (nodeGet s.node i) < i := by simpa [childBy] using h.child_lt hin Bool.true
      obtain ⟨c1, e1, v1⟩ := ih (zeroChild (nodeGet s.node i)) path (i :: stk) code (l ++ [Bool.false])
        (BitVec.lt_trans hz hi) (by simp; omega) (by simp only [BitVec.lt_def] at hz; omega) hp.false
      obtain ⟨c2, e2, v2⟩ := ih (oneChild (nodeGet s.node i)) (writeBit path l.length Bool.true) (i :: stk) c1
        (l ++ [Bool.true]) (BitVec.lt_trans ho hi) (by simp; omega) (by simp only [BitVec.lt_def] at ho; omega)
        (hp.true (by omega))
      refine ⟨c2, by simp only [visit, hpar, if_true, hl', e1, e2], fun j hj bs hw => ?_, fun sym hno => ?_⟩
      · cases bs with
        | nil =>
          have := h.nsyms_lt_nnodes
          have := hin.1
          rw [← show i = j from hw] at hj
          simp only [BitVec.lt_def, BitVec.le_def] at *; omega
        | cons b bs =>
          have hw' := hw.2
          cases b with
          | true =>
            have := v2.below j hj bs (by simpa [childBy] using hw')
            simpa using this
          | false =>
            have hz' : leadsTo s.node (zeroChild (nodeGet s.node i)) bs j := by simpa [childBy] using hw'
            have := v1.below j hj bs hz'
            rw [← v2.other] at this
            · simpa using this
            · rintro ⟨q, hq, ⟨bs', hw2⟩, e⟩
              have hjq := h.leafSym_inj hq hj e
              subst hjq
              have hw3 : leadsTo s.node i (Bool.true :: bs') q := ⟨hpar, by simpa [childBy] using hw2⟩
              have := h.leadsTo_unique hi hw hw3
              simp at this
      · rw [v2.other, v1.other]
        · rintro ⟨j, hj, ⟨bs, hw⟩, e⟩
          exact hno ⟨j, hj, ⟨Bool.false :: bs, hpar, by simpa [childBy] using hw⟩, e⟩
        · rintro ⟨j, hj, ⟨bs, hw⟩, e⟩
          exact hno ⟨j, hj, ⟨Bool.true :: bs, hpar, by simpa [childBy] using hw⟩, e⟩

/-- On a tree the walk completes and ends with an empty path and stack. -/
theorem walkAll_spec {s : State} (h : TreeOk s) :
    ∃ code, walkAll s.node s.root = .done ⟨code, 0#255, 0, []⟩ ∧ Visited s s.root [] clearedCodes code := by
  have hsz := h.size
  exact visit_spec h 255 s.root 0#255 [] clearedCodes [] h.root_lt rfl (by omega) PathHolds.nil

/-- The code table of a walked tree (10_state.md R45 (a), (b); 42_gencode.md R161). -/
theorem visited_codesOk {s : State} (h : TreeOk s) {code : Vector CodeEntry 256}
    (hv : Visited s s.root [] clearedCodes code) : CodesOk { s with code := code } := by
  have hsz := h.size
  have leafEntry : ∀ j < s.nsyms, ∃ bs, leadsTo s.node s.root bs j ∧ bs ≠ [] ∧
      (symGet code (leafSym (nodeGet s.node j))).Holds bs := by
    intro j hj
    obtain ⟨bs, hbs⟩ := h.reached (BitVec.lt_trans hj h.nsyms_lt_nnodes)
    refine ⟨bs, hbs, ?_, by simpa using hv.below j hj bs hbs⟩
    rintro rfl
    rw [← show s.root = j from hbs] at hj
    simp only [BitVec.lt_def] at hj; omega
  have noLeaf : ∀ sym, (¬ ∃ j < s.nsyms, leafSym (nodeGet s.node j) = sym) → symGet code sym = .absent := by
    intro sym hno
    rw [hv.other sym, symGet_clearedCodes]
    rintro ⟨j, hj, -, e⟩
    exact hno ⟨j, hj, e⟩
  have coded : ∀ sym, (symGet code sym).len ≠ 0#8 ↔ ∃ j < s.nsyms, leafSym (nodeGet s.node j) = sym := by
    intro sym
    constructor
    · intro hne
      by_contra hno
      exact hne (by rw [noLeaf sym hno]; rfl)
    · rintro ⟨j, hj, rfl⟩ e
      obtain ⟨bs, -, hne, hh⟩ := leafEntry j hj
      have := hh.len
      rw [e] at this
      exact hne (List.eq_nil_of_length_eq_zero this.symm)
  refine ⟨coded, ?_, ?_, ?_⟩
  · intro sym hz
    by_contra hna
    have : ¬ ∃ j < s.nsyms, leafSym (nodeGet s.node j) = sym := fun hj => (coded sym).2 hj hz
    exact hna (noLeaf sym this)
  · intro j hj
    obtain ⟨bs, hbs, -, hh⟩ := leafEntry j hj
    change leadsTo s.node s.root (symGet code (leafSym (nodeGet s.node j))).string j
    rw [hh.string]; exact hbs
  · intro sym m hm
    change (symGet code sym).bits.getLsbD m = Bool.false
    by_cases hj : ∃ j < s.nsyms, leafSym (nodeGet s.node j) = sym
    · obtain ⟨j, hj, rfl⟩ := hj
      obtain ⟨bs, -, -, hh⟩ := leafEntry j hj
      exact hh.clear hm
    · rw [noLeaf sym hj]; simp

end Sys2Proof.Machine
end

