-- ==== Sys2Proof/Laws/Huffman.lean ====
section
/-! SUPPORT. The order of the merges, and why a heavier leaf is never deeper (41_build.md R141, R142). -/

namespace Sys2Proof.Machine

/-- What the order of `popmin` leaves in a finished arena: weights are exact, and a child of Parent i was before every node
that was still in the queue after that merge. -/
structure Ordered (s : State) : Prop where
  tree : TreeOk s
  first : ∀ i, s.isInner i → ∀ c, s.childOf c i → ∀ j < i, (¬ ∃ i' ≤ i, s.isInner i' ∧ s.childOf j i') →
    before s.wgt c j = true

namespace Ordered

variable {s : State} (h : Ordered s)
include h

theorem weight_le {i c j : Idx} (hi : s.isInner i) (hc : s.childOf c i) (hj : j < i)
    (hq : ¬ ∃ i' ≤ i, s.isInner i' ∧ s.childOf j i') : (wgtGet s.wgt c).toNat ≤ (wgtGet s.wgt j).toNat :=
  before_le s.wgt (h.first i hi c hc j hj hq)

/-- "WGT[k] <= WGT[k+1]": the next Parent weighs no less. -/
theorem succ_le {i : Idx} (hi : s.isInner i) (hi' : s.isInner (i + 1#9)) :
    (wgtGet s.wgt i).toNat ≤ (wgtGet s.wgt (i + 1#9)).toNat := by
  have hlt : (i + 1#9).toNat = i.toNat + 1 := by
    have h1 := hi.2
    have h2 := h.tree.size
    simp only [BitVec.lt_def, BitVec.toNat_add] at *
    simp; omega
  obtain ⟨z, o, hw, hz, ho, -, hsum⟩ := h.tree.parents i hi
  obtain ⟨z', o', hw', hz', ho', hne', hsum'⟩ := h.tree.parents (i + 1#9) hi'
  have cz : s.childOf z i := .inl (by rw [hw, zeroChild_parentWord])
  have co : s.childOf o i := .inr (by rw [hw, oneChild_parentWord])
  have cz' : s.childOf z' (i + 1#9) := .inl (by rw [hw', zeroChild_parentWord])
  have co' : s.childOf o' (i + 1#9) := .inr (by rw [hw', oneChild_parentWord])
  have key : ∀ c', s.childOf c' (i + 1#9) → c' < i + 1#9 → c' ≠ i → ∀ c, s.childOf c i →
      (wgtGet s.wgt c).toNat ≤ (wgtGet s.wgt c').toNat := by
    intro c' hc' hlt' hne c hc
    refine h.weight_le hi hc (j := c') ?_ ?_
    · have : c'.toNat ≠ i.toNat := fun e => hne (BitVec.eq_of_toNat_eq e)
      simp only [BitVec.lt_def, hlt] at *; omega
    · rintro ⟨q, hqi, hq, hqc⟩
      have := h.tree.parent_unique hi' hq hc' hqc
      rw [← this] at hqi
      simp only [BitVec.le_def, hlt] at hqi; omega
  by_cases e1 : z' = i
  · rw [e1] at hsum'; omega
  by_cases e2 : o' = i
  · rw [e2] at hsum'; omega
  have k1 := key z' cz' hz' e1 z cz
  have k2 := key o' co' ho' e2 o co
  omega

/-- The Parents' weights do not decrease in creation order (R141). -/
theorem parents_le {i j : Idx} (hi : s.isInner i) (hj : s.isInner j) (hij : i ≤ j) :
    (wgtGet s.wgt i).toNat ≤ (wgtGet s.wgt j).toNat := by
  have hsz := h.tree.size
  obtain ⟨n, hn⟩ := Nat.exists_eq_add_of_le (show i.toNat ≤ j.toNat from hij)
  induction n generalizing j with
  | zero => rw [show i = j from (BitVec.eq_of_toNat_eq hn).symm]
  | succ n ih =>
    have hj2 := hj.2
    have hi1 := hi.1
    have hprev : (j - 1#9).toNat = j.toNat - 1 := by
      simp only [BitVec.toNat_sub, BitVec.lt_def] at *
      simp; omega
    have hback : j - 1#9 + 1#9 = j := by simp
    have hin : s.isInner (j - 1#9) := by
      constructor
      · simp only [BitVec.le_def, hprev] at *; omega
      · simp only [BitVec.lt_def, hprev] at *; omega
    refine Nat.le_trans (ih hin (by simp only [BitVec.le_def, hprev]; omega) (by omega)) ?_
    have := h.succ_le hin (by rw [hback]; exact hj)
    rwa [hback] at this

/-- Parents leave the queue in creation order. -/
theorem parent_mono {p q p' q' : Idx} (hp : s.isInner p) (hq : s.isInner q) (hpq : p < q)
    (hp' : s.isInner p') (hq' : s.isInner q') (hcp : s.childOf p p') (hcq : s.childOf q q') : p' ≤ q' := by
  by_contra hlt
  have hlt : q' < p' := by simp only [BitVec.le_def, BitVec.lt_def] at *; omega
  obtain ⟨b, hb⟩ := (TreeOk.childOf_iff s q q').1 hcq
  have hqq : q < q' := hb ▸ h.tree.child_lt hq' b
  have := h.first q' hq' q hcq p (BitVec.lt_trans hpq hqq) (by
    rintro ⟨i, hi, hin, hc⟩
    rw [h.tree.parent_unique hin hp' hc hcp] at hi
    simp only [BitVec.le_def, BitVec.lt_def] at *; omega)
  rw [before_iff] at this
  have hw := h.parents_le hp hq (by simp only [BitVec.le_def, BitVec.lt_def] at *; omega)
  simp only [BitVec.lt_def] at hpq
  omega

/-- A node whose Parent was made no later than another's is no less deep. -/
theorem depth_mono {p q : Idx} (hp : s.isInner p) (hq : s.isInner q) (hpq : p ≤ q) {as bs : List Bool}
    (ha : leadsTo s.node s.root as p) (hb : leadsTo s.node s.root bs q) : bs.length ≤ as.length := by
  induction as using List.reverseRecOn generalizing p q bs with
  | nil =>
    have hr : s.root = p := ha
    have := h.tree.leadsTo_lt h.tree.root_lt hb
    rw [hr] at this
    simp only [BitVec.le_def] at hpq
    omega
  | append_singleton as a ih =>
    rcases List.eq_nil_or_concat bs with rfl | ⟨bs, b, rfl⟩
    · exact Nat.zero_le _
    · rw [List.concat_eq_append] at *
      rw [leadsTo_snoc] at ha hb
      obtain ⟨p', hp1, hp2, hp3⟩ := ha
      obtain ⟨q', hq1, hq2, hq3⟩ := hb
      have lt : ∀ {q : Idx} {l : List Bool}, leadsTo s.node s.root l q → q < s.nnodes := fun hw => by
        have := h.tree.leadsTo_lt h.tree.root_lt hw
        have := h.tree.root_lt
        simp only [BitVec.lt_def] at *; omega
      have ip := (h.tree.isParent_iff (lt hp1)).1 hp2
      have iq := (h.tree.isParent_iff (lt hq1)).1 hq2
      have cp : s.childOf p p' := (TreeOk.childOf_iff s p p').2 ⟨a, hp3⟩
      have cq : s.childOf q q' := (TreeOk.childOf_iff s q q').2 ⟨b, hq3⟩
      have hle : p' ≤ q' := by
        by_cases e : p = q
        · subst e; rw [h.tree.parent_unique ip iq cp cq]; exact BitVec.le_refl _
        · have : p.toNat ≠ q.toNat := fun e' => e (BitVec.eq_of_toNat_eq e')
          exact h.parent_mono hp hq (by simp only [BitVec.lt_def, BitVec.le_def] at *; omega) ip iq cp cq
      have := ih ip iq hle hp1 hq1
      simp only [List.length_append, List.length_singleton]; omega

/-- The lighter of two leaves is no less deep (R142). -/
theorem leaf_depth {x y : Idx} (hx : x < s.nsyms)
    (hw : (wgtGet s.wgt x).toNat < (wgtGet s.wgt y).toNat) {as bs : List Bool}
    (ha : leadsTo s.node s.root as x) (hb : leadsTo s.node s.root bs y) : bs.length ≤ as.length := by
  have hsz := h.tree.size
  have notroot : ∀ {z : Idx}, z < s.nsyms → ¬ leadsTo s.node s.root [] z := fun {z} hz e => by
    obtain rfl : s.root = z := e
    simp only [BitVec.lt_def] at hz; omega
  rcases List.eq_nil_or_concat as with rfl | ⟨as, a, rfl⟩
  · exact absurd ha (notroot hx)
  rcases List.eq_nil_or_concat bs with rfl | ⟨bs, b, rfl⟩
  · exact Nat.zero_le _
  simp only [List.concat_eq_append] at *
  rw [leadsTo_snoc] at ha hb
  obtain ⟨p', hp1, hp2, hp3⟩ := ha
  obtain ⟨q', hq1, hq2, hq3⟩ := hb
  have lt : ∀ {q : Idx} {l : List Bool}, leadsTo s.node s.root l q → q < s.nnodes := fun hw => by
    have := h.tree.leadsTo_lt h.tree.root_lt hw
    have := h.tree.root_lt
    simp only [BitVec.lt_def] at *; omega
  have ip := (h.tree.isParent_iff (lt hp1)).1 hp2
  have iq := (h.tree.isParent_iff (lt hq1)).1 hq2
  have cp : s.childOf x p' := (TreeOk.childOf_iff s x p').2 ⟨a, hp3⟩
  have cq : s.childOf y q' := (TreeOk.childOf_iff s y q').2 ⟨b, hq3⟩
  have hle : p' ≤ q' := by
    by_contra hlt
    have := h.weight_le iq cq (j := x)
      (by have := iq.1; simp only [BitVec.lt_def, BitVec.le_def] at *; omega) (by
        rintro ⟨i, hi, hin, hc⟩
        rw [h.tree.parent_unique hin ip hc cp] at hi
        exact hlt hi)
    omega
  have := h.depth_mono ip iq hle hp1 hq1
  simp only [List.length_append, List.length_singleton]; omega

end Ordered

/-- BUILD leaves an ordered tree. -/
theorem built_ordered {s : State} (h : 2 ≤ alphabetSize s.cnt) (ht : countTotal s.cnt < 2 ^ 32) : Ordered (built s) := by
  have htree := built_treeOk h ht
  have hm := merged_merging (s := s) (by omega : 1 ≤ alphabetSize s.cnt)
  have hns : (built s).nsyms.toNat = alphabetSize s.cnt := built_nsyms
  have inner_iff : ∀ i, (built s).isInner i ↔ (merged s).inner (alphabetSize s.cnt) i := by
    intro i
    simp only [State.isInner, Builder.inner, BitVec.le_def, hns]
    rfl
  refine ⟨htree, fun i hi c hc j hj hq => ?_⟩
  obtain ⟨z, o, hmi⟩ := hm.merged i ((inner_iff i).1 hi)
  have hin := (inner_iff i).1 hi
  have cz : (built s).childOf z i := .inl (by
    change zeroChild (nodeGet (merged s).node i) = z
    rw [hmi.word, zeroChild_parentWord])
  have co : (built s).childOf o i := .inr (by
    change oneChild (nodeGet (merged s).node i) = o
    rw [hmi.word, oneChild_parentWord])
  have hjz : j ≠ z := by
    rintro rfl
    exact hq ⟨i, BitVec.le_refl _, hi, cz⟩
  have hjo : j ≠ o := by
    rintro rfl
    exact hq ⟨i, BitVec.le_refl _, hi, co⟩
  have hnone : ¬ ∃ i' < i, alphabetSize s.cnt ≤ i'.toNat ∧ (merged s).childOf j i' := by
    rintro ⟨i', hlt, hk, hc'⟩
    exact hq ⟨i', by simp only [BitVec.lt_def, BitVec.le_def] at *; omega,
      (inner_iff i').2 ⟨hk, BitVec.lt_trans hlt hin.2⟩, hc'⟩
  have hcc : c = z ∨ c = o := by
    have : (merged s).childOf c i := hc
    rcases this with e | e
    · rw [hmi.word, zeroChild_parentWord] at e; exact .inl e.symm
    · rw [hmi.word, oneChild_parentWord] at e; exact .inr e.symm
  rcases hcc with rfl | rfl
  · exact hmi.zfirst j hj hnone hjz
  · exact hmi.ofirst j hj hnone hjz hjo

end Sys2Proof.Machine
end

