-- ==== Sys2Proof/Laws/Port.lean ====
section
/-! SUPPORT. The register port, the host's names, and the steps (20_memory.md R62 to R69; 30_encoding.md R104, R108). -/

namespace Sys2Proof.Machine

/-! The decoder -/

theorem decode_encode (i : Instr) : decode (encode i) = .ok i := by cases i <;> rfl

theorem encode_inj {i j : Instr} (h : encode i = encode j) : i = j := by
  have := (decode_encode i).symm.trans ((congrArg decode h).trans (decode_encode j))
  cases this; rfl

/-- The fields of a word are all of it. -/
theorem word_of_fields (w : Word) : w = BitVec.ofNat 32 ((CommandWord.opc w).toNat + 2 ^ 8 * (CommandWord.limit w).toNat
    + 2 ^ 9 * (CommandWord.reserved w).toNat) := by
  apply BitVec.eq_of_toNat_eq
  have hw := w.isLt
  have hl : (CommandWord.limit w).toNat = w.toNat / 2 ^ 8 % 2 := by
    simp only [CommandWord.limit, BitVec.getLsbD, Nat.testBit, Nat.shiftRight_eq_div_pow, Nat.one_and_eq_mod_two]
    rcases Nat.mod_two_eq_zero_or_one (w.toNat / 2 ^ 8) with h | h <;> rw [h] <;> rfl
  simp only [CommandWord.opc, CommandWord.reserved, BitVec.extractLsb'_toNat, Nat.shiftRight_eq_div_pow, hl,
    BitVec.toNat_ofNat]
  omega

/-- What the decoder accepts. -/
theorem decode_ok {w : Word} {i : Instr} (h : decode w = .ok i) : w = encode i := by
  rw [word_of_fields w]
  unfold decode at h
  split at h
  · rename_i hr
    rw [hr]
    unfold decodeFields at h
    split at h <;> rename_i h1 h2
    all_goals first
      | (split at h <;> cases h)
      | (cases h; rw [h1, h2]; rfl)
  · cases h

theorem decode_ok_iff {w : Word} {i : Instr} : decode w = .ok i ↔ w = encode i :=
  ⟨decode_ok, fun h => h ▸ decode_encode i⟩

theorem decode_error {w : Word} (h : ∀ i, w ≠ encode i) : ∃ e, decode w = .error e := by
  cases hd : decode w with
  | ok i => exact absurd (decode_ok hd) (h i)
  | error e => exact ⟨e, rfl⟩

/-! Issuing a command word -/

theorem issue_encode (i : Instr) (s : State) : issue (encode i) s = exec i s := by simp [issue, decode_encode]

theorem issue_illegal {w : Word} (h : ∀ i, w ≠ encode i) (s : State) :
    issue w s = unlessFaulted s (.next (raise .illegalCommand w s)) := by
  obtain ⟨e, he⟩ := decode_error h
  simp [issue, he]

theorem locate_cmd : locate 0x0000#15 4 = some .cmd := rfl

theorem locate_symlim : locate 0x000C#15 4 = some .symlim := rfl

@[simp] theorem memWrite_cmd (v : Word) (s : State) : memWrite 0x0000#15 4 v s = issue v s := rfl

@[simp] theorem memWrite_symlim (v : Word) (s : State) :
    memWrite 0x000C#15 4 v s = .next { s with symlim := v, resp := .ok } := rfl

theorem step_pending {s : State} {a : HostAction} {rest : List HostAction} (h : s.pending = a :: rest) :
    step s = hostStep a { s with pending := rest } := by simp [step, runNext, h]

theorem step_idle {s : State} (h : s.pending = []) : step s = .next s := by simp [step, runNext, h]

/-! The host's names -/

theorem lookupName_bindName_self (x : Nat) (v : HostVal) (l : List (Nat × HostVal)) :
    lookupName x (bindName x v l) = some v := by
  induction l with
  | nil => simp [bindName, lookupName]
  | cons p l ih =>
    obtain ⟨y, u⟩ := p
    simp only [bindName]
    split
    · simp [lookupName]
    · split
      · simp [lookupName]
      · simp [lookupName, *]

theorem lookupName_bindName_of_ne {x y : Nat} (h : y ≠ x) (v : HostVal) (l : List (Nat × HostVal)) :
    lookupName y (bindName x v l) = lookupName y l := by
  induction l with
  | nil => simp [bindName, lookupName, h]
  | cons p l ih =>
    obtain ⟨z, u⟩ := p
    simp only [bindName]
    split
    · simp [lookupName, h]
    · split
      · rename_i _ hz; subst hz; simp [lookupName, h]
      · simp [lookupName, ih]

/-- Binding keeps the list of names ascending. -/
theorem bindName_sorted (x : Nat) (v : HostVal) {l : List (Nat × HostVal)} (h : l.Pairwise fun p q => p.1 < q.1) :
    (bindName x v l).Pairwise fun p q => p.1 < q.1 := by
  have mem : ∀ {l : List (Nat × HostVal)} {p}, p ∈ bindName x v l → p.1 = x ∨ p ∈ l := by
    intro l
    induction l with
    | nil => intro p hp; simp only [bindName, List.mem_singleton] at hp; exact .inl (hp ▸ rfl)
    | cons q l ih =>
      obtain ⟨y, u⟩ := q
      intro p hp
      simp only [bindName] at hp
      split at hp
      · rcases List.mem_cons.1 hp with rfl | hp
        · exact .inl rfl
        · exact .inr hp
      · split at hp
        · rcases List.mem_cons.1 hp with rfl | hp
          · exact .inl rfl
          · exact .inr (List.mem_cons_of_mem _ hp)
        · rcases List.mem_cons.1 hp with rfl | hp
          · exact .inr List.mem_cons_self
          · rcases ih hp with e | e
            · exact .inl e
            · exact .inr (List.mem_cons_of_mem _ e)
  induction l with
  | nil => simp [bindName]
  | cons q l ih =>
    obtain ⟨y, u⟩ := q
    rw [List.pairwise_cons] at h
    simp only [bindName]
    split
    · rename_i hxy
      refine List.pairwise_cons.2 ⟨fun p hp => ?_, List.pairwise_cons.2 h⟩
      rcases List.mem_cons.1 hp with rfl | hp
      · exact hxy
      · exact Nat.lt_trans hxy (h.1 p hp)
    · split
      · rename_i _ hxy
        subst hxy
        exact List.pairwise_cons.2 h
      · refine List.pairwise_cons.2 ⟨fun p hp => ?_, ih h.2⟩
        rcases mem hp with e | e
        · simp only [e]; omega
        · exact h.1 p e

/-! The map -/

theorem portRead_of_locate {s : State} {addr : Addr} {n : Nat} {l : PortLoc} (h : locate addr n = some l) :
    portRead s addr n = readLoc s l := by simp [portRead, h]

theorem locate_none_of_size {addr : Addr} {n : Nat} (h : n ≠ 4) : locate addr n = none := by simp [locate, h]

theorem locate_none_of_misaligned {addr : Addr} {n : Nat} (h : addr.toNat % 4 ≠ 0) : locate addr n = none := by
  simp [locate, h]

theorem locateAligned_table {a : Nat} (h : 0x0028 ≤ a) : locateAligned a = locateTable a := by
  unfold locateAligned
  split <;> first | omega | rfl

/-- Which aligned addresses the map lists (20_memory.md R65). -/
theorem locateAligned_none {a : Nat} (ha : a < 0x8000) (h4 : a % 4 = 0) : locateAligned a = none ↔
    (0x0028 ≤ a ∧ a < 0x0400) ∨ a = 0x0FFC ∨ (0x17FC ≤ a ∧ a < 0x4000) ∨ (0x4000 ≤ a ∧ 36 ≤ a % 64) := by
  rcases Nat.lt_or_ge a 0x0028 with h | h
  · have : a = 0 ∨ a = 4 ∨ a = 8 ∨ a = 12 ∨ a = 16 ∨ a = 20 ∨ a = 24 ∨ a = 28 ∨ a = 32 ∨ a = 36 := by omega
    rcases this with rfl | rfl | rfl | rfl | rfl | rfl | rfl | rfl | rfl | rfl <;> simp [locateAligned]
  · rw [locateAligned_table h, locateTable]
    split
    · simp; omega
    · split
      · split
        · simp; omega
        · simp; omega
      · split
        · split
          · simp; omega
          · simp; omega
        · split
          · split
            · simp; omega
            · simp; omega
          · simp; omega

end Sys2Proof.Machine
end

