-- ==== Sys2Proof/Laws/Commands.lean ====
section
/-! SUPPORT. What each command can do, said once: every way it can end, in the terms the statements use. -/

namespace Sys2Proof.Machine

variable {s : State}

theorem exec_reset (s : State) : exec .reset s = .next (complete (resetBlock s)) := rfl

/-- In the fault state every command but RESET is refused (60_exceptions.md R242). -/
theorem exec_faulted (h : s.fault = true) {i : Instr} (hi : i ≠ .reset) : exec i s = .next (refuse s) := by
  cases i with
  | reset => exact absurd rfl hi
  | count => exact unlessFaulted_faulted h _
  | build => exact unlessFaulted_faulted h _
  | gencode => exact unlessFaulted_faulted h _
  | encode => exact unlessFaulted_faulted h _
  | flush => exact unlessFaulted_faulted h _
  | decode => exact unlessFaulted_faulted h _
  | decoden => exact unlessFaulted_faulted h _

/-- A command whose flag is 0 raises SequenceError (60_exceptions.md R236). -/
theorem exec_required {i : Instr} (h : s.fault = false) (hr : s.required i = false) :
    exec i s = .next (raise .sequenceError (encode i) s) := by
  cases i with
  | reset => cases hr
  | count => cases hr
  | build => cases hr
  | flush => cases hr
  | gencode => exact (unlessFaulted_live h _).trans (requiring_fail hr _)
  | encode => exact (unlessFaulted_live h _).trans (requiring_fail hr _)
  | decode => exact (unlessFaulted_live h _).trans (requiring_fail hr _)
  | decoden => exact (unlessFaulted_live h _).trans (requiring_fail hr _)

/-! COUNT -/

theorem exec_count_fits (h : s.fault = false) (hl : s.src.length < 2 ^ 32) :
    exec .count s = .next (complete (putTally s (tallyAll s.src tallyStart, []))) := by
  change execCount s = _
  rw [execCount, unlessFaulted_live h, countLoop_fits _ _ (by simpa [tallyStart] using hl), finish_done]

theorem exec_count_overflow (h : s.fault = false) {pre : List Byte} {r : Byte} {rest : List Byte}
    (hs : s.src = pre ++ r :: rest) (hl : pre.length = 2 ^ 32 - 1) :
    exec .count s = .next (raise .countOverflow (zext32 r) (putTally s (tallyAll pre tallyStart, rest))) := by
  change execCount s = _
  rw [execCount, unlessFaulted_live h, hs, countLoop_overflow pre r rest _ (by simpa [tallyStart] using hl), finish_raised]

/-- An input fits, or has a byte after its first 2^32-1. -/
theorem fits_or_overflows (x : List Byte) :
    x.length < 2 ^ 32 ∨ ∃ pre r rest, x = pre ++ r :: rest ∧ pre.length = 2 ^ 32 - 1 := by
  rcases Nat.lt_or_ge x.length (2 ^ 32) with h | h
  · exact .inl h
  · refine .inr ⟨x.take (2 ^ 32 - 1), x[2 ^ 32 - 1], x.drop (2 ^ 32 - 1 + 1), ?_, by rw [List.length_take]; omega⟩
    rw [← List.drop_eq_getElem_cons (by omega), List.take_append_drop]

/-! BUILD -/

theorem exec_build_fails (h : s.fault = false) (hk : alphabetSize s.cnt < 2) :
    exec .build s = .next (raise .configurationError (zext32 (seeded s).nnodes)
      (putBuilder s (seeded s).nnodes (seeded s))) :=
  (unlessFaulted_live h _).trans (buildBody_fails hk)

theorem exec_build_completes (h : s.fault = false) (hk : 2 ≤ alphabetSize s.cnt) :
    exec .build s = .next (complete (built s)) :=
  (unlessFaulted_live h _).trans (buildBody_completes hk)

/-- A BUILD that does not fault had two symbols or more. -/
theorem built_of_exec {t : State} (h : s.fault = false) (he : exec .build s = .next t) (ht : t.fault = false) :
    2 ≤ alphabetSize s.cnt ∧ t = complete (built s) := by
  rcases Nat.lt_or_ge (alphabetSize s.cnt) 2 with hk | hk
  · rw [exec_build_fails h hk] at he
    cases he; cases ht
  · rw [exec_build_completes h hk] at he
    cases he; exact ⟨hk, rfl⟩

/-! GENCODE -/

/-- A walk raises only RepresentationLimitError, at a Parent 255 edges below where it started counting (42_gencode.md R164). -/
theorem visit_raised {node : Vector Word 511} : ∀ {room : Nat} {i : Idx} {path : PathBits} {stk : List Idx}
    {code : Vector CodeEntry 256} {c : Cause} {v : Word} {w : Walk}, visit node room i path stk code = .raised c v w →
    c = .representationLimitError ∧ ∃ bs j, bs.length = room ∧ leadsTo node i bs j ∧ isParent (nodeGet node j) = true ∧
      v = zext32 j := by
  intro room
  induction room with
  | zero =>
    intro i path stk code c v w h
    rw [visit] at h
    split at h
    · rename_i hp; cases h; exact ⟨rfl, [], i, rfl, rfl, hp, rfl⟩
    · cases h
  | succ room ih =>
    intro i path stk code c v w h
    rw [visit] at h
    split at h
    · rename_i hp
      split at h
      · rename_i hz
        cases h
        obtain ⟨q1, bs, j, q2, q3, q4⟩ := ih hz
        exact ⟨q1, false :: bs, j, by simp [q2], ⟨hp, q3⟩, q4⟩
      · split at h
        · rename_i ho
          cases h
          obtain ⟨q1, bs, j, q2, q3, q4⟩ := ih ho
          exact ⟨q1, true :: bs, j, by simp [q2], ⟨hp, q3⟩, q4⟩
        · cases h
    · cases h

theorem walkAll_raised {node : Vector Word 511} {root : Idx} {c : Cause} {v : Word} {w : Walk}
    (h : walkAll node root = .raised c v w) : c = .representationLimitError := (visit_raised h).1

/-- A walk that is done met no Parent 255 edges below. -/
theorem visit_done {node : Vector Word 511} : ∀ {room : Nat} {i : Idx} {path : PathBits} {stk : List Idx}
    {code : Vector CodeEntry 256} {w : Walk}, visit node room i path stk code = .done w →
    ∀ bs j, bs.length = room → leadsTo node i bs j → isParent (nodeGet node j) = false := by
  intro room
  induction room with
  | zero =>
    intro i path stk code w h bs j hb hw
    obtain rfl : bs = [] := List.eq_nil_of_length_eq_zero hb
    obtain rfl : i = j := hw
    rw [visit] at h
    split at h
    · cases h
    · rename_i hp; simpa using hp
  | succ room ih =>
    intro i path stk code w h bs j hb hw
    cases bs with
    | nil => cases hb
    | cons b bs =>
      rw [visit, if_pos hw.1] at h
      split at h
      · cases h
      · rename_i hz
        split at h
        · cases h
        · rename_i ho
          cases b with
          | false => exact ih hz bs j (by simpa using hb) hw.2
          | true => exact ih ho bs j (by simpa using hb) hw.2

theorem exec_gencode (h : s.fault = false) (hv : s.treeValid = true) : exec .gencode s = gencodeBody s :=
  (unlessFaulted_live h _).trans (requiring_ok (i := .gencode) hv _)

theorem exec_gencode_tree (h : s.fault = false) (hv : s.treeValid = true) (ht : TreeOk s) :
    ∃ code, exec .gencode s = .next (complete (markCodes (putWalk s ⟨code, 0#255, 0, []⟩))) ∧
      Visited s s.root [] clearedCodes code := by
  obtain ⟨code, hw, hv'⟩ := walkAll_spec ht
  exact ⟨code, by rw [exec_gencode h hv, gencodeBody, hw], hv'⟩

/-- A GENCODE that does not fault wrote the table of its walk. -/
theorem gencode_of_exec {t : State} (h : s.fault = false) (he : exec .gencode s = .next t) (ht : t.fault = false) :
    s.treeValid = true ∧ ∃ w, walkAll s.node s.root = .done w ∧ t = complete (markCodes (putWalk s w)) := by
  cases hv : s.treeValid with
  | false =>
    rw [exec_required (i := .gencode) h hv] at he
    cases he; cases ht
  | true =>
    rw [exec_gencode h hv, gencodeBody] at he
    cases hw : walkAll s.node s.root with
    | done w => rw [hw] at he; cases he; exact ⟨rfl, w, rfl, rfl⟩
    | raised c v w => rw [hw] at he; cases he; cases ht

/-! ENCODE and FLUSH -/

theorem encodeStart_packing (s : State) : Packing (encodeStart s) [] := ⟨by simp, rfl, .nil⟩

theorem exec_encode (h : s.fault = false) (hv : s.codesValid = true) :
    exec .encode s = finish (encodeLoop s.code s.src (encodeStart s)) (putPacker s) :=
  (unlessFaulted_live h _).trans (requiring_ok (i := .encode) hv _)

/-- The three ways ENCODE ends once it runs. -/
theorem exec_encode_cases (h : s.fault = false) (hv : s.codesValid = true) :
    (∃ e' out l', exec .encode s = .next (complete (putPacker s (e', []))) ∧
      Encoded s.code (encodeStart s) e' [] s.src out l') ∨
    (∃ pre r rest e' out l', s.src = pre ++ r :: rest ∧ (symGet s.code r).len = 0#8 ∧
      exec .encode s = .next (raise .contractViolation (zext32 r) (putPacker s (e', rest))) ∧
      Encoded s.code (encodeStart s) e' [] pre out l') ∨
    ∃ pre r rest e1 e' out1 l1 out m, s.src = pre ++ r :: rest ∧ (symGet s.code r).len ≠ 0#8 ∧
      Encoded s.code (encodeStart s) e1 [] pre out1 l1 ∧
      exec .encode s = .next (raise .ioError (zext32 e'.ebuf) (putPacker s (e', rest))) ∧
      Refused { e1 with kBit := 0#8 } e' m l1 (symGet s.code r).string out := by
  rw [exec_encode h hv]
  rcases encodeLoop_cases s.code s.src (encodeStart_packing s) with
    ⟨e', out, l', q, q'⟩ | ⟨pre, r, rest, e', out, l', q1, q2, q, q'⟩ | ⟨pre, r, rest, e1, e', out1, l1, out, m, q1, q2, q3, q, q'⟩
  · exact .inl ⟨e', out, l', by rw [q, finish_done], q'⟩
  · exact .inr (.inl ⟨pre, r, rest, e', out, l', q1, q2, by rw [q, finish_raised], q'⟩)
  · exact .inr (.inr ⟨pre, r, rest, e1, e', out1, l1, out, m, q1, q2, q3, by rw [q, finish_raised], q'⟩)

theorem exec_flush_empty (h : s.fault = false) (h0 : s.ecnt = 0#4) : exec .flush s = .next (complete s) := by
  change execFlush s = _
  rw [execFlush, unlessFaulted_live h, flushPacker, if_pos (show (flushStart s).ecnt = 0#4 from h0)]
  rfl

theorem exec_flush_ok (h : s.fault = false) (h0 : s.ecnt ≠ 0#4) (hs : s.sink.nth 0 = .ok) :
    exec .flush s = .next (complete { s with sink := s.sink.after [s.ebuf], ebuf := 0#8, ecnt := 0#4 }) := by
  change execFlush s = _
  rw [execFlush, unlessFaulted_live h, flushPacker, if_neg (show ¬ (flushStart s).ecnt = 0#4 from h0), emitBuffer,
    show snkWrite (flushStart s).ebuf (flushStart s).sink = _ from snkWrite_ok hs s.ebuf]
  rfl

theorem exec_flush_err (h : s.fault = false) (h0 : s.ecnt ≠ 0#4) (hs : s.sink.nth 0 = .err) :
    exec .flush s = .next (raise .ioError (zext32 s.ebuf) { s with sink := s.sink.past 1 }) := by
  change execFlush s = _
  rw [execFlush, unlessFaulted_live h, flushPacker, if_neg (show ¬ (flushStart s).ecnt = 0#4 from h0), emitBuffer,
    show snkWrite (flushStart s).ebuf (flushStart s).sink = _ from snkWrite_err hs s.ebuf]
  rfl

/-- The three ways FLUSH ends. -/
theorem exec_flush_cases (h : s.fault = false) :
    (s.ecnt = 0#4 ∧ exec .flush s = .next (complete s)) ∨
    (s.ecnt ≠ 0#4 ∧ exec .flush s = .next (complete { s with sink := s.sink.after [s.ebuf], ebuf := 0#8, ecnt := 0#4 })) ∨
    (s.ecnt ≠ 0#4 ∧ exec .flush s = .next (raise .ioError (zext32 s.ebuf) { s with sink := s.sink.past 1 })) := by
  by_cases h0 : s.ecnt = 0#4
  · exact .inl ⟨h0, exec_flush_empty h h0⟩
  · cases hs : s.sink.nth 0 with
    | ok => exact .inr (.inl ⟨h0, exec_flush_ok h h0 hs⟩)
    | err => exact .inr (.inr ⟨h0, exec_flush_err h h0 hs⟩)

/-! DECODE and DECODEN -/

/-- The tree a decode command reads. -/
def State.decodeTree (s : State) (limit : Option Word) : DecodeTree := ⟨s.node, s.root, limit⟩

theorem decodeStart_starts (s : State) (limit : Option Word) : Starts (s.decodeTree limit) (decodeStart s) :=
  ⟨rfl, rfl, rfl, rfl⟩

theorem exec_decode (h : s.fault = false) (hv : s.treeValid = true) : exec .decode s = decodeBody none s :=
  (unlessFaulted_live h _).trans (requiring_ok (i := .decode) hv _)

theorem exec_decoden (h : s.fault = false) (hv : s.treeValid = true) : exec .decoden s = decodeBody (some s.symlim) s :=
  (unlessFaulted_live h _).trans (requiring_ok (i := .decoden) hv _)

/-- The three ways a decode command ends once it runs. -/
theorem decodeBody_cases (limit : Option Word) (s : State) :
    decodeBody limit s = .next (complete (markTrunc (putUnpacker s
      ((decodeStart s).between (parsed s s.src) (parseEnd s s.src), [])))) ∨
    (∃ l d' m, limit = some l ∧ decodeBody limit s = .next (complete (markTrunc (putUnpacker s (d', s.src.drop m)))) ∧
      neededFor s l.toNat m ∧ d'.sink = s.sink.after ((parsed s s.src).take l.toNat) ∧ d'.symcnt = l ∧
      d'.dcur = s.root ∧ d'.dcnt.toNat ≤ 7) ∨
    ∃ j d' m, decodeBody limit s = .next (raise .ioError (zext32 (leafSym (nodeGet s.node d'.dcur)))
        (putUnpacker s (d', s.src.drop m))) ∧
      neededFor s (j + 1) m ∧ (parsed s s.src)[j]? = some (leafSym (nodeGet s.node d'.dcur)) ∧
      isParent (nodeGet s.node d'.dcur) = false ∧ d'.sink = (s.sink.after ((parsed s s.src).take j)).past 1 ∧
      d'.symcnt = BitVec.ofNat 32 j := by
  rw [decodeBody, show (⟨s.node, s.root, limit⟩ : DecodeTree) = s.decodeTree limit from rfl]
  rcases decodeLoop_cases (s.decodeTree limit) s.src (decodeStart_starts s limit) with
    q | ⟨l, d', m, q0, q, q'⟩ | ⟨j, d', m, q, q'⟩
  · exact .inl (by rw [q]; rfl)
  · exact .inr (.inl ⟨l, d', m, q0, by rw [q], q'⟩)
  · exact .inr (.inr ⟨j, d', m, by rw [q]; rfl, q'⟩)

/-! Every command -/

/-- A command that is not refused completes, or raises a fault with a cause. -/
theorem exec_ends (i : Instr) (h : s.fault = false) :
    (∃ u, exec i s = .next (complete u) ∧ u.fault = false) ∨
      ∃ c v u, exec i s = .next (raise c v u) ∧ c ≠ .none := by
  cases hr : s.required i with
  | false => exact .inr ⟨_, _, _, exec_required h hr, by simp⟩
  | true =>
    cases i with
    | reset => exact .inl ⟨_, exec_reset s, rfl⟩
    | count =>
      rcases fits_or_overflows s.src with hl | ⟨p, r, rest, h1, h2⟩
      · exact .inl ⟨_, exec_count_fits h hl, h⟩
      · exact .inr ⟨_, _, _, exec_count_overflow h h1 h2, by simp⟩
    | build =>
      rcases Nat.lt_or_ge (alphabetSize s.cnt) 2 with hk | hk
      · exact .inr ⟨_, _, _, exec_build_fails h hk, by simp⟩
      · exact .inl ⟨_, exec_build_completes h hk, h⟩
    | gencode =>
      have := exec_gencode h hr
      rw [gencodeBody] at this
      cases hw : walkAll s.node s.root with
      | done w => rw [hw] at this; exact .inl ⟨_, this, h⟩
      | raised c v w =>
        rw [hw] at this
        exact .inr ⟨_, _, _, this, by rw [(walkAll_raised hw)]; simp⟩
    | encode =>
      rcases exec_encode_cases h hr with ⟨_, _, _, q, _⟩ | ⟨_, _, _, _, _, _, _, _, q, _⟩ | ⟨_, _, _, _, _, _, _, _, _, _, _, _, q, _⟩
      · exact .inl ⟨_, q, h⟩
      · exact .inr ⟨_, _, _, q, by simp⟩
      · exact .inr ⟨_, _, _, q, by simp⟩
    | flush =>
      rcases exec_flush_cases h with ⟨_, q⟩ | ⟨_, q⟩ | ⟨_, q⟩
      · exact .inl ⟨_, q, h⟩
      · exact .inl ⟨_, q, h⟩
      · exact .inr ⟨_, _, _, q, by simp⟩
    | decode =>
      rcases decodeBody_cases none s with q | ⟨_, _, _, _, q, _⟩ | ⟨_, _, _, q, _⟩ <;> rw [← exec_decode h hr] at q
      · exact .inl ⟨_, q, h⟩
      · exact .inl ⟨_, q, h⟩
      · exact .inr ⟨_, _, _, q, by simp⟩
    | decoden =>
      rcases decodeBody_cases (some s.symlim) s with q | ⟨_, _, _, _, q, _⟩ | ⟨_, _, _, q, _⟩ <;>
        rw [← exec_decoden h hr] at q
      · exact .inl ⟨_, q, h⟩
      · exact .inl ⟨_, q, h⟩
      · exact .inr ⟨_, _, _, q, by simp⟩

end Sys2Proof.Machine
end

