-- ==== Sys2Proof/Laws/Greedy.lean ====
section
/-! SUPPORT. The greedy parse in a tree, and the codes of a tree's table (44_decode.md R213). -/

namespace Sys2Proof.Machine

/-- packs -/
theorem Encoded.packs {code} {s : State} {e' : Packer} {pre out l'} (h : Encoded code (encodeStart s) e' [] pre out l') :
    Packs code pre out e'.ebuf e'.ecnt := by
  have hb := h.bits
  have hp := h.packing
  have hlen := congrArg List.length hb
  simp only [List.length_append, length_streamBits, List.nil_append] at hlen
  have := hp.lt
  refine ⟨by omega, by rw [hp.pending]; simpa using hb, by rw [hp.ecnt]; omega, fun k hk => hp.holds.below (by rw [hp.ecnt] at hk; exact hk)⟩

/-- How many bytes ENCODE has written. -/
theorem Encoded.length {code} {s : State} {e' : Packer} {pre out l'} (h : Encoded code (encodeStart s) e' [] pre out l') :
    out.length = (codeBits code pre).length / 8 := h.packs.count

/-- leaf for a coded symbol -/
theorem coded_leaf {s : State} (C : CodesOk s) {x} (h : (symGet s.code x).len ≠ 0#8) :
    ∃ j < s.nsyms, leafSym (nodeGet s.node j) = x ∧ leadsTo s.node s.root (symGet s.code x).string j := by
  obtain ⟨j, hj, e⟩ := (C.coded x).1 h
  exact ⟨j, hj, e, e ▸ C.leads j hj⟩

/-- The nodes below NSYMS are leaves. -/
theorem leaf_not_parent {s : State} (T : TreeOk s) {j} (hj : j < s.nsyms) : isParent (nodeGet s.node j) = false := by
  obtain ⟨⟨x, h⟩, _⟩ := T.leaves j hj
  rw [h]; simp

/-- A Parent of the tree has an index of at most 510. -/
theorem inner_le {s : State} (T : TreeOk s) {i} (h : s.isInner i) : i.toNat ≤ 510 := by
  have := T.size
  have h2 := h.2
  simp only [BitVec.lt_def] at h2; omega

/-- walk stays in tree -/
theorem parse_end {s : State} (T : TreeOk s) : ∀ (bits : List Bool) (cur : Idx), s.isInner cur →
    s.isInner (parse s.node s.root cur bits).2 := by
  have hroot : s.isInner s.root := by
    have := T.size
    exact ⟨by simp only [BitVec.le_def]; omega, T.root_lt⟩
  intro bits
  induction bits with
  | nil => intro cur h; exact h
  | cons b bits ih =>
    intro cur h
    have hc := T.child_lt h b
    rw [parse]
    split
    · rename_i hp
      exact ih _ ((T.isParent_iff (BitVec.lt_trans hc h.2)).1 hp)
    · exact ih _ hroot

/-- dcur of decodeByte's raise is a child of an inner node -/
theorem decodeByte_dcur {s : State} (T : TreeOk s) {lim} : ∀ n (d : Unpacker), s.isInner d.dcur →
    (∃ d', decodeByte (s.decodeTree lim) n d = .done d' ∧ s.isInner d'.dcur ∧ (d.dcnt.toNat = n → d'.dcnt.toNat ≤ n)) ∨
    (∃ c v d', decodeByte (s.decodeTree lim) n d = .raised c v d' ∧ d'.dcur < s.nnodes ∧ (d.dcnt.toNat = n → d'.dcnt.toNat ≤ n)) := by
  have hroot : s.isInner s.root := by
    have := T.size
    exact ⟨by simp only [BitVec.le_def]; omega, T.root_lt⟩
  intro n
  induction n with
  | zero => intro d h; exact .inl ⟨d, rfl, h, fun h => by omega⟩
  | succ n ih =>
    intro d h
    rw [decodeByte]
    split
    · exact .inl ⟨d, rfl, h, fun h => by omega⟩
    · have hc : d.next (s.decodeTree lim) < s.nnodes := BitVec.lt_trans (T.child_lt h _) h.2
      have cnt : d.dcnt.toNat = n + 1 → (d.dcnt - BitVec.ofNat 4 1).toNat = n := by
        intro e
        have := d.dcnt.isLt
        simp only [BitVec.toNat_sub, BitVec.toNat_ofNat]; omega
      cases hp : isParent (nodeGet s.node (d.next (s.decodeTree lim))) with
      | true =>
        rw [decodeBit_inner hp]
        rcases ih (d.moved 1 [] (d.next (s.decodeTree lim))) ((T.isParent_iff hc).1 hp) with ⟨d', q1, q2, q3⟩ | ⟨c, v, d', q1, q2, q3⟩
        · exact .inl ⟨d', q1, q2, fun e => Nat.le_succ_of_le (q3 (cnt e))⟩
        · exact .inr ⟨c, v, d', q1, q2, fun e => Nat.le_succ_of_le (q3 (cnt e))⟩
      | false =>
        cases hs : d.sink.nth 0 with
        | ok =>
          rw [decodeBit_leaf hp hs]
          rcases ih (d.moved 1 [leafSym (nodeGet s.node (d.next (s.decodeTree lim)))] s.root) hroot with ⟨d', q1, q2, q3⟩ | ⟨c, v, d', q1, q2, q3⟩
          · exact .inl ⟨d', q1, q2, fun e => Nat.le_succ_of_le (q3 (cnt e))⟩
          · exact .inr ⟨c, v, d', q1, q2, fun e => Nat.le_succ_of_le (q3 (cnt e))⟩
        | err =>
          rw [decodeBit_refused hp hs]
          exact .inr ⟨_, _, _, rfl, hc, fun e => Nat.le_succ_of_le (cnt e).le⟩

/-- Where DCUR stands after a decode command, and how many bits can be left. -/
theorem decodeLoop_dcur {s : State} (T : TreeOk s) {lim} : ∀ bs (d : Unpacker), s.isInner d.dcur → d.dcnt.toNat ≤ 8 →
    (∃ d' r, decodeLoop (s.decodeTree lim) bs d = .done (d', r) ∧ s.isInner d'.dcur ∧ d'.dcnt.toNat ≤ 8) ∨
    (∃ c v d' r, decodeLoop (s.decodeTree lim) bs d = .raised c v (d', r) ∧ d'.dcur < s.nnodes ∧ d'.dcnt.toNat ≤ 8) := by
  intro bs
  induction bs with
  | nil => intro d h h8; exact .inl ⟨d, _, rfl, h, h8⟩
  | cons r bs ih =>
    intro d h h8
    cases hl : limitReached (s.decodeTree lim).limit d.symcnt with
    | true => exact .inl ⟨d, r :: bs, by rw [decodeLoop, hl, if_pos rfl], h, h8⟩
    | false =>
      rcases decodeByte_dcur T (lim := lim) 8 (d.refill r) h with ⟨d', q1, q2, q3⟩ | ⟨c, v, d', q1, q2, q3⟩
      · rw [decodeLoop_done hl q1]
        exact ih d' q2 (q3 rfl)
      · rw [decodeLoop_raised hl q1]
        exact .inr ⟨c, v, d', _, rfl, q2, q3 rfl⟩

/-- A limit that is not reached has no effect, within one byte. -/
theorem decodeByte_lim {t t' : DecodeTree} (hn : t'.node = t.node) (hr : t'.root = t.root) : ∀ {n : Nat} {d : Unpacker} {j : Nat}, n ≤ 8 →
    Below t.limit d.symcnt j → Below t'.limit d.symcnt j → d.sink.accepts j → d.sink.nth j = .err →
    decodeByte t' n d = decodeByte t n d ∧ (∀ d', decodeByte t n d = .done d' → ∃ k ≤ j, Below t.limit d'.symcnt (j-k) ∧ Below t'.limit d'.symcnt (j-k) ∧ d'.sink.accepts (j-k) ∧ d'.sink.nth (j-k) = .err) := by
  intro n
  induction n with
  | zero => intro d j _ h1 h2 h3 h4; refine ⟨rfl, fun d' h => ?_⟩; cases h; exact ⟨0, by omega, h1, h2, h3, h4⟩
  | succ n ih =>
    intro d j hn8 h1 h2 h3 h4
    rw [decodeByte, decodeByte, h1.not_reached, h2.not_reached]
    simp only [Bool.false_eq_true, if_false]
    have e : decodeBit t' d = decodeBit t d := by
      unfold decodeBit takeBit emitSymbol; simp only [hn, hr]
    rw [e]
    cases hp : isParent (nodeGet t.node (d.next t)) with
    | true =>
      rw [decodeBit_inner hp]
      exact ih (by omega) (by rwa [moved_inner_symcnt]) (by rwa [moved_inner_symcnt]) (by rwa [moved_inner_sink]) (by rwa [moved_inner_sink])
    | false =>
      cases j with
      | zero => rw [decodeBit_refused hp h4]; exact ⟨rfl, fun d' h => by cases h⟩
      | succ j =>
        rw [decodeBit_leaf hp (h3 0 (by omega))]
        obtain ⟨q1, q2⟩ := ih (d := d.moved 1 [leafSym (nodeGet t.node (d.next t))] t.root) (j := j) (by omega) (Below.after_leaf h1) (Below.after_leaf h2) (Sink.accepts_leaf h3) (by
            change (d.sink.after _).nth j = _
            rw [Sink.nth_after, List.length_singleton, Nat.add_comm]; exact h4)
        refine ⟨q1, fun d' h => ?_⟩
        obtain ⟨k, hk, r⟩ := q2 d' h
        exact ⟨k+1, by omega, by rwa [show j + 1 - (k+1) = j - k by omega]⟩

/-- A limit that is not reached has no effect. -/
theorem decodeLoop_lim {t t' : DecodeTree} (hn : t'.node = t.node) (hr : t'.root = t.root) : ∀ {bs} {d : Unpacker} {j : Nat},
    Below t.limit d.symcnt j → Below t'.limit d.symcnt j → d.sink.accepts j → d.sink.nth j = .err →
    decodeLoop t' bs d = decodeLoop t bs d := by
  intro bs
  induction bs with
  | nil => intro d j _ _ _ _; rfl
  | cons r bs ih =>
    intro d j h1 h2 h3 h4
    obtain ⟨q1, q2⟩ := decodeByte_lim hn hr (n := 8) (d := d.refill r) (Nat.le_refl 8) h1 h2 h3 h4
    cases hd : decodeByte t 8 (d.refill r) with
    | done d' =>
      rw [decodeLoop_done h1.not_reached hd, decodeLoop_done h2.not_reached (q1.trans hd)]
      obtain ⟨k, _, r1, r2, r3, r4⟩ := q2 d' hd
      exact ih r1 r2 r3 r4
    | raised c v d' =>
      rw [decodeLoop_raised h1.not_reached hd, decodeLoop_raised h2.not_reached (q1.trans hd)]

/-- decoding codes -/
theorem parse_codes {s : State} (T : TreeOk s) (C : CodesOk s) : ∀ (x : List Byte) (bits : List Bool), allCoded s.code x →
    parse s.node s.root s.root (codeBits s.code x ++ bits) = (x ++ (parse s.node s.root s.root bits).1, (parse s.node s.root s.root bits).2) := by
  intro x
  induction x with
  | nil => intro bits _; rfl
  | cons r x ih =>
    intro bits h
    have hr : (symGet s.code r).len ≠ 0#8 := h r List.mem_cons_self
    obtain ⟨j, hj, ej, lj⟩ := coded_leaf C hr
    have hne : (symGet s.code r).string ≠ [] := fun e => hr (BitVec.eq_of_toNat_eq (by have := congrArg List.length e; simpa using this))
    rw [codeBits_cons, List.append_assoc, parse_append, parse_code (leaf_not_parent T hj) hne lj, ih bits (fun y hy => h y (List.mem_cons_of_mem _ hy)), ej]
    rfl

/-- zero walk -/
theorem zero_walk {s : State} (T : TreeOk s) : ∀ (n : Nat) (i : Idx), s.isInner i → i.toNat < n →
    ∃ z j, 0 < z ∧ j < s.nsyms ∧ leadsTo s.node i (List.replicate z false) j := by
  intro n
  induction n with
  | zero => intro i _ h; omega
  | succ n ih =>
    intro i hi hn
    have hp := (T.isParent_iff hi.2).2 hi
    have hc := T.child_lt hi false
    by_cases h : s.isInner (childBy false (nodeGet s.node i))
    · obtain ⟨z, j, _, hj, hw⟩ := ih _ h (by simp only [BitVec.lt_def] at hc; omega)
      exact ⟨z+1, j, by omega, hj, hp, hw⟩
    · refine ⟨1, childBy false (nodeGet s.node i), by omega, ?_, hp, rfl⟩
      have := BitVec.lt_trans hc hi.2
      by_contra hlt
      exact h ⟨by simp only [BitVec.le_def, BitVec.lt_def] at *; omega, this⟩

/-- A proper prefix of a walk of zeros gives no symbol. -/
theorem parse_short {node root} : ∀ {z : Nat} {i j : Idx}, leadsTo node i (List.replicate z false) j → ∀ p, p < z →
    ∃ q, parse node root i (List.replicate p false) = ([], q) ∧ leadsTo node i (List.replicate p false) q ∧ isParent (nodeGet node q) = true := by
  intro z
  induction z with
  | zero => intro i j _ p h; omega
  | succ z ih =>
    intro i j hw p hp
    cases p with
    | zero => exact ⟨i, rfl, rfl, hw.1⟩
    | succ p =>
      obtain ⟨q, h1, h2, h3⟩ := ih hw.2 p (by omega)
      refine ⟨q, ?_, ⟨hw.1, h2⟩, h3⟩
      rw [List.replicate_succ, parse]
      have : isParent (nodeGet node (childBy false (nodeGet node i))) = true := by
        cases p with
        | zero => exact (show childBy false (nodeGet node i) = q from h2) ▸ h3
        | succ p => exact h2.1
      rw [if_pos this]; exact h1

/-- A code has 255 bits at most. -/
theorem codeBits_length (code : Vector CodeEntry 256) (x : List Byte) : (codeBits code x).length ≤ 255 * x.length := by
  induction x with
  | nil => simp
  | cons r x ih => have := (symGet code r).len.isLt; simp; omega

/-- Bits that give no symbol and end at the root are none. -/
theorem parse_silent {s : State} (T : TreeOk s) : ∀ (bits : List Bool) (q q' : Idx), s.isInner q →
    parse s.node s.root q bits = ([], q') → q'.toNat + bits.length ≤ q.toNat := by
  intro bits
  induction bits with
  | nil => intro q q' _ h; cases h; simp
  | cons b bits ih =>
    intro q q' hq h
    have hc := T.child_lt hq b
    rw [parse] at h
    split at h
    · rename_i hp
      have := ih _ _ ((T.isParent_iff (BitVec.lt_trans hc hq.2)).1 hp) h
      simp only [BitVec.lt_def] at hc
      simp; omega
    · cases h

end Sys2Proof.Machine
end

