-- ==== Sys2Proof/Laws/Micro.lean ====
section
/-! SUPPORT. Runs of micro-steps beside the loops of the commands' meanings (10_state.md R47). -/

namespace Sys2Proof.Machine

/-- Micro-steps one after another. -/
theorem microRun_add : ∀ (m n : Nat) (s : State), microRun (m + n) s = microRun n (microRun m s)
  | 0, n, s => by simp [microRun]
  | m + 1, n, s => by
    rw [Nat.add_right_comm, microRun, microRun]
    cases h : microStep s with
    | none =>
      simp only
      cases n with
      | zero => rfl
      | succ n => rw [microRun, h]
    | some s' => exact microRun_add m n s'

/-- Finitely many micro-steps lead from s to t. -/
def Reach (s t : State) : Prop := ∃ n, microRun n s = t

/-- No micro-step. -/
theorem Reach.refl (s : State) : Reach s s := ⟨0, rfl⟩

/-- Micro-steps after micro-steps. -/
theorem Reach.trans {s t u : State} : Reach s t → Reach t u → Reach s u
  | ⟨m, h⟩, ⟨n, h'⟩ => ⟨m + n, by rw [microRun_add, h, h']⟩

/-- One micro-step. -/
theorem Reach.one {s t : State} (h : microStep s = some t) : Reach s t := ⟨1, by rw [microRun, h]; rfl⟩

/-- One micro-step, then more. -/
theorem Reach.step {s t u : State} (h : microStep s = some t) (h' : Reach t u) : Reach s u := (Reach.one h).trans h'

/-- A state reached is one that some number of micro-steps ends in. -/
theorem of_reach {s t : State} {o : Host.Outcome State Fault Refusal} (h : Reach s t) (ho : o = .next t) :
    ∃ n, o = .next (microRun n s) := by
  obtain ⟨n, rfl⟩ := h
  exact ⟨n, ho⟩

/-- The loop of COUNT and CNT-U from `C_READ` (40_count.md R126). -/
theorem count_reach (s : State) : ∀ (src : List Byte) (t : Tally),
    ∃ u, finish (countLoop src t) (putTally s) = .next u ∧
      Reach { s with cnt := t.cnt, symcnt := t.symcnt, src := src, seq := .cRead } u
  | [], t => ⟨_, rfl, .one rfl⟩
  | r :: rest, t => by
    rw [countLoop]
    split
    · rename_i h
      exact ⟨_, rfl, .one (if_pos h)⟩
    · rename_i h
      obtain ⟨u, h1, h2⟩ := count_reach s rest (tallyByte r t)
      refine ⟨u, h1, .step (t := { s with cnt := t.cnt, symcnt := t.symcnt, src := rest, seq := .cTally r }) ?_ (.step rfl h2)⟩
      simp [microStep, microCount, srcRead, h]

/-- A state of ENC-U: its registers, what is left of the source, its sequencer state. -/
def packed (s : State) (e : Packer) (src : List Byte) (q : Seq) : State := { putPacker s (e, src) with seq := q }

/-- bs are the bits of c from K on. -/
structure From (c : CodeEntry) (k : BitVec 8) (bs : List Bool) : Prop where
  len : k.toNat + bs.length = c.len.toNat
  bits : ∀ i (h : i < bs.length), bs[i] = c.bits.getLsbD (k.toNat + i)

/-- The next bit of a code. -/
theorem From.tail {c k b bs} (h : From c k (b :: bs)) : From c (k + 1#8) bs ∧ c.bits.getLsbD k.toNat = b ∧
    (k + 1#8 < c.len ↔ bs ≠ []) := by
  have hl := h.len
  have := c.len.isLt
  simp only [List.length_cons] at hl
  have e : (k + 1#8).toNat = k.toNat + 1 := by rw [BitVec.toNat_add]; simp; omega
  refine ⟨⟨by rw [e]; omega, fun i hi => ?_⟩, ?_, ?_⟩
  · have := h.bits (i+1) (by simpa using hi)
    rw [e, Nat.add_right_comm, Nat.add_assoc]; simpa using this
  · exact (h.bits 0 (by simp)).symm
  · rw [BitVec.lt_def, e]
    cases bs with
    | nil => simp at hl ⊢; omega
    | cons => simp at hl ⊢; omega

/-- Appending the bits of a code and ENC-U from `E_SHIFT` (43_encode.md R188). -/
theorem bits_reach (s : State) (c : CodeEntry) (src : List Byte) : ∀ (bs : List Bool) (e : Packer), bs ≠ [] → From c e.kBit bs →
    (∃ e', pushBits bs e = .done e' ∧ Reach (packed s e src (.eShift c)) (packed s e' src .eNext)) ∨
    ∃ v e', pushBits bs e = .raised .ioError v e' ∧
      Reach (packed s e src (.eShift c)) (raise .ioError v (putPacker s (e', src))) := by
  intro bs
  induction bs with
  | nil => intro e h; exact absurd rfl h
  | cons b bs ih =>
    intro e _ hk
    obtain ⟨ht, hb, hlt⟩ := hk.tail
    have s1 : microStep (packed s e src (.eShift c)) = some (packed s (shiftBit b e) src
        (if (shiftBit b e).ecnt = 8#4 then .eEmit c else afterBit c (e.kBit + 1#8))) := by
      rw [← hb]; rfl
    -- what follows once the bit is in
    have next : ∀ e1 : Packer, e1.kBit = e.kBit + 1#8 →
        (∃ e', pushBits bs e1 = .done e' ∧ Reach (packed s e1 src (afterBit c (e.kBit + 1#8))) (packed s e' src .eNext)) ∨
        ∃ v e', pushBits bs e1 = .raised .ioError v e' ∧
          Reach (packed s e1 src (afterBit c (e.kBit + 1#8))) (raise .ioError v (putPacker s (e', src))) := by
      intro e1 h1
      cases hbs : bs with
      | nil =>
        rw [afterBit, if_neg (by rw [hlt, hbs]; simp)]
        exact .inl ⟨e1, rfl, .refl _⟩
      | cons b' bs' =>
        rw [afterBit, if_pos (by rw [hlt, hbs]; simp), ← hbs]
        exact ih e1 (by simp [hbs]) (by rw [h1]; exact ht)
    rw [pushBits, pushBit]
    by_cases h8 : (shiftBit b e).ecnt = 8#4
    · rw [if_pos h8] at s1 ⊢
      rw [emitBuffer]
      cases hw : snkWrite (shiftBit b e).ebuf (shiftBit b e).sink with
      | mk a k =>
      cases a with
      | ok =>
        have s2 : microStep (packed s (shiftBit b e) src (.eEmit c)) =
            some (packed s { shiftBit b e with sink := k, ebuf := 0#8, ecnt := 0#4 } src (afterBit c (e.kBit + 1#8))) := by
          change (match snkWrite (shiftBit b e).ebuf (shiftBit b e).sink with
            | (.ok, k) => _
            | (.err, k) => _) = _
          rw [hw]; rfl
        rcases next { shiftBit b e with sink := k, ebuf := 0#8, ecnt := 0#4 } rfl with ⟨e', q, r⟩ | ⟨v, e', q, r⟩
        · exact .inl ⟨e', q, .step s1 (.step s2 r)⟩
        · exact .inr ⟨v, e', q, .step s1 (.step s2 r)⟩
      | err =>
        refine .inr ⟨_, _, rfl, .step s1 (.one ?_)⟩
        change (match snkWrite (shiftBit b e).ebuf (shiftBit b e).sink with
            | (.ok, k) => _
            | (.err, k) => _) = _
        rw [hw]; rfl
    · rw [if_neg h8] at s1 ⊢
      rcases next (shiftBit b e) rfl with ⟨e', q, r⟩ | ⟨v, e', q, r⟩
      · exact .inl ⟨e', q, .step s1 r⟩
      · exact .inr ⟨v, e', q, .step s1 r⟩

/-- The loop of ENCODE and ENC-U from `E_FETCH`. -/
theorem encode_reach (s : State) : ∀ (src : List Byte) (e : Packer),
    ∃ u, finish (encodeLoop s.code src e) (putPacker s) = .next u ∧ Reach (packed s e src .eFetch) u
  | [], e => ⟨_, rfl, .one rfl⟩
  | r :: rest, e => by
    have s1 : microStep (packed s e (r :: rest) .eFetch) = some (packed s e rest (.eLookup r)) := rfl
    rw [encodeLoop]
    by_cases h0 : (symGet s.code r).len = 0#8
    · rw [if_pos h0]
      exact ⟨_, rfl, .step s1 (.one (if_pos h0))⟩
    · rw [if_neg h0]
      have s2 : microStep (packed s e rest (.eLookup r)) =
          some (packed s { e with kBit := 0#8 } rest (.eShift (symGet s.code r))) := if_neg h0
      have hne : (symGet s.code r).string ≠ [] := by
        intro h
        have := congrArg List.length h
        rw [CodeEntry.length_string] at this
        exact h0 (BitVec.eq_of_toNat_eq (by simpa using this))
      have hfrom : From (symGet s.code r) 0#8 (symGet s.code r).string :=
        ⟨by simp, fun i hi => by simp [CodeEntry.string]⟩
      rcases bits_reach s (symGet s.code r) rest _ { e with kBit := 0#8 } hne hfrom with ⟨e', q, h⟩ | ⟨v, e', q, h⟩
      · obtain ⟨u, q1, q2⟩ := encode_reach s rest { e' with symcnt := e'.symcnt + 1#32 }
        refine ⟨u, by rw [q]; exact q1, .step s1 (.step s2 (h.trans (.step rfl q2)))⟩
      · exact ⟨_, by rw [q]; rfl, .step s1 (.step s2 h)⟩

/-- A state of DEC-U. -/
def unpacked (s : State) (d : Unpacker) (src : List Byte) (q : Seq) : State := { putUnpacker s (d, src) with seq := q }

/-- The limit of a decode command with flag L. -/
def limitOf (s : State) (l : Bool) : Option Word := if l then some s.symlim else none

/-- `D_CHECK` (44_decode.md R212). -/
theorem check_micro (s : State) (l : Bool) (d : Unpacker) (src : List Byte) :
    microStep (unpacked s d src (.dCheck l)) = some (unpacked s d src
      (if limitReached (limitOf s l) d.symcnt then .dEnd else if d.dcnt = 0#4 then .dFetch l else .dBit l)) := by
  change (if (l && d.symcnt == s.symlim) = true then _ else if d.dcnt = 0#4 then _ else _) = _
  have : (l && d.symcnt == s.symlim) = limitReached (limitOf s l) d.symcnt := by
    cases l
    · simp [limitReached, limitOf]
    · rw [Bool.true_and, Bool.eq_iff_iff, limitReached, limitOf, if_pos rfl, beq_iff_eq, beq_iff_eq, Option.some.injEq]
      exact eq_comm
  rw [this]
  split
  · rfl
  · split <;> rfl

/-- The bits of one byte and DEC-U from `D_CHECK`. -/
theorem byte_reach (s : State) (l : Bool) (src : List Byte) : ∀ (n : Nat) (d : Unpacker), d.dcnt.toNat = n →
    (∃ d', decodeByte (s.decodeTree (limitOf s l)) n d = .done d' ∧
      ((d'.dcnt = 0#4 ∧ Reach (unpacked s d src (.dCheck l)) (unpacked s d' src (.dCheck l))) ∨
        (limitReached (limitOf s l) d'.symcnt = true ∧ Reach (unpacked s d src (.dCheck l)) (unpacked s d' src .dEnd)))) ∨
    ∃ v d', decodeByte (s.decodeTree (limitOf s l)) n d = .raised .ioError v d' ∧
      Reach (unpacked s d src (.dCheck l)) (raise .ioError v (putUnpacker s (d', src))) := by
  intro n
  induction n with
  | zero =>
    intro d hd
    exact .inl ⟨d, rfl, .inl ⟨BitVec.eq_of_toNat_eq hd, .refl _⟩⟩
  | succ n ih =>
    intro d hd
    have s1 := check_micro s l d src
    rw [decodeByte, show (s.decodeTree (limitOf s l)).limit = limitOf s l from rfl]
    by_cases hr : limitReached (limitOf s l) d.symcnt = true
    · rw [if_pos hr] at s1 ⊢
      exact .inl ⟨d, rfl, .inr ⟨hr, .one s1⟩⟩
    · have h0 : d.dcnt ≠ 0#4 := by intro h; rw [h] at hd; simp at hd
      rw [if_neg hr, if_neg h0] at s1
      rw [if_neg hr]
      have hn : (takeBit (s.decodeTree (limitOf s l)) d).dcnt.toNat = n := by
        change (d.dcnt - 1#4).toNat = n
        have := d.dcnt.isLt
        bv_omega
      have s2 : microStep (unpacked s d src (.dBit l)) = some (unpacked s (takeBit (s.decodeTree (limitOf s l)) d) src
          (if isParent (nodeGet s.node (takeBit (s.decodeTree (limitOf s l)) d).dcur) then .dCheck l else .dEmit l)) := rfl
      rw [decodeBit, show (s.decodeTree (limitOf s l)).node = s.node from rfl]
      by_cases hp : isParent (nodeGet s.node (takeBit (s.decodeTree (limitOf s l)) d).dcur) = true
      · rw [if_pos hp] at s2 ⊢
        rcases ih _ hn with ⟨d', q, r⟩ | ⟨v, d', q, r⟩
        · refine .inl ⟨d', q, ?_⟩
          rcases r with ⟨r1, r2⟩ | ⟨r1, r2⟩
          · exact .inl ⟨r1, .step s1 (.step s2 r2)⟩
          · exact .inr ⟨r1, .step s1 (.step s2 r2)⟩
        · exact .inr ⟨v, d', q, .step s1 (.step s2 r)⟩
      · rw [if_neg hp] at s2 ⊢
        rw [emitSymbol]
        generalize takeBit (s.decodeTree (limitOf s l)) d = e at *
        rw [show (s.decodeTree (limitOf s l)).node = s.node from rfl]
        cases hw : snkWrite (leafSym (nodeGet s.node e.dcur)) e.sink with
        | mk a k =>
        cases a with
        | ok =>
          have s3 : microStep (unpacked s e src (.dEmit l)) =
              some (unpacked s { e with sink := k, symcnt := e.symcnt + 1#32, dcur := s.root } src (.dCheck l)) := by
            change (match snkWrite (leafSym (nodeGet s.node e.dcur)) e.sink with
              | (.ok, k) => _
              | (.err, k) => _) = _
            rw [hw]; rfl
          rcases ih { e with sink := k, symcnt := e.symcnt + 1#32, dcur := s.root } hn with ⟨d', q, r⟩ | ⟨v, d', q, r⟩
          · refine .inl ⟨d', q, ?_⟩
            rcases r with ⟨r1, r2⟩ | ⟨r1, r2⟩
            · exact .inl ⟨r1, .step s1 (.step s2 (.step s3 r2))⟩
            · exact .inr ⟨r1, .step s1 (.step s2 (.step s3 r2))⟩
          · exact .inr ⟨v, d', q, .step s1 (.step s2 (.step s3 r))⟩
        | err =>
          refine .inr ⟨_, _, rfl, .step s1 (.step s2 (.one ?_))⟩
          change (match snkWrite (leafSym (nodeGet s.node e.dcur)) e.sink with
              | (.ok, k) => _
              | (.err, k) => _) = _
          rw [hw]; rfl

/-- A limit already reached ends the loop. -/
theorem decodeLoop_limit_now {t : DecodeTree} {d : Unpacker} (h : limitReached t.limit d.symcnt = true) (bs : List Byte) :
    decodeLoop t bs d = .done (d, bs) := by
  cases bs with
  | nil => rfl
  | cons r bs => rw [decodeLoop, if_pos h]

/-- The loop of the decode commands and DEC-U from `D_CHECK`. -/
theorem decode_reach (s : State) (l : Bool) : ∀ (src : List Byte) (d : Unpacker), d.dcnt = 0#4 →
    (∃ d', decodeLoop (s.decodeTree (limitOf s l)) src d = .done d' ∧
      Reach (unpacked s d src (.dCheck l)) (complete (markTrunc (putUnpacker s d')))) ∨
    ∃ v d', decodeLoop (s.decodeTree (limitOf s l)) src d = .raised .ioError v d' ∧
      Reach (unpacked s d src (.dCheck l)) (raise .ioError v (putUnpacker s d')) := by
  intro src
  induction src with
  | nil =>
    intro d hd
    have s1 := check_micro s l d []
    refine .inl ⟨_, rfl, ?_⟩
    by_cases hr : limitReached (limitOf s l) d.symcnt = true
    · rw [if_pos hr] at s1
      exact .step s1 (.one rfl)
    · rw [if_neg hr, if_pos hd] at s1
      exact .step s1 (.step rfl (.one rfl))
  | cons r rest ih =>
    intro d hd
    have s1 := check_micro s l d (r :: rest)
    by_cases hr : limitReached (limitOf s l) d.symcnt = true
    · rw [if_pos hr] at s1
      exact .inl ⟨_, decodeLoop_limit_now hr _, .step s1 (.one rfl)⟩
    · rw [if_neg hr, if_pos hd] at s1
      have s2 : microStep (unpacked s d (r :: rest) (.dFetch l)) = some (unpacked s { d with dsh := r, dcnt := 8#4 } rest (.dBit l)) := rfl
      rw [decodeLoop, show (s.decodeTree (limitOf s l)).limit = limitOf s l from rfl, if_neg hr]
      -- the byte starts at D_BIT, where byte_reach has D_CHECK before it
      have hb := byte_reach s l rest 8 { d with dsh := r, dcnt := 8#4 } rfl
      have s3 : microStep (unpacked s { d with dsh := r, dcnt := 8#4 } rest (.dCheck l)) =
          some (unpacked s { d with dsh := r, dcnt := 8#4 } rest (.dBit l)) := by
        rw [check_micro, if_neg hr, if_neg (show ¬ (8#4 = 0#4) by decide)]
      have skip : ∀ u, u.seq ≠ .dCheck l → Reach (unpacked s { d with dsh := r, dcnt := 8#4 } rest (.dCheck l)) u →
          Reach (unpacked s { d with dsh := r, dcnt := 8#4 } rest (.dBit l)) u := by
        rintro u hu ⟨n, hn⟩
        cases n with
        | zero => exact absurd (by rw [← hn]; rfl) hu
        | succ n => rw [microRun, s3] at hn; exact ⟨n, hn⟩
      rcases hb with ⟨d', q, r1⟩ | ⟨v, d', q, r1⟩
      · rw [q]
        rcases r1 with ⟨h0, n, hn⟩ | ⟨hl, r2⟩
        · have r2 : Reach (unpacked s { d with dsh := r, dcnt := 8#4 } rest (.dBit l)) (unpacked s d' rest (.dCheck l)) := by
            cases n with
            | zero =>
              have : (unpacked s { d with dsh := r, dcnt := 8#4 } rest (.dCheck l)).dcnt = (unpacked s d' rest (.dCheck l)).dcnt := by
                rw [← hn]; rfl
              have e : 8#4 = d'.dcnt := this
              rw [h0] at e; cases e
            | succ n => rw [microRun, s3] at hn; exact ⟨n, hn⟩
          rcases ih d' h0 with ⟨d2, q2, r3⟩ | ⟨v, d2, q2, r3⟩
          · exact .inl ⟨d2, q2, .step s1 (.step s2 (r2.trans r3))⟩
          · exact .inr ⟨v, d2, q2, .step s1 (.step s2 (r2.trans r3))⟩
        · exact .inl ⟨_, decodeLoop_limit_now hl _, .step s1 (.step s2 ((skip _ (by simp [unpacked]) r2).trans (.one rfl)))⟩
      · rw [q]
        exact .inr ⟨v, _, rfl, .step s1 (.step s2 (skip _ (by simp [raise]) r1))⟩

/-- A state of CG-U. -/
def walking (s : State) (code : Vector CodeEntry 256) (path : PathBits) (depth : Nat) (stk : List Idx) (q : Seq) : State :=
  { putWalk s ⟨code, path, depth, stk⟩ with seq := q }

/-- Writing a bit that is already there. -/
theorem writeBit_self {n : Nat} {v : BitVec n} {i : Nat} {b : Bool} (h : v.getLsbD i = b) : writeBit v i b = v := by
  apply BitVec.eq_of_getLsbD_eq
  intro k hk
  rw [getLsbD_writeBit]
  split
  · rename_i h'; rw [h'.1, h]
  · rfl

/-- The later of two writes of one bit stays. -/
theorem writeBit_writeBit {n : Nat} (v : BitVec n) (i : Nat) (a b : Bool) : writeBit (writeBit v i a) i b = writeBit v i b := by
  apply BitVec.eq_of_getLsbD_eq
  intro k hk
  simp only [getLsbD_writeBit]
  split <;> rfl

/-- `CG_BACK` after the zero child (42_gencode.md R167). -/
theorem back_zero {s : State} {code path d p below} (hd : d < 255) (h : path.getLsbD d = false) :
    microStep (walking s code path (d + 1) (p :: below) .cgBack) =
      some (walking s code (writeBit path d true) (d + 1) (p :: below) (.cgWalk (oneChild (nodeGet s.node p)))) := by
  have hn : (BitVec.ofNat 9 (d + 1)).toNat - 1 = d := by simp; omega
  change (if path.getLsbD ((BitVec.ofNat 9 (d + 1)).toNat - 1) = true then _ else
    some (walking s code (writeBit path ((BitVec.ofNat 9 (d + 1)).toNat - 1) true) (d + 1) (p :: below)
      (.cgWalk (oneChild (nodeGet s.node p))))) = _
  rw [hn, if_neg (by simp [h])]

/-- `CG_BACK` after the one child. -/
theorem back_one {s : State} {code path d p below} (hd : d < 255) (h : path.getLsbD d = true) :
    microStep (walking s code path (d + 1) (p :: below) .cgBack) =
      some (walking s code (writeBit path d false) d below .cgBack) := by
  have hn : (BitVec.ofNat 9 (d + 1)).toNat - 1 = d := by simp; omega
  have hm : BitVec.ofNat 9 (d + 1) - 1#9 = BitVec.ofNat 9 d := by
    apply BitVec.eq_of_toNat_eq; simp only [BitVec.toNat_sub, BitVec.toNat_ofNat]; omega
  change (if path.getLsbD ((BitVec.ofNat 9 (d + 1)).toNat - 1) = true then some ({ putWalk s ⟨code, path, d + 1, p :: below⟩ with
    path := writeBit path ((BitVec.ofNat 9 (d + 1)).toNat - 1) false, stk := below, depth := BitVec.ofNat 9 (d + 1) - 1#9, seq := .cgBack }) else _) = _
  rw [hn, if_pos h, hm]
  rfl

/-- The recursion of GENCODE and CG-U from `CG_WALK` (42_gencode.md R167). -/
theorem visit_reach (s : State) : ∀ (room : Nat) (i : Idx) (path : PathBits) (stk : List Idx) (code : Vector CodeEntry 256),
    room ≤ 255 → (∀ k, 255 - room ≤ k → path.getLsbD k = false) →
    (∃ w, visit s.node room i path stk code = .done w ∧ w.path = path ∧ w.depth = 255 - room ∧ w.stk = stk ∧
      Reach (walking s code path (255 - room) stk (.cgWalk i)) (walking s w.code path (255 - room) stk .cgBack)) ∨
    ∃ c v w, visit s.node room i path stk code = .raised c v w ∧
      Reach (walking s code path (255 - room) stk (.cgWalk i)) (raise c v (putWalk s w)) := by
  intro room
  induction room with
  | zero =>
    intro i path stk code _ hp
    rw [visit]
    by_cases h : isParent (nodeGet s.node i) = true
    · rw [if_pos h]
      refine .inr ⟨_, _, _, rfl, .one ?_⟩
      change (if isParent (nodeGet s.node i) = true then _ else _) = _
      rw [if_pos h]; rfl
    · rw [if_neg h]
      refine .inl ⟨_, rfl, rfl, rfl, rfl, .one ?_⟩
      change (if isParent (nodeGet s.node i) = true then _ else _) = _
      rw [if_neg h]; rfl
  | succ room ih =>
    intro i path stk code hr hp
    obtain ⟨d, hd⟩ : ∃ d, d = 255 - (room + 1) := ⟨_, rfl⟩
    have hd1 : 255 - room = d + 1 := by omega
    have hd2 : Config.maxLen - (room + 1) = d := hd.symm
    have hlt : d < 255 := by omega
    rw [hd1] at ih
    rw [← hd] at hp ⊢
    rw [visit, hd2]
    by_cases h : isParent (nodeGet s.node i) = true
    · rw [if_pos h]
      have hne : BitVec.ofNat 9 d ≠ 255#9 := by
        intro e; have := congrArg BitVec.toNat e; simp at this; omega
      have s1 : microStep (walking s code path d stk (.cgWalk i)) =
          some (walking s code path (d + 1) (i :: stk) (.cgWalk (zeroChild (nodeGet s.node i)))) := by
        have hn : (BitVec.ofNat 9 d).toNat = d := by simp; omega
        have hm : BitVec.ofNat 9 d + 1#9 = BitVec.ofNat 9 (d + 1) := by bv_omega
        change (if isParent (nodeGet s.node i) = true then (if BitVec.ofNat 9 d = 255#9 then _ else
          some ({ putWalk s ⟨code, path, d, stk⟩ with
            stk := i :: stk, path := writeBit path (BitVec.ofNat 9 d).toNat false, depth := BitVec.ofNat 9 d + 1#9,
            seq := .cgWalk (zeroChild (nodeGet s.node i)) })) else _) = _
        rw [if_pos h, if_neg hne, hn, hm, writeBit_self (hp d (by omega))]
        rfl
      rcases ih (zeroChild (nodeGet s.node i)) path (i :: stk) code (by omega) (fun k hk => hp k (by omega)) with
        ⟨w, q, q1, q2, q3, r⟩ | ⟨c, v, w, q, r⟩
      · rw [q]
        have s2 := back_zero (s := s) (code := w.code) (path := path) (p := i) (below := stk) hlt (hp d (by omega))
        have hp' : ∀ k, d + 1 ≤ k → (writeBit path d true).getLsbD k = false := by
          intro k hk
          rw [getLsbD_writeBit, if_neg (by omega)]; exact hp k (by omega)
        rcases ih (oneChild (nodeGet s.node i)) (writeBit path d true) (i :: stk) w.code (by omega) hp' with
          ⟨w', q', _, _, _, r'⟩ | ⟨c, v, w', q', r'⟩
        · simp only [q']
          have s3 := back_one (s := s) (code := w'.code) (path := writeBit path d true) (p := i) (below := stk) hlt
            (by rw [getLsbD_writeBit, if_pos ⟨rfl, by omega⟩])
          rw [writeBit_writeBit, writeBit_self (hp d (by omega))] at s3
          exact .inl ⟨_, rfl, rfl, rfl, rfl, .step s1 (r.trans (.step s2 (r'.trans (.one s3))))⟩
        · simp only [q']
          exact .inr ⟨_, _, _, rfl, .step s1 (r.trans (.step s2 r'))⟩
      · rw [q]
        exact .inr ⟨_, _, _, rfl, .step s1 r⟩
    · rw [if_neg h]
      refine .inl ⟨_, rfl, rfl, rfl, rfl, .one ?_⟩
      have hn : (BitVec.ofNat 9 d).toNat = d := by simp; omega
      change (if isParent (nodeGet s.node i) = true then _ else some (walking s (symSet code (leafSym (nodeGet s.node i))
        (.ofPath (BitVec.ofNat 9 d).toNat path)) path d stk .cgBack)) = _
      rw [if_neg h, hn]

/-- A state of TB-U. -/
def building (s : State) (nsyms : Idx) (b : Builder) (scan : Idx) (q : Seq) : State :=
  { putBuilder s nsyms b with sScan := scan, seq := q }

/-- The next symbol of the scan. -/
theorem drop_allSymbols {j : Nat} (h : j < 256) : allSymbols.drop j = BitVec.ofNat 8 j :: allSymbols.drop (j + 1) := by
  rw [List.drop_eq_getElem_cons (by simp [allSymbols]; omega)]
  simp [allSymbols]

/-- The seeding and TB-U from `TB_SEED` (41_build.md R140). -/
theorem seed_reach (s : State) (nsyms : Idx) : ∀ (n j : Nat) (b : Builder), n + j = 256 →
    Reach (building s nsyms b (BitVec.ofNat 9 j) .tbSeed)
      (building s nsyms ((allSymbols.drop j).foldl (seedSymbol s.cnt) b) 256#9 .tbSeed) := by
  intro n
  induction n with
  | zero =>
    intro j b h
    obtain rfl : j = 256 := by omega
    exact .refl _
  | succ n ih =>
    intro j b h
    rw [drop_allSymbols (by omega), List.foldl_cons]
    refine .step ?_ (ih (j + 1) _ (by omega))
    have hne : BitVec.ofNat 9 j ≠ 256#9 := by
      intro e; have := congrArg BitVec.toNat e; simp at this; omega
    have hs : (BitVec.ofNat 9 j).setWidth 8 = BitVec.ofNat 8 j := by
      apply BitVec.eq_of_toNat_eq; simp
    have hm : BitVec.ofNat 9 j + 1#9 = BitVec.ofNat 9 (j + 1) := by bv_omega
    change (if BitVec.ofNat 9 j = 256#9 then _ else some (microSeed (building s nsyms b (BitVec.ofNat 9 j) .tbSeed) ((BitVec.ofNat 9 j).setWidth 8))) = _
    rw [if_neg hne, hs, microSeed, seedSymbol]
    change some (if 0#32 < symGet s.cnt (BitVec.ofNat 8 j) then building s nsyms (b.insert (leafWord (BitVec.ofNat 8 j)) (symGet s.cnt (BitVec.ofNat 8 j))) (BitVec.ofNat 9 j + 1#9) .tbSeed
      else building s nsyms b (BitVec.ofNat 9 j + 1#9) .tbSeed) = _
    rw [hm]
    split <;> rfl

/-- One merge and TB-U from `TB_POP_A`. -/
theorem merge_reach (s : State) (nsyms : Idx) {b : Builder} (hl : 1 < b.pq.length) :
    Reach (building s nsyms b 256#9 .tbPopA) (building s nsyms (mergeOnce b) 256#9 .tbPopA) ∧
      (mergeOnce b).pq.length + 1 = b.pq.length := by
  obtain ⟨i, hi, him, _⟩ := popmin_spec b.wgt (pq := b.pq) (by intro e; simp [e] at hl)
  have hlen : (b.pq.erase i).length = b.pq.length - 1 := List.length_erase_of_mem him
  obtain ⟨j, hj, hjm, _⟩ := popmin_spec b.wgt (pq := b.pq.erase i) (by intro e; simp [e] at hlen; omega)
  have hlen' := List.length_erase_of_mem hjm
  have e : mergeOnce b = ({ b with pq := (b.pq.erase i).erase j, aIdx := i, bIdx := j } : Builder).insert (parentWord i j)
      (wgtGet b.wgt i + wgtGet b.wgt j) := by
    simp only [mergeOnce, hi, hj]
  constructor
  · have s1 : microStep (building s nsyms b 256#9 .tbPopA) =
        some (building s nsyms { b with aIdx := i, pq := b.pq.erase i } 256#9 .tbPopB) := by
      change (if b.pq.length = 1 then _ else (popmin b.wgt b.pq).map _) = _
      rw [if_neg (by omega), hi]; rfl
    have s2 : microStep (building s nsyms { b with aIdx := i, pq := b.pq.erase i } 256#9 .tbPopB) =
        some (building s nsyms { b with aIdx := i, bIdx := j, pq := (b.pq.erase i).erase j } 256#9 .tbMerge) := by
      change (popmin b.wgt (b.pq.erase i)).map _ = _
      rw [hj]; rfl
    rw [e]
    exact .step s1 (.step s2 (.one rfl))
  · rw [e]; simp only [Builder.insert, List.length_append, List.length_singleton]; omega

/-- The merges and TB-U from `TB_POP_A` on. -/
theorem mergeLoop_reach (s : State) (nsyms : Idx) : ∀ (n : Nat) (b : Builder), 1 ≤ b.pq.length → b.pq.length ≤ n + 1 →
    Reach (building s nsyms b 256#9 .tbPopA) (building s nsyms (mergeLoop n b) 256#9 .tbPopA) ∧ (mergeLoop n b).pq.length = 1 := by
  intro n
  induction n with
  | zero => intro b h1 h2; exact ⟨.refl _, by simp only [mergeLoop]; omega⟩
  | succ n ih =>
    intro b h1 h2
    rw [mergeLoop]
    by_cases hl : 1 < b.pq.length
    · rw [if_pos hl]
      obtain ⟨r, q⟩ := merge_reach s nsyms hl
      obtain ⟨r', q'⟩ := ih (mergeOnce b) (by omega) (by omega)
      exact ⟨r.trans r', q'⟩
    · rw [if_neg hl]
      exact ⟨.refl _, by omega⟩

end Sys2Proof.Machine
end

