-- ==== Sys2Proof/Laws/PerInstr.lean ====
section
/-! SUPPORT. Statements made once for each command, as syntax. -/

namespace Sys2Proof.Laws.RoundTrip

/-- The command's word decodes to the command, and its well-formedness is that of its word (30_encoding.md R103, R104). -/
def Statement (i : Instr) : Prop := decode (encode i) = .ok i ∧ i.wellFormed = CommandWord.wellFormed (encode i)

theorem reset : Statement .reset := ⟨rfl, rfl⟩

theorem count : Statement .count := ⟨rfl, rfl⟩

theorem build : Statement .build := ⟨rfl, rfl⟩

theorem gencode : Statement .gencode := ⟨rfl, rfl⟩

theorem encode : Statement .encode := ⟨rfl, rfl⟩

theorem flush : Statement .flush := ⟨rfl, rfl⟩

theorem decode : Statement .decode := ⟨rfl, rfl⟩

theorem decoden : Statement .decoden := ⟨rfl, rfl⟩

end Sys2Proof.Laws.RoundTrip
end

