-- ==== Sys2Proof/Tests/Slice0.lean ====
section
/-! SUPPORT. The model's own tests. The expected values are those of 95_test_vectors.md (V1 to V17) and of the worked
examples of the rules; no value is the model's own answer. After the tests stand the witnesses: a state for each
statement's hypotheses. -/

namespace Sys2Proof.Tests

open Sys2Proof.Machine

-- The tests one after another: each `decide +kernel` in a thread of its own asks for too many threads.
set_option Elab.async false

abbrev Out := Host.Outcome State Fault Refusal

/-- The outcome is a next state of which p holds. -/
def yields (o : Out) (p : State → Bool) : Bool :=
  match o with
  | .next s => p s
  | .fault _ => false
  | .refused _ => false

theorem of_yields {o : Out} {p : State → Bool} (h : yields o p = true) : ∃ t, o = .next t ∧ p t = true := by
  cases o with
  | next s => exact ⟨s, rfl, h⟩
  | fault r => cases h
  | refused r => cases h

/-! ## Words, bit by bit (30_encoding.md R100, R103) -/

theorem test_decode_reset : decode 0b00000000000000000000000000000001#32 = .ok .reset := rfl

theorem test_decode_count : decode 0b00000000000000000000000000000010#32 = .ok .count := rfl

theorem test_decode_build : decode 0b00000000000000000000000000000011#32 = .ok .build := rfl

theorem test_decode_gencode : decode 0b00000000000000000000000000000100#32 = .ok .gencode := rfl

theorem test_decode_encode : decode 0b00000000000000000000000000000101#32 = .ok .encode := rfl

theorem test_decode_flush : decode 0b00000000000000000000000000000110#32 = .ok .flush := rfl

theorem test_decode_decode : decode 0b00000000000000000000000000000111#32 = .ok .decode := rfl

theorem test_decode_decoden : decode 0b00000000000000000000000100000111#32 = .ok .decoden := rfl

/-! ## Ill-formed terms, one for each check of WellFormed.lean (30_encoding.md R105, R108; V14) -/

theorem test_reserved_bit_ill_formed : CommandWord.reservedZero 0x00000207#32 = false ∧
    CommandWord.wellFormed 0x00000207#32 = false ∧ decode 0x00000207#32 = .error .reservedBits := ⟨rfl, rfl, rfl⟩

theorem test_opcode_zero_ill_formed : CommandWord.opcKnown 0x00000000#32 = false ∧
    CommandWord.wellFormed 0x00000000#32 = false ∧ decode 0x00000000#32 = .error .unknownOpcode := ⟨rfl, rfl, rfl⟩

theorem test_opcode_eight_ill_formed : CommandWord.opcKnown 0x00000008#32 = false ∧
    CommandWord.wellFormed 0x00000008#32 = false ∧ decode 0x00000008#32 = .error .unknownOpcode := ⟨rfl, rfl, rfl⟩

theorem test_count_with_limit_ill_formed : CommandWord.limitLegal 0x00000102#32 = false ∧
    CommandWord.wellFormed 0x00000102#32 = false ∧ decode 0x00000102#32 = .error .limitFlag := ⟨rfl, rfl, rfl⟩

theorem test_reset_with_limit_ill_formed : CommandWord.wellFormed 0x00000101#32 = false ∧
    decode 0x00000101#32 = .error .limitFlag := ⟨rfl, rfl⟩

/-- `LOADSRC x` before any `TAKESNK -> x` (R108). -/
theorem test_unbound_name_ill_formed : Program.wellFormed [] [.loadSrcName 1] = false ∧
    Program.wellFormed [] [.takeSnk 1, .loadSrcName 1] = true := by decide

/-- A name given a register's value holds no sequence any more (R108). -/
theorem test_register_name_ill_formed :
    Program.wellFormed [] [.takeSnk 1, .memRead 0x0010#15 4 1, .loadSrcName 1] = false := by decide

theorem test_unbound_name_refused :
    step { State.reset with pending := [.loadSrcName 1] } = .refused (.unboundName 1) := rfl

/-! ## States of the vectors -/

/-- V1 before COUNT: `LOADSRC "aaab"` after reset. -/
def aaab : State := { State.reset with src := [0x61#8, 0x61#8, 0x61#8, 0x62#8] }

/-- V1 after COUNT. -/
def abCounts : State :=
  { State.reset with cnt := (clearedCounts.set 0x61 3#32).set 0x62 1#32, symcnt := 4#32, resp := .ok }

/-- V1 after BUILD, with the scratch registers TB-U leaves (41_build.md R140). -/
def abTree : State :=
  { abCounts with
    node := ((State.reset.node.set 0 0x00000061#32).set 1 0x00000062#32).set 2 0x80000001#32
    wgt := ((State.reset.wgt.set 0 3#32).set 1 1#32).set 2 4#32
    nsyms := 2#9, nnodes := 3#9, root := 2#9, treeValid := true, pq := [2#9], sScan := 256#9, aIdx := 1#9, bIdx := 0#9 }

/-- V1 after GENCODE. -/
def abCodes : State :=
  { abTree with codesValid := true, code := (clearedCodes.set 0x61 ⟨1#8, 1#255⟩).set 0x62 ⟨1#8, 0#255⟩ }

/-- A sink that accepts the next m bytes and refuses the one after, as `SINK accepts m` says. -/
def sinkOf (m : Nat) : Sink := ⟨[], acceptsAnswers m, 0⟩

/-- V1 after ENCODE: E0 pending, ECNT = 4, nothing written. -/
def abEncoded (m : Nat) : State := { abCodes with ebuf := 0xE0#8, ecnt := 4#4, sink := sinkOf m }

/-- V1 before the decoding of E0. -/
def abStream (m : Nat) : State := { abCodes with src := [0xE0#8], sink := sinkOf m, symlim := 4#32 }

/-- "abracadabra". -/
def abra : List Byte := [0x61#8, 0x62#8, 0x72#8, 0x61#8, 0x63#8, 0x61#8, 0x64#8, 0x61#8, 0x62#8, 0x72#8, 0x61#8]

/-- V3: tree and codes of "abracadabra" (41_build.md R146, 42_gencode.md R168). -/
def abraCodes : State :=
  { State.reset with
    node := ((((((((State.reset.node.set 0 0x00000061#32).set 1 0x00000062#32).set 2 0x00000063#32).set 3 0x00000064#32).set 4
      0x00000072#32).set 5 0x80030002#32).set 6 0x80040001#32).set 7 0x80060005#32).set 8 0x80070000#32
    nsyms := 5#9, nnodes := 9#9, root := 8#9, treeValid := true, codesValid := true
    code := ((((clearedCodes.set 0x61 ⟨1#8, 0#255⟩).set 0x62 ⟨3#8, 3#255⟩).set 0x63 ⟨3#8, 1#255⟩).set 0x64 ⟨3#8, 5#255⟩).set
      0x72 ⟨3#8, 7#255⟩ }

/-- 6E 8A DC. -/
def abraStream : List Byte := [0x6E#8, 0x8A#8, 0xDC#8]

/-! ## Two tests at most for each command -/

/-- V1. -/
theorem test_count_aaab : yields (exec .count aaab)
    (fun t => symGet t.cnt 0x61#8 == 3#32 && symGet t.cnt 0x62#8 == 1#32 && symGet t.cnt 0x63#8 == 0#32 && t.symcnt == 4#32 &&
      t.src == [] && t.status == 0#32 && t.resp == .ok) = true := by decide +kernel

/-- V16 (a): COUNT replaces, it does not accumulate. -/
theorem test_count_replaces : yields (exec .count { abCounts with src := [0x7A#8] })
    (fun t => symGet t.cnt 0x61#8 == 0#32 && symGet t.cnt 0x7A#8 == 1#32 && t.symcnt == 1#32) = true := by decide +kernel

/-- V1. -/
theorem test_build_aaab : yields (exec .build abCounts)
    (fun t => nodeGet t.node 0#9 == 0x00000061#32 && nodeGet t.node 1#9 == 0x00000062#32 && nodeGet t.node 2#9 == 0x80000001#32 &&
      wgtGet t.wgt 2#9 == 4#32 && t.nsyms == 2#9 && t.nnodes == 3#9 && t.root == 2#9 && t.status == 0x00000002#32) = true := by
  decide +kernel

/-- V3, 41_build.md R146: the leaf before a parent of equal weight. -/
theorem test_build_abracadabra : yields
    (exec .build { State.reset with
      cnt := ((((clearedCounts.set 0x61 5#32).set 0x62 2#32).set 0x63 1#32).set 0x64 1#32).set 0x72 2#32 })
    (fun t => nodeGet t.node 5#9 == 0x80030002#32 && nodeGet t.node 6#9 == 0x80040001#32 && nodeGet t.node 7#9 == 0x80060005#32 &&
      nodeGet t.node 8#9 == 0x80070000#32 && t.root == 8#9 && wgtGet t.wgt 8#9 == 11#32) = true := by decide +kernel

/-- V1. -/
theorem test_gencode_aaab : yields (exec .gencode abTree)
    (fun t => symGet t.code 0x61#8 == ⟨1#8, 1#255⟩ && symGet t.code 0x62#8 == ⟨1#8, 0#255⟩ && symGet t.code 0x63#8 == ⟨0#8, 0#255⟩ &&
      t.status == 0x00000006#32) = true := by decide +kernel

/-- V3, 42_gencode.md R168. -/
theorem test_gencode_abracadabra : yields (exec .gencode { abraCodes with codesValid := false, code := clearedCodes })
    (fun t => symGet t.code 0x61#8 == ⟨1#8, 0#255⟩ && symGet t.code 0x62#8 == ⟨3#8, 3#255⟩ && symGet t.code 0x63#8 == ⟨3#8, 1#255⟩ &&
      symGet t.code 0x64#8 == ⟨3#8, 5#255⟩ && symGet t.code 0x72#8 == ⟨3#8, 7#255⟩) = true := by decide +kernel

/-- V3, 43_encode.md R193. -/
theorem test_encode_abracadabra : yields (exec .encode { abraCodes with src := abra, sink := sinkOf 9 })
    (fun t => t.sink.out == [0x6E#8, 0x8A#8] && t.ebits == 0x000007DC#32 && t.symcnt == 11#32 && t.src == []) = true := by
  decide +kernel

/-- V12 (a): the second byte is refused. -/
theorem test_encode_refused : yields (exec .encode { abraCodes with src := abra, sink := sinkOf 1 })
    (fun t => t.status == 0x00000307#32 && t.finfo == 0x0000008A#32 && t.symcnt == 7#32 && t.ebits == 0x0000088A#32 &&
      t.sink.out == [0x6E#8] && t.src == [0x62#8, 0x72#8, 0x61#8]) = true := by decide +kernel

/-- V1. -/
theorem test_flush_writes_residual : yields (exec .flush (abEncoded 1))
    (fun t => t.sink.out == [0xE0#8] && t.ebits == 0#32 && t.symcnt == 4#32) = true := by decide +kernel

/-- V12 (b). -/
theorem test_flush_refused : yields (exec .flush (abEncoded 0))
    (fun t => t.status == 0x00000307#32 && t.finfo == 0x000000E0#32 && t.ebits == 0x000004E0#32 && t.sink.out == []) = true := by
  decide +kernel

/-- V15, row 1, with 44_decode.md R215: the source ends inside a code. -/
theorem test_decode_truncated : yields (exec .decode { abraCodes with src := [0x01#8], sink := sinkOf 9 })
    (fun t => t.sink.out == List.replicate 7 0x61#8 && t.symcnt == 7#32 && t.dcur == 7#9 && t.status == 0x0000000E#32) = true := by
  decide +kernel

/-- V12 (c): the third symbol is refused. -/
theorem test_decode_refused : yields (exec .decode { abraCodes with src := abraStream, sink := sinkOf 2 })
    (fun t => t.status == 0x00000307#32 && t.finfo == 0x00000072#32 && t.symcnt == 2#32 && t.dcur == 4#9 &&
      t.sink.out == [0x61#8, 0x62#8] && t.src == [0x8A#8, 0xDC#8]) = true := by decide +kernel

/-- V15: the limit 3 is reached inside the first byte. -/
theorem test_decoden_stops_at_limit : yields (exec .decoden { abraCodes with src := abraStream, symlim := 3#32, sink := sinkOf 9 })
    (fun t => t.sink.out == [0x61#8, 0x62#8, 0x72#8] && t.symcnt == 3#32 && t.dcur == 8#9 && !t.trunc &&
      t.src == [0x8A#8, 0xDC#8]) = true := by decide +kernel

/-- V15: with the limit 0 nothing is read. -/
theorem test_decoden_limit_zero : yields (exec .decoden { abraCodes with src := abraStream, symlim := 0#32, sink := sinkOf 9 })
    (fun t => t.sink.out == [] && t.symcnt == 0#32 && t.src == abraStream) = true := by decide +kernel

/-- V11: RESET after a ContractViolation. -/
theorem test_reset_leaves_fault : yields
    (exec .reset { abCodes with fault := true, cause := .contractViolation, finfo := 0x63#32, symlim := 9#32 })
    (fun t => t.status == 0#32 && t.finfo == 0#32 && t.symlim == 0#32 && symGet t.cnt 0x61#8 == 0#32 && t.resp == .ok) = true := by
  decide +kernel

/-! ## The register port (V17) -/

theorem test_port_reads : portRead abCodes 0x0004#15 4 = some 0x00000006#32 ∧ portRead abCodes 0x0584#15 4 = some 3#32 ∧
    portRead abCodes 0x0808#15 4 = some 0x80000001#32 ∧ portRead abCodes 0x0FF8#15 4 = some 0#32 ∧
    portRead abCodes 0x5844#15 4 = some 1#32 ∧ portRead abCodes 0x7FE0#15 4 = some 0#32 := by decide +kernel

theorem test_port_errors : portRead abCodes 0x0000#15 4 = none ∧ portRead abCodes 0x0FFC#15 4 = none ∧
    portRead abCodes 0x5864#15 4 = none ∧ portRead abCodes 0x0006#15 4 = none ∧ portRead abCodes 0x0004#15 8 = none := by
  decide +kernel

theorem test_port_writes : memWrite 0x000C#15 4 0xDEADBEEF#32 abCodes = .next { abCodes with symlim := 0xDEADBEEF#32, resp := .ok } ∧
    memWrite 0x000C#15 2 1#32 abCodes = .next { abCodes with resp := .err } ∧
    memWrite 0x5840#15 4 1#32 abCodes = .next { abCodes with resp := .err } := ⟨rfl, rfl, rfl⟩

/-- V14. -/
theorem test_illegal_word : yields (memWrite 0x0000#15 4 0x00010007#32 State.reset)
    (fun t => t.status == 0x00000701#32 && t.finfo == 0x00010007#32 && t.resp == .err) = true := by decide +kernel

/-- V12 (a) on the state machine of ENC-U (43_encode.md R188). -/
theorem test_micro_encode : (fun t : State => t.status == 0x00000307#32 && t.finfo == 0x0000008A#32 && t.symcnt == 7#32 &&
    t.ebits == 0x0000088A#32 && t.sink.out == [0x6E#8] && t.src == [0x62#8, 0x72#8, 0x61#8])
    (microRun 60 { abraCodes with src := abra, sink := sinkOf 1, seq := .eStart }) = true := by decide +kernel

/-! ## Witnesses: the hypotheses of each statement can be met together -/

theorem sinkOf_accepts (m : Nat) : (sinkOf m).accepts m := by
  intro j hj
  simp only [Sink.nth, sinkOf, acceptsAnswers]
  rw [List.getElem?_append_left (by simpa using hj)]
  simp [hj]

theorem sinkOf_refuses (m : Nat) : (sinkOf m).nth m = .err := by simp [Sink.nth, sinkOf, acceptsAnswers]

/-- The next host action is the write of w to CMD. -/
def issuing (w : Word) (s : State) : State := { s with pending := [.memWrite 0x0000#15 4 w] }

/-- The fault state. -/
def broken : State := { State.reset with fault := true, cause := .ioError, finfo := 0x6E#32 }

/-! Words and steps -/

theorem witness_illegal_words : (∀ i, 0x00000000#32 ≠ encode i) ∧ (∀ i, 0x00000008#32 ≠ encode i) ∧ (∀ i, 0x000000FF#32 ≠ encode i) ∧
    (∀ i, 0x00000207#32 ≠ encode i) ∧ (∀ i, 0x80000002#32 ≠ encode i) ∧ (∀ i, 0x00000101#32 ≠ encode i) ∧
    State.reset.fault = false ∧ broken.fault = true := by
  refine ⟨?_, ?_, ?_, ?_, ?_, ?_, rfl, rfl⟩ <;> (intro i; cases i <;> decide)

theorem witness_issue_reset : (issuing 0x00000001#32 broken).pending = .memWrite 0x0000#15 4 0x00000001#32 :: [] := rfl

theorem witness_issue_refused : (issuing 0x00000101#32 broken).pending = .memWrite 0x0000#15 4 0x00000101#32 :: [] ∧
    0x00000101#32 ≠ 0x00000001#32 ∧ (issuing 0x00000101#32 broken).fault = true := ⟨rfl, by decide, rfl⟩

theorem witness_issue_illegal : (issuing 0x00000101#32 State.reset).pending = .memWrite 0x0000#15 4 0x00000101#32 :: [] ∧
    (issuing 0x00000101#32 State.reset).fault = false ∧ ∀ i, 0x00000101#32 ≠ encode i :=
  ⟨rfl, rfl, by intro i; cases i <;> decide⟩

theorem witness_issue_sequence : (issuing 0x00000005#32 abTree).pending = .memWrite 0x0000#15 4 0x00000005#32 :: [] ∧
    (issuing 0x00000005#32 abTree).fault = false ∧ 0x00000005#32 = encode .encode ∧
    (issuing 0x00000005#32 abTree).required .encode = false := ⟨rfl, rfl, rfl, rfl⟩

theorem witness_issue_runs : (issuing 0x00000007#32 abTree).pending = .memWrite 0x0000#15 4 0x00000007#32 :: [] ∧
    (issuing 0x00000007#32 abTree).fault = false ∧ 0x00000007#32 = encode .decode ∧
    (issuing 0x00000007#32 abTree).required .decode = true := ⟨rfl, rfl, rfl, rfl⟩

theorem witness_step_runs : (issuing 0x00000107#32 abTree).pending = .memWrite 0x0000#15 4 0x00000107#32 :: [] ∧
    decode 0x00000107#32 = .ok .decoden := ⟨rfl, rfl⟩

theorem witness_table_word : decodeTableWord 32 0x00000107 = some .decoden ∧ decodeTableWord 8 0x02 = some .count := ⟨rfl, rfl⟩

theorem witness_idle_step : State.reset.pending = [] := rfl

theorem witness_host_actions :
    ({ State.reset with pending := [.loadSrc [0x61#8]] } : State).pending = .loadSrc [0x61#8] :: [] ∧
    ({ State.reset with pending := [.takeSnk 1, .loadSrcName 1] } : State).pending = .takeSnk 1 :: .loadSrcName 1 :: [] ∧
    ({ State.reset with pending := [.sinkAccepts 3] } : State).pending = .sinkAccepts 3 :: [] := ⟨rfl, rfl, rfl⟩

theorem witness_host_other_name : (2 : Nat) ≠ 1 ∧
    lookupName 2 ({ State.reset with
      names := [(2, .bytes [0x61#8])], pending := [.takeSnk 1, .loadSrcName 2] } : State).names = some (.bytes [0x61#8]) :=
  ⟨by decide, rfl⟩

/-! Reset and faults -/

theorem witness_reset_state : IsReset { State.reset with src := [0x61#8] } ∧
    ({ State.reset with src := [0x61#8] } : State).src.length < 2 ^ 32 := by
  refine ⟨?_, by decide⟩
  constructor <;> (try simp [State.reset, Cause.code])

theorem witness_fault_state : broken.fault = true ∧ 0x00000002#32 ≠ 0x00000001#32 ∧ Instr.count ≠ Instr.reset ∧
    locate 0x0004#15 4 = some .status ∧ PortLoc.status ≠ .cmd := ⟨rfl, by decide, by decide, rfl, by decide⟩

theorem witness_leaving_fault : broken.fault = true ∧
    (∃ t, step (issuing 0x00000001#32 broken) = .next t ∧ t.fault = false) ∧
    ∃ t, step { broken with pending := [.hardReset] } = .next t ∧ t.fault = false := ⟨rfl, ⟨_, rfl, rfl⟩, ⟨_, rfl, rfl⟩⟩

theorem witness_sequence_error : State.reset.fault = false ∧ State.reset.treeValid = false ∧ State.reset.codesValid = false ∧
    State.reset.cause ≠ .sequenceError ∧ ∃ t, exec .decoden State.reset = .next t ∧ t.cause = .sequenceError :=
  ⟨rfl, rfl, rfl, by decide, ⟨_, rfl, rfl⟩⟩

/-- A source that starts with `pre` and goes on with 0x62 (V16 (c)). -/
def overflowing (pre : List Byte) : State := { State.reset with src := pre ++ 0x62#8 :: [] }

theorem overflowing_src (pre : List Byte) : (overflowing pre).src = pre ++ 0x62#8 :: [] := rfl

theorem overflowing_raises {pre : List Byte} (h : pre.length = 2 ^ 32 - 1) :
    ∃ t, exec .count (overflowing pre) = .next t ∧ t.fault = true :=
  ⟨_, exec_count_overflow rfl (overflowing_src pre) h, rfl⟩

/-- 2^32-1 bytes 0x61. -/
theorem witness_count_overflow : ∃ pre : List Byte, pre.length = 2 ^ 32 - 1 ∧ (overflowing pre).fault = false ∧
    (overflowing pre).src = pre ++ 0x62#8 :: [] :=
  ⟨List.replicate (2 ^ 32 - 1) 0x61#8, List.length_replicate, rfl, overflowing_src _⟩

/-- Every node a Parent of node 0: no tree, but a state. -/
def endless : State := { State.reset with node := Vector.replicate 511 0x80000000#32, treeValid := true }

theorem witness_cause_count : ∃ pre t, exec .count (overflowing pre) = .next t ∧ t.fault = true :=
  ⟨List.replicate (2 ^ 32 - 1) 0x61#8, overflowing_raises List.length_replicate⟩

theorem witness_cause_build : ∃ t, exec .build State.reset = .next t ∧ t.fault = true := of_yields (by decide +kernel)

theorem witness_cause_gencode : (∃ t, exec .gencode State.reset = .next t ∧ t.fault = true) ∧
    ∃ t, exec .gencode endless = .next t ∧ t.fault = true := ⟨⟨_, rfl, rfl⟩, of_yields (by decide +kernel)⟩

theorem witness_cause_encode : (∃ t, exec .encode State.reset = .next t ∧ t.fault = true) ∧
    (∃ t, exec .encode { abCodes with src := [0x63#8] } = .next t ∧ t.fault = true) ∧
    ∃ t, exec .encode { abraCodes with src := abra, sink := sinkOf 1 } = .next t ∧ t.fault = true :=
  ⟨⟨_, rfl, rfl⟩, of_yields (by decide +kernel), of_yields (by decide +kernel)⟩

theorem witness_cause_flush : ∃ t, exec .flush (abEncoded 0) = .next t ∧ t.fault = true := of_yields (by decide +kernel)

theorem witness_cause_decode : (∃ t, exec .decode State.reset = .next t ∧ t.fault = true) ∧
    (∃ t, exec .decode (abStream 0) = .next t ∧ t.fault = true) ∧ ∃ t, exec .decoden (abStream 3) = .next t ∧ t.fault = true :=
  ⟨⟨_, rfl, rfl⟩, of_yields (by decide +kernel), of_yields (by decide +kernel)⟩

/-- Every command ends in a next state on the state of V1, which is not the fault state. -/
theorem witness_commands_end (i : Instr) : abCodes.fault = false ∧ ∃ t, exec i abCodes = .next t := by
  refine ⟨rfl, ?_⟩
  rcases exec_ends (s := abCodes) i rfl with ⟨u, h, _⟩ | ⟨c, v, u, h, _⟩ <;> exact ⟨_, h⟩

/-! The port -/

/-- A code of 255 bits, all ones, at its two ends: word 1 and word 8 (20_memory.md R69). -/
theorem witness_code_words : (⟨255#8, BitVec.allOnes 255⟩ : CodeEntry).word 1 = 0xFFFFFFFF#32 ∧
    (⟨255#8, BitVec.allOnes 255⟩ : CodeEntry).word 8 = 0x7FFFFFFF#32 := by decide +kernel

/-- The ends of the holes (20_memory.md R65). -/
theorem witness_port_holes : portRead abCodes 0x0028#15 4 = none ∧ portRead abCodes 0x03FC#15 4 = none ∧
    portRead abCodes 0x0FFC#15 4 = none ∧ portRead abCodes 0x17FC#15 4 = none ∧ portRead abCodes 0x3FFC#15 4 = none ∧
    portRead abCodes 0x4024#15 4 = none ∧ portRead abCodes 0x7FFC#15 4 = none := by decide +kernel

/-- The mapped locations next to them, which also witness a read answered OK. -/
theorem witness_port_edges : portRead abCodes 0x0024#15 4 = some 0#32 ∧ portRead abCodes 0x0400#15 4 = some 0#32 ∧
    portRead abCodes 0x07FC#15 4 = some 0#32 ∧ portRead abCodes 0x0800#15 4 = some 0x61#32 ∧ portRead abCodes 0x1000#15 4 = some 3#32 ∧
    portRead abCodes 0x17F8#15 4 = some 0#32 ∧ portRead abCodes 0x4000#15 4 = some 0#32 ∧
    portRead abCodes 0x4020#15 4 = some 0#32 := by decide +kernel

theorem witness_refused_write : (2 : Nat) ≠ 4 ∧ 0x0004#15 ≠ 0x0000#15 ∧ 0x0004#15 ≠ 0x000C#15 := by decide

/-! COUNT and BUILD -/

theorem witness_count_fits : aaab.fault = false ∧ aaab.src.length < 2 ^ 32 := by decide

theorem witness_queue_order : before abTree.wgt 1#9 0#9 = true ∧ before abTree.wgt 0#9 2#9 = true ∧ 1#9 ≠ 0#9 ∧
    [0#9, 1#9] ≠ [] := by decide +kernel

theorem witness_no_symbol : State.reset.fault = false ∧ ∀ x, symGet State.reset.cnt x = 0#32 :=
  ⟨rfl, symGet_replicate _⟩

/-- V5. -/
theorem witness_one_symbol : ({ State.reset with cnt := symSet clearedCounts 0x61#8 4#32 } : State).fault = false ∧
    ∀ y, symGet ({ State.reset with cnt := symSet clearedCounts 0x61#8 4#32 } : State).cnt y ≠ 0#32 ↔ y = 0x61#8 := by
  refine ⟨rfl, fun y => ?_⟩
  change symGet (symSet clearedCounts 0x61#8 4#32) y ≠ 0#32 ↔ _
  rw [symGet_symSet]
  split
  · simp_all
  · rename_i h; simp [Ne.symm h]

theorem ab_two : 2 ≤ alphabetSize abCounts.cnt := by decide +kernel

theorem ab_total : countTotal abCounts.cnt < 2 ^ 32 := by decide +kernel

theorem witness_build_completes : abCounts.fault = false ∧ 2 ≤ alphabetSize abCounts.cnt ∧ countTotal abCounts.cnt < 2 ^ 32 ∧
    ∃ t, exec .build abCounts = .next t ∧ t.fault = false ∧ t.isInner 2#9 :=
  ⟨rfl, ab_two, ab_total, by
    obtain ⟨t, h, q⟩ := of_yields (o := exec .build abCounts)
      (p := fun t => !t.fault && decide (t.nsyms ≤ 2#9 ∧ 2#9 < t.nnodes)) (by decide +kernel)
    rw [Bool.and_eq_true, Bool.not_eq_true', decide_eq_true_eq] at q
    exact ⟨t, h, q.1, q.2⟩⟩

theorem witness_build_twice : abCounts.fault = false ∧ ({ abCounts with symlim := 7#32, root := 5#9 } : State).fault = false ∧
    abCounts.cnt = ({ abCounts with symlim := 7#32, root := 5#9 } : State).cnt ∧
    (∃ t, exec .build abCounts = .next t ∧ t.fault = false) ∧
    ∃ t, exec .build { abCounts with symlim := 7#32, root := 5#9 } = .next t :=
  ⟨rfl, rfl, rfl, ⟨_, exec_build_completes rfl ab_two, rfl⟩, ⟨_, exec_build_completes rfl ab_two⟩⟩

/-! The tree and the codes of V1 -/

theorem index_below_two {i : Idx} (h : i < 2#9) : i = 0#9 ∨ i = 1#9 := by bv_omega

theorem ab_inner {i : Idx} (h : abTree.isInner i) : i = 2#9 := by
  obtain ⟨h1, h2⟩ : 2#9 ≤ i ∧ i < 3#9 := h
  bv_omega

theorem ab_node : nodeGet abTree.node 0#9 = leafWord 0x61#8 ∧ nodeGet abTree.node 1#9 = leafWord 0x62#8 ∧
    nodeGet abTree.node 2#9 = parentWord 1#9 0#9 := by decide +kernel

theorem ab_weight : wgtGet abTree.wgt 0#9 = 3#32 ∧ wgtGet abTree.wgt 1#9 = 1#32 ∧ wgtGet abTree.wgt 2#9 = 4#32 := by
  decide +kernel

theorem ab_tree : TreeOk abTree where
  size := by decide
  leaves i hi := by
    rcases index_below_two hi with rfl | rfl
    · exact ⟨⟨_, ab_node.1⟩, by rw [ab_weight.1]; decide⟩
    · exact ⟨⟨_, ab_node.2.1⟩, by rw [ab_weight.2.1]; decide⟩
  ascending i j hij hj := by
    obtain ⟨rfl, rfl⟩ : i = 0#9 ∧ j = 1#9 := by
      have hj' : j < 2#9 := hj
      constructor <;> bv_omega
    rw [ab_node.1, ab_node.2.1, leafSym_leafWord, leafSym_leafWord]; decide
  parents i hi := by
    rw [ab_inner hi]
    exact ⟨1#9, 0#9, ab_node.2.2, by decide, by decide, by decide, by rw [ab_weight.1, ab_weight.2.1, ab_weight.2.2]; decide⟩
  oneParent j hj := by
    refine ⟨2#9, ⟨⟨by decide, by decide⟩, ?_⟩, fun i' hi' => ab_inner hi'.1⟩
    rw [State.childOf, ab_node.2.2, zeroChild_parentWord, oneChild_parentWord]
    rcases index_below_two hj with rfl | rfl
    · exact .inr rfl
    · exact .inl rfl

theorem ab_code (x : Byte) : symGet abCodes.code x =
    if 0x62#8 = x then ⟨1#8, 0#255⟩ else if 0x61#8 = x then ⟨1#8, 1#255⟩ else .absent := by
  rw [show abCodes.code = symSet (symSet clearedCodes 0x61#8 ⟨1#8, 1#255⟩) 0x62#8 ⟨1#8, 0#255⟩ from rfl, symGet_symSet,
    symGet_symSet, symGet_clearedCodes]

theorem ab_codes : CodesOk abCodes where
  coded x := by
    rw [ab_code]
    constructor
    · intro h
      split at h
      · exact ⟨1#9, by decide, by rw [show abCodes.node = abTree.node from rfl, ab_node.2.1, leafSym_leafWord]; simp_all⟩
      · split at h
        · exact ⟨0#9, by decide, by rw [show abCodes.node = abTree.node from rfl, ab_node.1, leafSym_leafWord]; simp_all⟩
        · exact absurd rfl h
    · rintro ⟨j, hj, rfl⟩
      rw [show abCodes.node = abTree.node from rfl]
      rcases index_below_two hj with rfl | rfl
      · rw [ab_node.1, leafSym_leafWord]; decide
      · rw [ab_node.2.1, leafSym_leafWord]; decide
  absent x h := by
    rw [ab_code] at h ⊢
    split
    · rename_i hx; rw [if_pos hx] at h; cases h
    · split
      · rename_i h1 h2; rw [if_neg h1, if_pos h2] at h; cases h
      · rfl
  leads j hj := by
    rw [show abCodes.node = abTree.node from rfl, show abCodes.root = 2#9 from rfl]
    rcases index_below_two hj with rfl | rfl
    · rw [ab_node.1, leafSym_leafWord, ab_code]
      refine ⟨?_, ?_⟩
      · rw [ab_node.2.2, isParent_parentWord]
      · rw [ab_node.2.2]; exact childBy_parentWord _ _ _
    · rw [ab_node.2.1, leafSym_leafWord, ab_code]
      refine ⟨?_, ?_⟩
      · rw [ab_node.2.2, isParent_parentWord]
      · rw [ab_node.2.2]; exact childBy_parentWord _ _ _
  clear x k h := by
    rw [ab_code] at h ⊢
    split
    · simp
    · split
      · rename_i h1 h2
        rw [if_neg h1, if_pos h2] at h
        have : 1 ≤ k := h
        rw [BitVec.getLsbD_one]
        simp; omega
      · simp

/-- V1 after GENCODE meets the invariant. -/
theorem ab_inv : Inv abCodes where
  cause := by decide
  finfo := fun _ => rfl
  idle := rfl
  flags := fun _ => rfl
  queue := ⟨by decide, fun _ => rfl⟩
  hidden := by decide
  names := .nil
  nsyms := by decide
  root := by decide
  dcur := by decide
  buffer := ⟨by decide, by decide, fun k _ => by simp [abCodes, abTree, abCounts, State.reset]⟩
  total := ab_total
  tree := fun _ => ab_tree.transfer rfl rfl rfl rfl rfl
  codes := fun _ => ab_codes

/-- A step from a state with the invariant, valid flags set. -/
theorem witness_invariant_step : Inv { abCodes with pending := [.takeSnk 1] } ∧
    ∃ t, step { abCodes with pending := [.takeSnk 1] } = .next t :=
  ⟨{ ab_inv with tree := fun _ => ab_tree.transfer rfl rfl rfl rfl rfl, codes := fun _ => ab_codes.transfer rfl rfl rfl rfl },
    ⟨_, rfl⟩⟩

/-! GENCODE and the codes -/

theorem witness_gencode_tree : abTree.fault = false ∧ abTree.treeValid = true ∧ TreeOk abTree ∧ 0#9 < abTree.nsyms ∧
    leadsTo abTree.node abTree.root [true] 0#9 := by
  refine ⟨rfl, rfl, ab_tree, by decide, ?_⟩
  rw [show abTree.root = 2#9 from rfl]
  refine ⟨by rw [ab_node.2.2, isParent_parentWord], ?_⟩
  rw [ab_node.2.2, childBy_parentWord]; rfl

theorem endless_leads (n : Nat) : leadsTo endless.node 0#9 (List.replicate n false) 0#9 := by
  have h : nodeGet endless.node 0#9 = parentWord 0#9 0#9 := by decide +kernel
  induction n with
  | zero => rfl
  | succ n ih => exact ⟨by rw [h, isParent_parentWord], by rw [h, childBy_parentWord]; exact ih⟩

theorem witness_representation_limit : endless.fault = false ∧ endless.treeValid = true ∧
    (List.replicate 255 false).length = 255 ∧ leadsTo endless.node endless.root (List.replicate 255 false) 0#9 ∧
    isParent (nodeGet endless.node 0#9) = true := ⟨rfl, rfl, List.length_replicate, endless_leads 255, by decide +kernel⟩

theorem witness_inner_path : TreeOk abTree ∧ leadsTo abTree.node abTree.root [] 2#9 ∧ isParent (nodeGet abTree.node 2#9) = true :=
  ⟨ab_tree, rfl, by rw [ab_node.2.2, isParent_parentWord]⟩

theorem witness_gencode_completes : abTree.fault = false ∧ ∃ t, exec .gencode abTree = .next t ∧ t.fault = false := by
  obtain ⟨code, h, _⟩ := exec_gencode_tree (s := abTree) rfl rfl ab_tree
  exact ⟨rfl, _, h, rfl⟩

theorem witness_codes : Inv abCodes ∧ abCodes.codesValid = true ∧ (symGet abCodes.code 0x61#8).len ≠ 0#8 ∧
    (symGet abCodes.code 0x61#8).string <+: (symGet abCodes.code 0x61#8).string :=
  ⟨ab_inv, rfl, by rw [ab_code]; decide, List.prefix_rfl⟩

/-- GENCODE completes after a BUILD that completed. -/
theorem build_then_gencode {s : State} (h : s.fault = false) (hk : 2 ≤ alphabetSize s.cnt) (ht : countTotal s.cnt < 2 ^ 32) :
    ∃ t, exec .build s = .next t ∧ ∃ u, exec .gencode t = .next u ∧ u.fault = false := by
  refine ⟨_, exec_build_completes h hk, ?_⟩
  have hf : (complete (built s)).fault = false := h
  have ok := (built_treeOk hk ht).transfer (t := complete (built s)) rfl rfl rfl rfl rfl
  have hv : (complete (built s)).treeValid = true := rfl
  generalize complete (built s) = t at hf ok hv
  obtain ⟨code, q, _⟩ := exec_gencode_tree hf hv ok
  exact ⟨_, q, hf⟩

theorem witness_higher_count : abCounts.fault = false ∧ countTotal abCounts.cnt < 2 ^ 32 ∧
    (∃ t, exec .build abCounts = .next t ∧ ∃ u, exec .gencode t = .next u ∧ u.fault = false) ∧
    symGet abCounts.cnt 0x62#8 < symGet abCounts.cnt 0x61#8 ∧ 0#32 < symGet abCounts.cnt 0x62#8 := by
  exact ⟨rfl, ab_total, build_then_gencode rfl ab_two ab_total, by decide +kernel, by decide +kernel⟩

/-! ENCODE and FLUSH -/

theorem ab_coded {x : List Byte} (h : ∀ r ∈ x, r = 0x61#8 ∨ r = 0x62#8) : allCoded abCodes.code x := by
  intro r hr
  rcases h r hr with rfl | rfl <;> (rw [ab_code]; decide)

theorem witness_encode : abCodes.fault = false ∧ abCodes.codesValid = true ∧ allCoded abCodes.code [0x61#8, 0x62#8] ∧
    (sinkOf 0).accepts ((codeBits abCodes.code [0x61#8, 0x62#8]).length / 8) := by
  refine ⟨rfl, rfl, ab_coded (by simp), ?_⟩
  rw [show (codeBits abCodes.code [0x61#8, 0x62#8]).length / 8 = 0 by decide +kernel]
  exact sinkOf_accepts 0

/-- V11. -/
theorem witness_contract_violation : abCodes.fault = false ∧ abCodes.codesValid = true ∧ allCoded abCodes.code [0x61#8, 0x62#8] ∧ (symGet abCodes.code 0x63#8).len = 0#8 ∧
    ({ abCodes with src := [0x61#8, 0x62#8, 0x63#8, 0x61#8] } : State).src = [0x61#8, 0x62#8] ++ 0x63#8 :: [0x61#8] ∧
    (sinkOf 0).accepts ((codeBits abCodes.code [0x61#8, 0x62#8]).length / 8) :=
  ⟨rfl, rfl, ab_coded (by simp), by rw [ab_code]; decide, rfl, witness_encode.2.2.2⟩

/-- V12 (a). -/
theorem witness_encode_refused : abraCodes.fault = false ∧ abraCodes.codesValid = true ∧ allCoded abraCodes.code (abra.take 7 ++ [0x61#8]) ∧
    ({ abraCodes with src := abra, sink := sinkOf 1 } : State).src = abra.take 7 ++ 0x61#8 :: abra.drop 8 ∧
    (codeBits abraCodes.code (abra.take 7)).length < 8 * (1 + 1) ∧
    8 * (1 + 1) ≤ (codeBits abraCodes.code (abra.take 7 ++ [0x61#8])).length ∧
    (sinkOf 1).accepts 1 ∧ (sinkOf 1).nth 1 = .err := by
  refine ⟨rfl, rfl, ?_, rfl, by decide +kernel, by decide +kernel, sinkOf_accepts 1, sinkOf_refuses 1⟩
  have h : ∀ r ∈ abra.take 7 ++ [0x61#8], (symGet abraCodes.code r).len ≠ 0#8 := by decide +kernel
  exact h

theorem witness_flush : abCodes.fault = false ∧ abCodes.ecnt = 0#4 ∧ (abEncoded 1).ecnt ≠ 0#4 ∧ (abEncoded 1).sink.nth 0 = .ok ∧
    (abEncoded 0).ecnt ≠ 0#4 ∧ (abEncoded 0).sink.nth 0 = .err ∧ ∃ t, exec .flush (abEncoded 1) = .next t ∧ t.fault = false :=
  ⟨rfl, rfl, by decide, sinkOf_accepts 1 0 (by decide), by decide, sinkOf_refuses 0,
    ⟨_, exec_flush_ok (s := abEncoded 1) rfl (by decide) (sinkOf_accepts 1 0 (by decide)), rfl⟩⟩

theorem witness_padded_stream : abCodes.fault = false ∧ ∃ t u, exec .encode { abCodes with src := aaab.src, sink := sinkOf 1 } = .next t ∧
    exec .flush t = .next u ∧ u.fault = false := by
  obtain ⟨t, h, q⟩ := of_yields (o := exec .encode { abCodes with src := aaab.src, sink := sinkOf 1 })
    (p := fun t => yields (exec .flush t) fun u => !u.fault) (by decide +kernel)
  obtain ⟨u, h', q'⟩ := of_yields q
  exact ⟨rfl, t, u, h, h', by simpa using q'⟩

/-! DECODE and DECODEN -/

theorem ab_parsed (m : Nat) : parsed (abStream m) (abStream m).src =
    [0x61#8, 0x61#8, 0x61#8, 0x62#8, 0x62#8, 0x62#8, 0x62#8, 0x62#8] := by
  change parsed (abStream 0) (abStream 0).src = _
  decide +kernel

theorem witness_decode : (abStream 8).fault = false ∧ (abStream 8).treeValid = true ∧
    (abStream 8).sink.accepts (parsed (abStream 8) (abStream 8).src).length := by
  refine ⟨rfl, rfl, ?_⟩
  rw [ab_parsed]; exact sinkOf_accepts 8

/-- The limit 9 is not reached, 8 is at the very end, 4 inside, 0 at once. -/
theorem witness_decoden : (abStream 8).fault = false ∧ (abStream 8).treeValid = true ∧ (parsed (abStream 8) (abStream 8).src).length < (9#32).toNat ∧
    (8#32).toNat ≤ (parsed (abStream 8) (abStream 8).src).length ∧ (sinkOf 8).accepts (8#32).toNat ∧
    (4#32).toNat ≤ (parsed (abStream 8) (abStream 8).src).length ∧ (sinkOf 8).accepts (4#32).toNat ∧
    (0#32).toNat ≤ (parsed (abStream 8) (abStream 8).src).length ∧ (sinkOf 8).accepts (0#32).toNat := by
  rw [ab_parsed]
  exact ⟨rfl, rfl, by decide, by decide, sinkOf_accepts 8, by decide, Sink.accepts_mono (sinkOf_accepts 8) (by decide), by decide,
    Sink.accepts_mono (sinkOf_accepts 8) (by decide)⟩

/-- V12 (c). -/
theorem witness_decode_refused : (abStream 2).fault = false ∧ (abStream 2).treeValid = true ∧
    (parsed (abStream 2) (abStream 2).src)[2]? = some 0x61#8 ∧ (abStream 2).sink.accepts 2 ∧ (abStream 2).sink.nth 2 = .err ∧
    2 < (abStream 2).symlim.toNat := by
  rw [ab_parsed]
  exact ⟨rfl, rfl, rfl, sinkOf_accepts 2, sinkOf_refuses 2, by decide⟩

/-- One a and seven padding bits. -/
theorem witness_zero_padding : Inv abCodes ∧ abCodes.codesValid = true ∧ allCoded abCodes.code [0x61#8] ∧
    streamBits [0x80#8] = codeBits abCodes.code [0x61#8] ++ List.replicate 7 false :=
  ⟨ab_inv, rfl, ab_coded (by simp), by decide +kernel⟩

theorem witness_round_trip : State.reset.fault = false ∧ aaab.src.length < 2 ^ 32 ∧ (∃ a ∈ aaab.src, ∃ b ∈ aaab.src, a ≠ b) ∧
    ({ State.reset with sink := sinkOf 133 } : State).sink.accepts (33 * aaab.src.length + 1) :=
  ⟨rfl, by decide, ⟨0x61#8, by decide, 0x62#8, by decide, by decide⟩, sinkOf_accepts 133⟩

theorem witness_state_machines : State.reset.fault = false := rfl

end Sys2Proof.Tests
end

section
/-! The ways in which a command can answer a next state, as inversion lemmas, and the frames they give (10_state.md R29). -/

namespace Sys2Proof.Machine

variable {s t : State}

/-- GENCODE after its precondition ends as its walk does. -/
theorem gencodeBody_next (h : gencodeBody s = .next t) :
    (∃ w, walkAll s.node s.root = .done w ∧ t = complete (markCodes (putWalk s w))) ∨
      ∃ c v w, walkAll s.node s.root = .raised c v w ∧ t = raise c v (putWalk s w) := by
  rw [gencodeBody] at h
  cases hw : walkAll s.node s.root with
  | done w => rw [hw] at h; cases h; exact .inl ⟨w, rfl, rfl⟩
  | raised c v w => rw [hw] at h; cases h; exact .inr ⟨c, v, w, rfl, rfl⟩

/-- A decode command after its precondition ends as its loop does. -/
theorem decodeBody_next {limit : Option Word} (h : decodeBody limit s = .next t) :
    (∃ d, decodeLoop (s.decodeTree limit) s.src (decodeStart s) = .done d ∧
      t = complete (markTrunc (putUnpacker s d))) ∨
      ∃ c v d, decodeLoop (s.decodeTree limit) s.src (decodeStart s) = .raised c v d ∧
        t = raise c v (putUnpacker s d) := by
  rw [decodeBody, show (⟨s.node, s.root, limit⟩ : DecodeTree) = s.decodeTree limit from rfl] at h
  cases hd : decodeLoop (s.decodeTree limit) s.src (decodeStart s) with
  | done d => rw [hd] at h; cases h; exact .inl ⟨d, rfl, rfl⟩
  | raised c v d => rw [hd] at h; cases h; exact .inr ⟨c, v, d, rfl, rfl⟩

/-- BUILD raises ConfigurationError after the seeding, or completes after the last merge. -/
theorem buildBody_next (h : buildBody s = .next t) :
    (alphabetSize s.cnt < 2 ∧
      t = raise .configurationError (zext32 (seeded s).nnodes) (putBuilder s (seeded s).nnodes (seeded s))) ∨
      (2 ≤ alphabetSize s.cnt ∧ t = complete (built s)) := by
  rcases Nat.lt_or_ge (alphabetSize s.cnt) 2 with hk | hk
  · rw [buildBody_fails hk] at h; cases h; exact .inl ⟨hk, rfl⟩
  · rw [buildBody_completes hk] at h; cases h; exact .inr ⟨hk, rfl⟩

/-! Frames -/

/-- COUNT is refused, or writes back its tally and what is left of `src`. -/
theorem exec_count_next (h : exec .count s = .next t) :
    t = refuse s ∨ ∃ d, t = complete (putTally s d) ∨ ∃ c v, t = raise c v (putTally s d) := by
  rcases unlessFaulted_next h with ⟨-, rfl⟩ | ⟨-, hb⟩
  · exact .inl rfl
  · rcases finish_next hb with ⟨d, -, rfl⟩ | ⟨c, v, d, -, rfl⟩
    · exact .inr ⟨d, .inl rfl⟩
    · exact .inr ⟨d, .inr ⟨c, v, rfl⟩⟩

/-- BUILD is refused, or writes back its builder and, where it completes, marks the root. -/
theorem exec_build_next (h : exec .build s = .next t) :
    t = refuse s ∨ ∃ n b, t = complete (markRoot (putBuilder s n b)) ∨ ∃ c v, t = raise c v (putBuilder s n b) := by
  rcases unlessFaulted_next h with ⟨-, rfl⟩ | ⟨-, hb⟩
  · exact .inl rfl
  · rcases buildBody_next hb with ⟨-, rfl⟩ | ⟨-, rfl⟩
    · exact .inr ⟨_, _, .inr ⟨_, _, rfl⟩⟩
    · exact .inr ⟨_, _, .inl rfl⟩

/-- GENCODE is refused, raises with nothing else changed, or writes back its walk and, where it completes, marks the codes. -/
theorem exec_gencode_next (h : exec .gencode s = .next t) :
    t = refuse s ∨ (∃ c v, t = raise c v s) ∨
      ∃ w, t = complete (markCodes (putWalk s w)) ∨ ∃ c v, t = raise c v (putWalk s w) := by
  rcases unlessFaulted_next h with ⟨-, rfl⟩ | ⟨-, hr⟩
  · exact .inl rfl
  · rcases requiring_next hr with ⟨-, rfl⟩ | ⟨-, hb⟩
    · exact .inr (.inl ⟨_, _, rfl⟩)
    · rcases gencodeBody_next hb with ⟨w, -, rfl⟩ | ⟨c, v, w, -, rfl⟩
      · exact .inr (.inr ⟨w, .inl rfl⟩)
      · exact .inr (.inr ⟨w, .inr ⟨c, v, rfl⟩⟩)

/-- ENCODE is refused, raises with nothing else changed, or writes back its packer and what is left of `src`. -/
theorem exec_encode_next (h : exec .encode s = .next t) :
    t = refuse s ∨ (∃ c v, t = raise c v s) ∨
      ∃ d, t = complete (putPacker s d) ∨ ∃ c v, t = raise c v (putPacker s d) := by
  rcases unlessFaulted_next h with ⟨-, rfl⟩ | ⟨-, hr⟩
  · exact .inl rfl
  · rcases requiring_next hr with ⟨-, rfl⟩ | ⟨-, hb⟩
    · exact .inr (.inl ⟨_, _, rfl⟩)
    · rcases finish_next hb with ⟨d, -, rfl⟩ | ⟨c, v, d, -, rfl⟩
      · exact .inr (.inr ⟨d, .inl rfl⟩)
      · exact .inr (.inr ⟨d, .inr ⟨c, v, rfl⟩⟩)

/-- DECODE and DECODEN are refused, raise with nothing else changed, or write back the unpacker and what is left of `src`,
marking TRUNC where they complete. -/
theorem exec_decode_next (h : exec .decode s = .next t ∨ exec .decoden s = .next t) :
    t = refuse s ∨ (∃ c v, t = raise c v s) ∨
      ∃ d, t = complete (markTrunc (putUnpacker s d)) ∨ ∃ c v, t = raise c v (putUnpacker s d) := by
  have guarded : ∀ {i limit}, unlessFaulted s (requiring i s (decodeBody limit s)) = .next t →
      t = refuse s ∨ (∃ c v, t = raise c v s) ∨
        ∃ d, t = complete (markTrunc (putUnpacker s d)) ∨ ∃ c v, t = raise c v (putUnpacker s d) := by
    intro i limit h
    rcases unlessFaulted_next h with ⟨-, rfl⟩ | ⟨-, hr⟩
    · exact .inl rfl
    · rcases requiring_next hr with ⟨-, rfl⟩ | ⟨-, hb⟩
      · exact .inr (.inl ⟨_, _, rfl⟩)
      · rcases decodeBody_next hb with ⟨d, -, rfl⟩ | ⟨c, v, d, -, rfl⟩
        · exact .inr (.inr ⟨d, .inl rfl⟩)
        · exact .inr (.inr ⟨d, .inr ⟨c, v, rfl⟩⟩)
  exact h.elim guarded guarded

/-- FLUSH keeps SYMCNT, K and `src`: it is refused, or changes only EBUF, ECNT and the sink. -/
theorem exec_flush_next (h : exec .flush s = .next t) :
    t = refuse s ∨ t = complete s ∨ t = complete { s with sink := s.sink.after [s.ebuf], ebuf := 0#8, ecnt := 0#4 } ∨
      t = raise .ioError (zext32 s.ebuf) { s with sink := s.sink.past 1 } := by
  rcases unlessFaulted_next h with ⟨-, rfl⟩ | ⟨hf, -⟩
  · exact .inl rfl
  · rcases exec_flush_cases hf with ⟨-, q⟩ | ⟨-, q⟩ | ⟨-, q⟩ <;> rw [q] at h <;> cases h
    · exact .inr (.inl rfl)
    · exact .inr (.inr (.inl rfl))
    · exact .inr (.inr (.inr rfl))

/-- Settles O17: whatever the outcome, a command's next state is the old one with the registers of its unit written back. -/
theorem commandsWriteOnlyTheirColumn : Obligations.CommandsWriteOnlyTheirColumn := by
  intro s t
  refine ⟨fun h => ?_, fun h => ?_, fun h => ?_, fun h => ?_, fun h => ?_, fun h => ?_⟩
  · rcases exec_count_next h with rfl | ⟨d, rfl | ⟨c, v, rfl⟩⟩ <;> rfl
  · rcases exec_build_next h with rfl | ⟨n, b, rfl | ⟨c, v, rfl⟩⟩ <;> rfl
  · rcases exec_gencode_next h with rfl | ⟨c, v, rfl⟩ | ⟨w, rfl | ⟨c, v, rfl⟩⟩ <;> rfl
  · rcases exec_encode_next h with rfl | ⟨c, v, rfl⟩ | ⟨d, rfl | ⟨c, v, rfl⟩⟩ <;> rfl
  · rcases exec_flush_next h with rfl | rfl | rfl | rfl <;> rfl
  · rcases exec_decode_next h with rfl | ⟨c, v, rfl⟩ | ⟨d, rfl | ⟨c, v, rfl⟩⟩ <;> rfl

end Sys2Proof.Machine
end

section
/-! The invariant: it holds after reset, and every step keeps it. -/

namespace Sys2Proof.Machine

variable {s t : State}

/-! Reset -/

theorem countTotal_clearedCounts : countTotal clearedCounts = 0 :=
  countTotal_eq_length (xs := []) fun _ => by simp

theorem inv_reset : Inv State.reset where
  cause := ⟨fun _ => rfl, fun _ => rfl⟩
  finfo _ := rfl
  idle := rfl
  flags h := nomatch h
  queue := ⟨Nat.zero_le 1, fun h => nomatch h⟩
  hidden := ⟨Nat.zero_le 8, Nat.zero_le 256, Nat.zero_le 255, Nat.zero_le 255⟩
  names := .nil
  nsyms := Nat.zero_le 256
  root := Nat.zero_le 510
  dcur := Nat.zero_le 510
  buffer := ⟨Nat.zero_le 8, fun h => absurd h (by decide), fun _ _ => BitVec.getLsbD_zero⟩
  total := by change countTotal clearedCounts < 2 ^ 32; rw [countTotal_clearedCounts]; decide
  tree h := nomatch h
  codes h := nomatch h

/-- The tree clause carries over to a state with the same arena and tree registers. -/
theorem Inv.tree_of_same (h : Inv s) (hv : t.treeValid = s.treeValid) (hn : t.node = s.node) (hw : t.wgt = s.wgt)
    (hs : t.nsyms = s.nsyms) (hc : t.nnodes = s.nnodes) (hr : t.root = s.root) : t.treeValid = true → TreeOk t :=
  fun e => (h.tree (hv ▸ e)).transfer hn hw hs hc hr

/-- The code-table clause carries over to a state with the same code table, NODE, NSYMS and ROOT. -/
theorem Inv.codes_of_same (h : Inv s) (hv : t.codesValid = s.codesValid) (hd : t.code = s.code) (hn : t.node = s.node)
    (hs : t.nsyms = s.nsyms) (hr : t.root = s.root) : t.codesValid = true → CodesOk t :=
  fun e => (h.codes (hv ▸ e)).transfer hd hn hs hr

/-- The invariant speaks of nothing in the environment but the order of the names. -/
theorem Inv.environment (h : Inv s) (symlim : Word) (src : List Byte) (sink : Sink) (pending : List HostAction)
    {names : List (Nat × HostVal)} (hn : names.Pairwise fun p q => p.1 < q.1) (resp : Response) :
    Inv { s with symlim := symlim, src := src, sink := sink, pending := pending, names := names, resp := resp } :=
  { h with
    names := hn
    tree := h.tree_of_same rfl rfl rfl rfl rfl rfl, codes := h.codes_of_same rfl rfl rfl rfl rfl }

theorem Inv.after_refuse (h : Inv s) : Inv (refuse s) := h.environment _ _ _ _ h.names _

theorem Inv.after_complete (h : Inv s) : Inv (complete s) :=
  { h with
    idle := rfl
    tree := h.tree_of_same rfl rfl rfl rfl rfl rfl, codes := h.codes_of_same rfl rfl rfl rfl rfl }

/-- Taking a fault writes a cause that is not 0. -/
theorem Inv.after_raise (h : Inv s) {c : Cause} (hc : c ≠ .none) (v : Word) : Inv (raise c v s) :=
  have ⟨range, _, zeros⟩ := h.buffer
  { h with
    cause := ⟨fun e => absurd e hc, fun e => nomatch e⟩
    finfo := fun e => nomatch e
    idle := rfl
    buffer := ⟨range, fun _ => rfl, zeros⟩
    tree := h.tree_of_same rfl rfl rfl rfl rfl rfl, codes := h.codes_of_same rfl rfl rfl rfl rfl }

theorem Inv.after_resetBlock (h : Inv s) : Inv (resetBlock s) := inv_reset.environment _ _ _ _ h.names _

/-! COUNT -/

/-- A tallied sequence that fits has a total that fits 32 bits (40_count.md R123). -/
theorem Inv.after_putTally (h : Inv s) {xs : List Byte} (hx : xs.length < 2 ^ 32) (rest : List Byte) :
    Inv (putTally s (tallyAll xs tallyStart, rest)) :=
  { h with
    total := (countTotal_eq_length (tallyStart_cnt hx)).trans_lt hx
    tree := h.tree_of_same rfl rfl rfl rfl rfl rfl, codes := h.codes_of_same rfl rfl rfl rfl rfl }

theorem Inv.after_count (h : Inv s) (hf : s.fault = false) (he : exec .count s = .next t) : Inv t := by
  rcases fits_or_overflows s.src with hl | ⟨pre, r, rest, hs, hl⟩
  · rw [exec_count_fits hf hl] at he
    cases he
    exact (h.after_putTally hl []).after_complete
  · rw [exec_count_overflow hf hs hl] at he
    cases he
    exact (h.after_putTally (by omega) rest).after_raise (by simp) _

/-! BUILD -/

/-- A BUILD that finds fewer than two symbols leaves no tree, and at most one node in the queue. -/
theorem Inv.after_seeded (h : Inv s) (hk : alphabetSize s.cnt < 2) :
    Inv (putBuilder s (seeded s).nnodes (seeded s)) :=
  { h with
    flags := fun e => nomatch e
    queue := ⟨by
      change (seeded s).pq.length ≤ 1
      rw [seeded_pq, List.length_map, List.length_range]; omega, fun e => nomatch e⟩
    hidden := ⟨h.hidden.1, Nat.le_refl 256, h.hidden.2.2⟩
    nsyms := (seeded_nnodes s).trans_le (alphabetSize_le s.cnt)
    tree := fun e => nomatch e
    codes := fun e => nomatch e }

/-- A BUILD that completes leaves a tree with its root in the queue, and no codes. -/
theorem Inv.after_built (h : Inv s) (hk : 2 ≤ alphabetSize s.cnt) : Inv (built s) :=
  have hq := built_pq (s := s) (by omega)
  have hr := built_root (s := s) (by omega)
  have hk' := alphabetSize_le s.cnt
  { h with
    flags := fun e => nomatch e
    queue := ⟨by rw [hq]; rfl, fun _ => hq⟩
    hidden := ⟨h.hidden.1, Nat.le_refl 256, h.hidden.2.2⟩
    nsyms := built_nsyms.trans_le hk'
    root := by omega
    tree := fun _ => built_treeOk hk h.total
    codes := fun e => nomatch e }

theorem Inv.after_build (h : Inv s) (hf : s.fault = false) (he : exec .build s = .next t) : Inv t := by
  rcases buildBody_next ((unlessFaulted_live hf _).symm.trans he) with ⟨hk, rfl⟩ | ⟨hk, rfl⟩
  · exact (h.after_seeded hk).after_raise (by simp) _
  · exact (h.after_built hk).after_complete

/-! GENCODE -/

/-- On a valid tree GENCODE completes, with its code table and an empty walk. -/
theorem Inv.after_gencode (h : Inv s) (hf : s.fault = false) (hv : s.treeValid = true) (he : exec .gencode s = .next t) :
    Inv t := by
  obtain ⟨code, q, visited⟩ := exec_gencode_tree hf hv (h.tree hv)
  rw [q] at he
  cases he
  refine Inv.after_complete (s := markCodes (putWalk s ⟨code, 0#255, 0, []⟩)) ?_
  exact { h with
    flags := fun _ => hv
    hidden := ⟨h.hidden.1, h.hidden.2.1, Nat.zero_le 255, Nat.zero_le 255⟩
    tree := fun _ => (h.tree hv).transfer rfl rfl rfl rfl rfl
    codes := fun _ => (visited_codesOk (h.tree hv) visited).transfer rfl rfl rfl rfl }

/-! ENCODE and FLUSH -/

/-- A packer with fewer than eight bits pending, zeros below them. -/
theorem Inv.after_putPacker (h : Inv s) {e : Packer} {l : List Bool} (he : Packing e l) (rest : List Byte) :
    Inv (putPacker s (e, rest)) :=
  have hlt : e.ecnt.toNat < 8 := he.ecnt.trans_lt he.lt
  { h with
    buffer := ⟨hlt.le, fun e8 => absurd (ecnt_eq_eight.1 e8) hlt.ne, fun _ hk => he.holds.below (he.ecnt ▸ hk)⟩
    tree := h.tree_of_same rfl rfl rfl rfl rfl rfl, codes := h.codes_of_same rfl rfl rfl rfl rfl }

/-- A refused byte stays in EBUF with ECNT = 8, which the fault state allows (43_encode.md R185). -/
theorem Inv.after_putPacker_refused (h : Inv s) {e : Packer} (he : e.ecnt = 8#4) (rest : List Byte) (v : Word) :
    Inv (raise .ioError v (putPacker s (e, rest))) :=
  have h8 : e.ecnt.toNat = 8 := ecnt_eq_eight.1 he
  { h.after_raise (c := .ioError) (by simp) v with
    buffer := ⟨h8.le, fun _ => rfl, fun k (hk : k + e.ecnt.toNat < 8) => by omega⟩
    tree := h.tree_of_same rfl rfl rfl rfl rfl rfl, codes := h.codes_of_same rfl rfl rfl rfl rfl }

theorem Inv.after_encode (h : Inv s) (hf : s.fault = false) (hv : s.codesValid = true) (he : exec .encode s = .next t) :
    Inv t := by
  rcases exec_encode_cases hf hv with ⟨e, out, l, q, done⟩ | ⟨pre, r, rest, e, out, l, -, -, q, done⟩ |
    ⟨pre, r, rest, e1, e, out1, l1, out, m, -, -, -, q, refused⟩ <;> rw [q] at he <;> cases he
  · exact (h.after_putPacker done.packing []).after_complete
  · exact (h.after_putPacker done.packing rest).after_raise (by simp) _
  · exact h.after_putPacker_refused refused.ecnt rest _

theorem Inv.after_flush (h : Inv s) (hf : s.fault = false) (he : exec .flush s = .next t) : Inv t := by
  rcases exec_flush_cases hf with ⟨-, q⟩ | ⟨-, q⟩ | ⟨-, q⟩ <;> rw [q] at he <;> cases he
  · exact h.after_complete
  · exact (h.after_putPacker (e := ⟨s.sink.after [s.ebuf], 0#8, 0#4, s.symcnt, s.kBit⟩)
      (l := []) ⟨Nat.zero_lt_succ 7, rfl, .nil⟩ s.src).after_complete
  · exact (h.environment s.symlim s.src (s.sink.past 1) s.pending h.names s.resp).after_raise (by simp) _

/-! DECODE and DECODEN -/

/-- The one fault a decode loop raises. -/
theorem decodeLoop_raises_ioError {tree : DecodeTree} {bs : List Byte} {d : Unpacker} (hd : Starts tree d) {c : Cause}
    {v : Word} {d' : Unpacker × List Byte} (h : decodeLoop tree bs d = .raised c v d') : c = .ioError := by
  rcases decodeLoop_cases tree bs hd with q | ⟨_, _, _, _, q, _⟩ | ⟨_, _, _, q, _⟩ <;> rw [q] at h <;> cases h
  rfl

theorem Inv.after_putUnpacker (h : Inv s) {d : Unpacker} (hd : d.dcur.toNat ≤ 510) (hc : d.dcnt.toNat ≤ 8)
    (rest : List Byte) : Inv (putUnpacker s (d, rest)) :=
  { h with
    hidden := ⟨hc, h.hidden.2⟩
    dcur := hd
    tree := h.tree_of_same rfl rfl rfl rfl rfl rfl, codes := h.codes_of_same rfl rfl rfl rfl rfl }

theorem Inv.after_markTrunc (h : Inv s) : Inv (markTrunc s) :=
  { h with
    tree := h.tree_of_same rfl rfl rfl rfl rfl rfl, codes := h.codes_of_same rfl rfl rfl rfl rfl }

/-- In a valid tree the walk of a decode command stays below NNODES. -/
theorem Inv.after_decode (h : Inv s) (hv : s.treeValid = true) {limit : Option Word} (he : decodeBody limit s = .next t) :
    Inv t := by
  have T := h.tree hv
  have root : s.isInner s.root := ⟨by have := T.size; simp only [BitVec.le_def]; omega, T.root_lt⟩
  rcases decodeLoop_dcur T (lim := limit) s.src (decodeStart s) root (Nat.zero_le 8) with
    ⟨d, rest, q, inner, bits⟩ | ⟨c, v, d, rest, q, below, bits⟩
  · rcases decodeBody_next he with ⟨d', q', rfl⟩ | ⟨c, v, d', q', rfl⟩ <;> rw [q] at q' <;> cases q'
    exact (h.after_putUnpacker (inner_le T inner) bits rest).after_markTrunc.after_complete
  · rcases decodeBody_next he with ⟨d', q', rfl⟩ | ⟨c', v', d', q', rfl⟩ <;> rw [q] at q' <;> cases q'
    have hc := decodeLoop_raises_ioError (decodeStart_starts s limit) q
    have hle : d.dcur.toNat ≤ 510 := by
      have := T.size
      simp only [BitVec.lt_def] at below; omega
    exact (h.after_putUnpacker hle bits rest).after_raise (by simp [hc]) v

/-! Every step -/

theorem Inv.after_exec (h : Inv s) (i : Instr) (he : exec i s = .next t) : Inv t := by
  by_cases hi : i = .reset
  · subst hi
    cases he
    exact h.after_resetBlock.after_complete
  cases hf : s.fault with
  | true =>
    rw [exec_faulted hf hi] at he
    cases he
    exact h.after_refuse
  | false =>
    cases hr : s.required i with
    | false =>
      rw [exec_required hf hr] at he
      cases he
      exact h.after_raise (by simp) _
    | true =>
      cases i with
      | reset => exact absurd rfl hi
      | count => exact h.after_count hf he
      | build => exact h.after_build hf he
      | gencode => exact h.after_gencode hf hr he
      | encode => exact h.after_encode hf hr he
      | flush => exact h.after_flush hf he
      | decode => exact h.after_decode hr ((exec_decode hf hr).symm.trans he)
      | decoden => exact h.after_decode hr ((exec_decoden hf hr).symm.trans he)

theorem Inv.after_issue (h : Inv s) {w : Word} (he : issue w s = .next t) : Inv t := by
  by_cases hw : ∃ i, w = encode i
  · obtain ⟨i, rfl⟩ := hw
    exact h.after_exec i ((issue_encode i s).symm.trans he)
  · rw [issue_illegal (not_exists.1 hw)] at he
    rcases unlessFaulted_next he with ⟨-, rfl⟩ | ⟨-, hb⟩
    · exact h.after_refuse
    · cases hb
      exact h.after_raise (by simp) w

theorem Inv.after_memWrite (h : Inv s) {addr : Addr} {n : Nat} {v : Word} (he : memWrite addr n v s = .next t) : Inv t := by
  unfold memWrite at he
  split at he
  · exact h.after_issue he
  · cases he; exact h.environment _ _ _ _ h.names _
  · cases he; exact h.after_refuse

theorem Inv.after_memRead (h : Inv s) (addr : Addr) (n x : Nat) : Inv (memRead addr n x s) := by
  unfold memRead
  split
  · exact h.environment _ _ _ _ (bindName_sorted _ _ h.names) _
  · exact h.after_refuse

theorem Inv.after_hostStep (h : Inv s) (a : HostAction) (he : hostStep a s = .next t) : Inv t := by
  cases a with
  | loadSrc bs => cases he; exact h.environment _ _ _ _ h.names _
  | loadSrcName x =>
    change loadSrcName x s = .next t at he
    unfold loadSrcName at he
    split at he <;> cases he
    exact h.environment _ _ _ _ h.names _
  | takeSnk x => cases he; exact h.environment _ _ _ _ (bindName_sorted _ _ h.names) _
  | memWrite addr n v => exact h.after_memWrite he
  | memRead addr n x => cases he; exact h.after_memRead addr n x
  | hardReset => cases he; exact h.after_resetBlock
  | sinkAccepts m => cases he; exact h.environment _ _ _ _ h.names _

/-- Settles O58: a step is idle or one host action, and every host action, command and sink answer keeps the invariant. -/
theorem invariantKeptByEveryStep : Obligations.InvariantKeptByEveryStep := by
  intro s t h he
  cases hp : s.pending with
  | nil =>
    rw [step_idle hp] at he
    cases he
    exact h
  | cons a rest =>
    rw [step_pending hp] at he
    exact (h.environment _ _ _ rest h.names _).after_hostStep a he

/-- Settles O57: every clause is a fact about the values of reset. -/
theorem invariantHoldsAtReset : Obligations.InvariantHoldsAtReset := inv_reset

theorem isReset_reset : IsReset State.reset where
  flags := ⟨rfl, rfl, rfl, rfl⟩
  cause := rfl
  finfo := rfl
  counts := ⟨rfl, rfl⟩
  tree := ⟨rfl, rfl, rfl⟩
  buffer := ⟨rfl, rfl⟩
  dcur := rfl
  unpacker := ⟨rfl, rfl⟩
  cnt := symGet_clearedCounts
  node i := Vector.getElem_replicate i.isLt
  wgt i := Vector.getElem_replicate i.isLt
  code := symGet_clearedCodes
  pq := rfl
  seq := rfl
  scratch := ⟨rfl, rfl, rfl, rfl, rfl, rfl, rfl⟩

/-- Settles O10: STATUS is 0 because every flag and the cause are. -/
theorem resetValues : Obligations.ResetValues := ⟨isReset_reset, rfl⟩

end Sys2Proof.Machine
end

section
/-! The tree BUILD makes, and what the invariant says about the codes of its leaves (10_state.md R43, R45). -/

namespace Sys2Proof.Machine

variable {s t : State}

/-- Settles O31, from what the merged builder leaves in the arena. -/
theorem buildMakesATree : Obligations.BuildMakesATree := by
  intro s t hf total he ht
  obtain ⟨hk, rfl⟩ := built_of_exec hf he ht
  have h1 : 1 ≤ alphabetSize s.cnt := by omega
  have tree := built_treeOk hk total
  have weight := built_root_weight h1 total
  have symbols := fun x => built_symbol h1 (x := x)
  have weights := fun i hi => built_leaf_weight h1 (i := i) hi
  generalize built s = u at *
  exact ⟨tree.transfer rfl rfl rfl rfl rfl, weight, symbols, weights⟩

/-- A walk that starts at a leaf takes no step. -/
theorem leadsTo_leaf {node : Vector Word 511} {i j : Idx} {bs : List Bool} (hi : isParent (nodeGet node i) = false)
    (h : leadsTo node i bs j) : i = j := by
  cases bs with
  | nil => exact h
  | cons b bs => exact absurd h.1 (by simp [hi])

/-- Settles O38: where the code of y begins with that of x, the walk to y's leaf passes x's leaf, where it must end. -/
theorem codesArePrefixFree : Obligations.CodesArePrefixFree := by
  rintro s h hv x y hx hy ⟨rest, hxy⟩
  have T := h.tree (h.flags hv)
  have C := h.codes hv
  obtain ⟨i, hi, rfl, toX⟩ := coded_leaf C hx
  obtain ⟨j, -, rfl, toY⟩ := coded_leaf C hy
  rw [← hxy, leadsTo_append] at toY
  obtain ⟨q, toQ, below⟩ := toY
  rw [← leadsTo_det toX toQ] at below
  rw [leadsTo_leaf (leaf_not_parent T hi) below]

/-- The symbols of a duplicate-free list of all leaves are the coded symbols, up to order. -/
theorem leaf_symbols_perm (T : TreeOk s) (C : CodesOk s) {l : List Idx} (hl : l.Nodup) (all : ∀ j, j ∈ l ↔ j < s.nsyms) :
    (l.map fun j => leafSym (nodeGet s.node j)).Perm (allSymbols.filter fun x => (symGet s.code x).len != 0#8) := by
  refine (List.perm_ext_iff_of_nodup ?_ (nodup_allSymbols.filter _)).2 fun x => ?_
  · exact hl.map_on fun i hi j hj e => T.leafSym_inj ((all i).1 hi) ((all j).1 hj) e
  · simp [all, C.coded x]

/-- Settles O39: the shares of the leaves below the root add up to the whole, and the leaves stand for the coded symbols. -/
theorem codesFillTheCodeSpace : Obligations.CodesFillTheCodeSpace := by
  intro s h hv
  have T := h.tree (h.flags hv)
  have C := h.codes hv
  obtain ⟨l, nodup, below, sum⟩ := leaves_below T C _ s.root [] rfl T.root_lt rfl
  have all : ∀ j, j ∈ l ↔ j < s.nsyms := fun j =>
    (below j).trans ⟨And.left, fun hj => ⟨hj, T.reached (BitVec.lt_trans hj T.nsyms_lt_nnodes)⟩⟩
  rw [← ((leaf_symbols_perm T C nodup all).map _).sum_eq, List.map_map]
  exact sum

/-- A walk leaves only Parents, whose indices fall from step to step and are NSYMS or more. -/
theorem TreeOk.length_le_of_leadsTo (T : TreeOk s) {i j : Idx} {bs : List Bool} (hi : i < s.nnodes)
    (h : leadsTo s.node i bs j) (hne : bs ≠ []) : s.nsyms.toNat + bs.length ≤ i.toNat + 1 := by
  induction bs generalizing i with
  | nil => exact absurd rfl hne
  | cons b bs ih =>
    have inner := (T.isParent_iff hi).1 h.1
    have child := T.child_lt inner b
    have low := inner.1
    by_cases hbs : bs = []
    · simp only [BitVec.le_def] at low
      simp [hbs, low]
    · have := ih (BitVec.lt_trans child hi) h.2 hbs
      simp only [BitVec.lt_def] at child
      simp only [List.length_cons]; omega

/-- Settles O40: a code is a walk from ROOT = 2*NSYMS-2 over distinct Parents, of which there are NSYMS-1. -/
theorem codeLengthBound : Obligations.CodeLengthBound := by
  intro s h hv x
  by_cases hx : (symGet s.code x).len = 0#8
  · simp [hx]
  have T := h.tree (h.flags hv)
  obtain ⟨j, hj, -, walk⟩ := coded_leaf (h.codes hv) hx
  have hne : (symGet s.code x).string ≠ [] := fun e =>
    hx (BitVec.eq_of_toNat_eq (by simpa using congrArg List.length e))
  have := T.length_le_of_leadsTo T.root_lt walk hne
  have := T.size
  rw [CodeEntry.length_string] at *
  omega

end Sys2Proof.Machine
end

section
/-! The layout of STATUS, EBITS and the index registers (10_state.md R37, R38, R50). -/

namespace Sys2Proof.Machine

/-- A word made of a low byte and a 4-bit field above it, bit by bit. -/
theorem getLsbD_byte_and_field {low : Nat} (hl : low < 256) (field : BitVec 4) (b : Nat) :
    (BitVec.ofNat 32 (low + 256 * field.toNat)).getLsbD b = if b < 8 then low.testBit b else field.getLsbD (b - 8) := by
  have hb : (low + 256 * field.toNat).testBit b = if b < 8 then low.testBit b else field.getLsbD (b - 8) := by
    rw [Nat.add_comm]
    exact Nat.testBit_two_pow_mul_add (i := 8) field.toNat hl b
  rw [BitVec.getLsbD_ofNat, hb]
  by_cases h : b < 32
  · simp [h]
  · have : ¬ b < 8 := by omega
    simp [h, this, BitVec.getLsbD_of_ge field (b - 8) (by omega)]

/-- The field above the low byte. -/
theorem extractLsb'_byte_and_field {low : Nat} (hl : low < 256) (field : BitVec 4) :
    (BitVec.ofNat 32 (low + 256 * field.toNat)).extractLsb' 8 4 = field := by
  apply BitVec.eq_of_getLsbD_eq
  intro k hk
  rw [BitVec.getLsbD_extractLsb', getLsbD_byte_and_field hl]
  simp [hk]

/-- The four flags of STATUS as a number. -/
def flagBits (f t c r : Bool) : Nat := f.toNat + 2 * t.toNat + 4 * c.toNat + 8 * r.toNat

theorem flagBits_spec : ∀ f t c r : Bool, flagBits f t c r < 2 ^ 4 ∧ (flagBits f t c r).testBit 0 = f ∧
    (flagBits f t c r).testBit 1 = t ∧ (flagBits f t c r).testBit 2 = c ∧ (flagBits f t c r).testBit 3 = r := by
  decide

theorem status_eq (s : State) : s.status =
    BitVec.ofNat 32 (flagBits s.fault s.treeValid s.codesValid s.trunc + 256 * s.cause.code.toNat) := rfl

/-- A 9-bit index read as a register is below 512. -/
theorem toNat_zext32_idx_lt (i : Idx) : (zext32 i).toNat < 512 := by
  have := i.isLt
  simp only [BitVec.toNat_setWidth]; omega

/-- Settles O20: STATUS and EBITS are each a low byte with a 4-bit field above it. -/
theorem statusRegistersLayout : Obligations.StatusRegistersLayout := by
  intro s
  obtain ⟨small, b0, b1, b2, b3⟩ := flagBits_spec s.fault s.treeValid s.codesValid s.trunc
  have low : flagBits s.fault s.treeValid s.codesValid s.trunc < 256 := by omega
  have status := getLsbD_byte_and_field low s.cause.code
  have ebits := getLsbD_byte_and_field s.ebuf.isLt s.ecnt
  rw [status_eq]
  refine ⟨⟨(status 0).trans b0, (status 1).trans b1, (status 2).trans b2, (status 3).trans b3,
    extractLsb'_byte_and_field low _, fun b hb => ?_⟩, ⟨?_, extractLsb'_byte_and_field s.ebuf.isLt _, fun b hb => ?_⟩, ?_⟩
  · rw [status]
    rcases hb with ⟨h4, h8⟩ | h12
    · rw [if_pos h8]
      exact Nat.testBit_lt_two_pow (small.trans_le (Nat.pow_le_pow_right (by decide) h4))
    · rw [if_neg (by omega)]
      exact BitVec.getLsbD_of_ge _ _ (by omega)
  · apply BitVec.eq_of_getLsbD_eq
    intro k hk
    rw [BitVec.getLsbD_extractLsb', Nat.zero_add, State.ebits, ebits, if_pos hk]
    simp [hk, BitVec.testBit_toNat]
  · rw [State.ebits, ebits, if_neg (by omega)]
    exact BitVec.getLsbD_of_ge _ _ (by omega)
  · rintro a (rfl | rfl | rfl | rfl)
    · exact ⟨zext32 s.nsyms, rfl, toNat_zext32_idx_lt _⟩
    · exact ⟨zext32 s.nnodes, rfl, toNat_zext32_idx_lt _⟩
    · exact ⟨zext32 s.root, rfl, toNat_zext32_idx_lt _⟩
    · exact ⟨zext32 s.dcur, rfl, toNat_zext32_idx_lt _⟩

end Sys2Proof.Machine
end

section
/-! A CMD write runs the command its word decodes to (20_memory.md R82; 30_encoding.md R104). -/

namespace Sys2Proof.Machine

theorem step_memWrite_cmd {s : State} {w : Word} {rest : List HostAction}
    (h : s.pending = .memWrite 0x0000#15 4 w :: rest) : step s = issue w { s with pending := rest } :=
  step_pending h

theorem issue_of_decode {w : Word} {i : Instr} (h : decode w = .ok i) (s : State) : issue w s = exec i s := by
  rw [decode_ok h, issue_encode]

/-- The word of a table row that decodes to a command is the row's bits. -/
theorem decode_of_decodeTableWord {nbits v : Nat} {i : Instr} (h : decodeTableWord nbits v = some i) :
    decode (BitVec.ofNat 32 (v % 2 ^ nbits)) = .ok i := by
  unfold decodeTableWord tableWord at h
  split_ifs at h
  cases hd : decode (BitVec.ofNat 32 (v % 2 ^ nbits)) with
  | ok j => simpa [hd] using h
  | error e => simp [hd] at h

/-- Settles O5: a CMD write issues its word, and `withFetchWord` puts just such a write before the other actions. -/
theorem stepRunsDecodedCommand : Obligations.StepRunsDecodedCommand := by
  refine ⟨fun s w i rest hp hd => ?_, fun s nbits v i ht => ?_⟩
  · rw [step_memWrite_cmd hp, issue_of_decode hd]
  · rw [step_memWrite_cmd (s := s.withFetchWord nbits v) rfl, issue_of_decode (decode_of_decodeTableWord ht)]
    rfl

end Sys2Proof.Machine
end

section
/-! What a command does to the two streams (20_memory.md R72, R74, R76). -/

namespace Sys2Proof.Machine

variable {s t : State}

/-- t is reached from s by taking bytes from the front of the source and appending bytes to the sink. -/
structure StreamsAdvance (s t : State) : Prop where
  taken : ∃ taken, s.src = taken ++ t.src
  given : ∃ given, t.sink.out = s.sink.out ++ given

theorem StreamsAdvance.of_src (h : ∃ taken, s.src = taken ++ t.src) (ho : t.sink.out = s.sink.out) : StreamsAdvance s t :=
  ⟨h, [], by simp [ho]⟩

theorem StreamsAdvance.of_same (hs : t.src = s.src) (ho : t.sink.out = s.sink.out) : StreamsAdvance s t :=
  .of_src ⟨[], hs.symm⟩ ho

/-- COUNT takes the whole source, or all up to the byte that overflows. -/
theorem StreamsAdvance.of_count (hf : s.fault = false) (he : exec .count s = .next t) : StreamsAdvance s t := by
  rcases fits_or_overflows s.src with hl | ⟨pre, r, rest, hs, hl⟩
  · rw [exec_count_fits hf hl] at he
    cases he
    exact .of_src ⟨s.src, (List.append_nil _).symm⟩ rfl
  · rw [exec_count_overflow hf hs hl] at he
    cases he
    exact .of_src ⟨pre ++ [r], by simpa using hs⟩ rfl

theorem StreamsAdvance.of_build (he : exec .build s = .next t) : StreamsAdvance s t := by
  rcases exec_build_next he with rfl | ⟨n, b, rfl | ⟨c, v, rfl⟩⟩ <;> exact .of_same rfl rfl

theorem StreamsAdvance.of_gencode (he : exec .gencode s = .next t) : StreamsAdvance s t := by
  rcases exec_gencode_next he with rfl | ⟨c, v, rfl⟩ | ⟨w, rfl | ⟨c, v, rfl⟩⟩ <;> exact .of_same rfl rfl

/-- ENCODE takes the whole source or all up to the byte it stops at, and the sink gains the bytes written so far. -/
theorem StreamsAdvance.of_encode (hf : s.fault = false) (hv : s.codesValid = true) (he : exec .encode s = .next t) :
    StreamsAdvance s t := by
  rcases exec_encode_cases hf hv with ⟨e, out, l, q, done⟩ | ⟨pre, r, rest, e, out, l, hs, -, q, done⟩ |
    ⟨pre, r, rest, e1, e, out1, l1, out, m, hs, -, done, q, refused⟩ <;> rw [q] at he <;> cases he
  · exact ⟨⟨s.src, (List.append_nil _).symm⟩, out, congrArg Sink.out done.sink⟩
  · exact ⟨⟨pre ++ [r], by simpa using hs⟩, out, congrArg Sink.out done.sink⟩
  · refine ⟨⟨pre ++ [r], by simpa using hs⟩, out1 ++ out, ?_⟩
    have before : e1.sink.out = s.sink.out ++ out1 := congrArg Sink.out done.sink
    have after : e.sink.out = e1.sink.out ++ out := congrArg Sink.out refused.sink
    calc e.sink.out = (s.sink.out ++ out1) ++ out := by rw [after, before]
      _ = s.sink.out ++ (out1 ++ out) := List.append_assoc _ _ _

theorem StreamsAdvance.of_flush (he : exec .flush s = .next t) : StreamsAdvance s t := by
  rcases exec_flush_next he with rfl | rfl | rfl | rfl
  · exact .of_same rfl rfl
  · exact .of_same rfl rfl
  · exact ⟨⟨[], rfl⟩, [s.ebuf], rfl⟩
  · exact .of_same rfl rfl

/-- A decode command takes the bytes it needs, and the sink gains the symbols written before the end. -/
theorem StreamsAdvance.of_decode {limit : Option Word} (he : decodeBody limit s = .next t) : StreamsAdvance s t := by
  rcases decodeBody_cases limit s with q | ⟨l, d, m, -, q, -, sink, -⟩ | ⟨j, d, m, q, -, -, -, sink, -⟩ <;>
    rw [q] at he <;> cases he
  · exact ⟨⟨s.src, (List.append_nil _).symm⟩, parsed s s.src, rfl⟩
  · exact ⟨⟨s.src.take m, (List.take_append_drop m _).symm⟩, _, congrArg Sink.out sink⟩
  · exact ⟨⟨s.src.take m, (List.take_append_drop m _).symm⟩, _, congrArg Sink.out sink⟩

/-- A command that is refused or raises SequenceError touches no stream; any other does what its unit does. -/
theorem StreamsAdvance.of_exec {i : Instr} (he : exec i s = .next t) : StreamsAdvance s t := by
  by_cases hi : i = .reset
  · subst hi
    cases he
    exact .of_same rfl rfl
  cases hf : s.fault with
  | true =>
    rw [exec_faulted hf hi] at he
    cases he
    exact .of_same rfl rfl
  | false =>
    cases hr : s.required i with
    | false =>
      rw [exec_required hf hr] at he
      cases he
      exact .of_same rfl rfl
    | true =>
      cases i with
      | reset => exact absurd rfl hi
      | count => exact .of_count hf he
      | build => exact .of_build he
      | gencode => exact .of_gencode he
      | encode => exact .of_encode hf hr he
      | flush => exact .of_flush he
      | decode => exact .of_decode ((exec_decode hf hr).symm.trans he)
      | decoden => exact .of_decode ((exec_decoden hf hr).symm.trans he)

/-- Settles O18, command by command. -/
theorem streamsOnlyMoveForward : Obligations.StreamsOnlyMoveForward := fun _ _ _ he =>
  have ⟨taken, given⟩ := StreamsAdvance.of_exec he
  ⟨taken, given⟩

end Sys2Proof.Machine
end

section
/-! The register port: where each table window lies, what a read gives and leaves, and which accesses are answered ERR
(20_memory.md R62 to R69). -/

namespace Sys2Proof.Machine

variable {s : State} {addr : Addr} {n : Nat}

/-! The windows of the map -/

/-- An aligned address above the registers is looked up in the table windows. -/
theorem locate_ofNat {a : Nat} (low : 0x0028 ≤ a) (high : a < 0x8000) (aligned : a % 4 = 0) :
    locate (BitVec.ofNat 15 a) 4 = locateTable a := by
  have ha : (BitVec.ofNat 15 a).toNat = a := by rw [BitVec.toNat_ofNat]; omega
  rw [locate, ha, if_pos ⟨rfl, aligned⟩, locateAligned_table low]

theorem locate_cnt (sym : Byte) : locate (BitVec.ofNat 15 (0x0400 + 4 * sym.toNat)) 4 = some (.cnt sym) := by
  have hs := sym.isLt
  rw [locate_ofNat (by omega) (by omega) (by omega), locateTable, if_pos (by omega),
    show (0x0400 + 4 * sym.toNat - 0x0400) / 4 = sym.toNat by omega, BitVec.ofNat_toNat, BitVec.setWidth_eq]

theorem locate_node (i : Fin 511) : locate (BitVec.ofNat 15 (0x0800 + 4 * i.val)) 4 = some (.node i) := by
  have hi := i.isLt
  have index : (0x0800 + 4 * i.val - 0x0800) / 4 = i.val := by omega
  rw [locate_ofNat (by omega) (by omega) (by omega), locateTable, if_neg (by omega), if_pos (by omega), dif_pos (by omega)]
  simp only [index]

theorem locate_wgt (i : Fin 511) : locate (BitVec.ofNat 15 (0x1000 + 4 * i.val)) 4 = some (.wgt i) := by
  have hi := i.isLt
  have index : (0x1000 + 4 * i.val - 0x1000) / 4 = i.val := by omega
  rw [locate_ofNat (by omega) (by omega) (by omega), locateTable, if_neg (by omega), if_neg (by omega), if_pos (by omega),
    dif_pos (by omega)]
  simp only [index]

/-- The nine words of CODE[s] stand 64 bytes an entry (20_memory.md R69). -/
theorem locate_code (sym : Byte) (j : Fin 9) :
    locate (BitVec.ofNat 15 (0x4000 + 64 * sym.toNat + 4 * j.val)) 4 = some (.code sym j) := by
  have hs := sym.isLt
  have hj := j.isLt
  have entry : (0x4000 + 64 * sym.toNat + 4 * j.val - 0x4000) / 64 = sym.toNat := by omega
  have word : (0x4000 + 64 * sym.toNat + 4 * j.val - 0x4000) % 64 / 4 = j.val := by omega
  rw [locate_ofNat (by omega) (by omega) (by omega), locateTable, if_neg (by omega), if_neg (by omega), if_neg (by omega),
    if_pos (by omega), dif_pos (by omega)]
  simp only [entry, word, BitVec.ofNat_toNat, BitVec.setWidth_eq]

/-- Settles O21: the registers stand at literal addresses, and each window is one of the map's. -/
theorem portReadsTheMap : Obligations.PortReadsTheMap := fun _ =>
  ⟨⟨rfl, rfl, rfl, rfl, rfl, rfl, rfl, rfl, rfl⟩, fun sym => portRead_of_locate (locate_cnt sym),
    fun i => ⟨portRead_of_locate (locate_node i), portRead_of_locate (locate_wgt i)⟩⟩

/-! Code entries -/

theorem portRead_code (s : State) (sym : Byte) (j : Fin 9) :
    portRead s (BitVec.ofNat 15 (0x4000 + 64 * sym.toNat + 4 * j.val)) 4 = some ((symGet s.code sym).word j.val) :=
  portRead_of_locate (locate_code sym j)

/-- Path bit k is in word k/32 + 1 of an entry; BITS has no bit 255, and what stands there reads zero. -/
theorem CodeEntry.getLsbD_word (c : CodeEntry) {j b : Nat} (hj : 1 ≤ j) (hb : b < 32) :
    (c.word j).getLsbD b = if 32 * (j - 1) + b < 255 then c.bits.getLsbD (32 * (j - 1) + b) else false := by
  have path : (c.word j).getLsbD b = c.bits.getLsbD (32 * (j - 1) + b) := by
    rw [CodeEntry.word, if_neg (by omega), BitVec.getLsbD_extractLsb', decide_eq_true hb, Bool.true_and]
  rw [path]
  split_ifs with h
  · rfl
  · exact BitVec.getLsbD_of_ge _ _ (by omega)

/-- Settles O22, from the window of the code table and the bits of an entry's words. -/
theorem portReadsCodeWords : Obligations.PortReadsCodeWords := fun s sym =>
  ⟨portRead_code s sym 0, fun j h1 h8 =>
    ⟨_, portRead_code s sym ⟨j, by omega⟩, fun _ hb => CodeEntry.getLsbD_word _ h1 hb⟩⟩

/-! Accesses answered ERR -/

/-- CMD is the one location that cannot be read. -/
theorem readLoc_eq_none_iff {l : PortLoc} : readLoc s l = none ↔ l = .cmd := by
  cases l <;> simp [readLoc]

theorem locate_eq_none_iff : locate addr n = none ↔ n ≠ 4 ∨ addr.toNat % 4 ≠ 0 ∨
    (0x0028 ≤ addr.toNat ∧ addr.toNat < 0x0400) ∨ addr.toNat = 0x0FFC ∨ (0x17FC ≤ addr.toNat ∧ addr.toNat < 0x4000) ∨
      (0x4000 ≤ addr.toNat ∧ 36 ≤ addr.toNat % 64) := by
  by_cases hn : n = 4
  · by_cases h4 : addr.toNat % 4 = 0
    · rw [locate, if_pos ⟨hn, h4⟩, locateAligned_none addr.isLt h4]
      simp [hn, h4]
    · simp [locate_none_of_misaligned h4, h4]
  · simp [locate_none_of_size hn, hn]

theorem locateTable_ne_register {a : Nat} {l : PortLoc} (h : locateTable a = some l) : l ≠ .cmd ∧ l ≠ .symlim := by
  unfold locateTable at h
  split_ifs at h <;> cases h <;> exact ⟨nofun, nofun⟩

theorem locateAligned_writable {a : Nat} {l : PortLoc} (h : locateAligned a = some l) :
    (l = .cmd → a = 0x0000) ∧ (l = .symlim → a = 0x000C) := by
  unfold locateAligned at h
  split at h
  case h_11 =>
    obtain ⟨cmd, symlim⟩ := locateTable_ne_register h
    exact ⟨fun e => absurd e cmd, fun e => absurd e symlim⟩
  all_goals cases h; exact ⟨by simp, by simp⟩

/-- The two locations that take a write stand at one address each (20_memory.md R63, R65). -/
theorem locate_writable {l : PortLoc} (h : locate addr n = some l) :
    (l = .cmd → n = 4 ∧ addr = 0x0000#15) ∧ (l = .symlim → n = 4 ∧ addr = 0x000C#15) := by
  unfold locate at h
  split_ifs at h with access
  obtain ⟨cmd, symlim⟩ := locateAligned_writable h
  exact ⟨fun e => ⟨access.1, BitVec.eq_of_toNat_eq (cmd e)⟩, fun e => ⟨access.1, BitVec.eq_of_toNat_eq (symlim e)⟩⟩

theorem locate_eq_cmd_iff : locate addr n = some .cmd ↔ n = 4 ∧ addr = 0x0000#15 :=
  ⟨fun h => (locate_writable h).1 rfl, fun ⟨hn, ha⟩ => by rw [hn, ha, locate_cmd]⟩

theorem portRead_eq_none_iff : portRead s addr n = none ↔ locate addr n = none ∨ locate addr n = some .cmd := by
  cases h : locate addr n <;> simp [portRead, h, readLoc_eq_none_iff]

theorem memRead_of_none (h : portRead s addr n = none) (x : Nat) : memRead addr n x s = refuse s := by
  rw [memRead, h]

/-- A write that reaches neither CMD nor SYMLIM is refused. -/
theorem memWrite_of_ne (cmd : locate addr n ≠ some .cmd) (symlim : locate addr n ≠ some .symlim) (v : Word) :
    memWrite addr n v s = .next (refuse s) := by
  unfold memWrite
  split
  · exact absurd ‹_› cmd
  · exact absurd ‹_› symlim
  · rfl

/-- Settles O23: CMD and the places the map leaves out have no data, and only CMD and SYMLIM take a write. -/
theorem portRefusesEverythingElse : Obligations.PortRefusesEverythingElse := by
  intro s addr n
  refine ⟨?_, memRead_of_none, fun h v => memWrite_of_ne (fun e => ?_) (fun e => ?_) v⟩
  · rw [portRead_eq_none_iff, locate_eq_cmd_iff, locate_eq_none_iff]
    simp only [← BitVec.toNat_inj, BitVec.toNat_ofNat]
    omega
  · obtain ⟨hn, ha⟩ := (locate_writable e).1 rfl
    exact h.elim (absurd hn) fun ⟨cmd, _⟩ => cmd ha
  · obtain ⟨hn, ha⟩ := (locate_writable e).2 rfl
    exact h.elim (absurd hn) fun ⟨_, symlim⟩ => symlim ha

/-! Reads and writes answered OK -/

/-- Settles O24: SYMLIM is the one register a write stores to, and its location reads it back. -/
theorem symlimStoresAnyWord : Obligations.SymlimStoresAnyWord := fun s v =>
  ⟨_, memWrite_symlim v s, rfl, portRead_of_locate locate_symlim⟩

theorem memRead_of_some {v : Word} (h : portRead s addr n = some v) (x : Nat) :
    memRead addr n x s = { s with names := bindName x (.word v) s.names, resp := .okData v } := by
  rw [memRead, h]

/-- No location holds any of the host's names or the response. -/
theorem readLoc_host (s : State) (names : List (Nat × HostVal)) (resp : Response) :
    readLoc { s with names := names, resp := resp } = readLoc s := by
  funext l
  cases l <;> rfl

/-- A read changes at most the host's names and the response (20_memory.md R62). -/
theorem memRead_changes (s : State) (addr : Addr) (n x : Nat) :
    ∃ names resp, memRead addr n x s = { s with names := names, resp := resp } := by
  cases h : portRead s addr n with
  | none => exact ⟨s.names, .err, memRead_of_none h x⟩
  | some v => exact ⟨_, _, memRead_of_some h x⟩

/-- Settles O25: what a read writes is no location's value. -/
theorem readsHaveNoSideEffect : Obligations.ReadsHaveNoSideEffect := by
  intro s addr n x
  refine ⟨fun v hv => ⟨_, memRead_of_some hv x, lookupName_bindName_self _ _ _,
    fun y hy => lookupName_bindName_of_ne hy _ _⟩, fun addr' n' => ?_⟩
  obtain ⟨names, resp, h⟩ := memRead_changes s addr n x
  rw [h, portRead, portRead, readLoc_host]

end Sys2Proof.Machine
end

section
/-! The command words: which words are commands, and how a word written to CMD is dispatched (30_encoding.md R103 to R105). -/

namespace Sys2Proof.Machine

variable {s : State} {w : Word}

/-- Settles O2: the fields are read off the eight words; the decoder accepts those words only. -/
theorem wordIsTheOnlyOneForItsCommand : Obligations.WordIsTheOnlyOneForItsCommand := by
  refine ⟨⟨rfl, rfl, rfl, rfl, rfl, rfl, rfl, rfl⟩, fun i => ?opc, fun i => ?limit, fun w i => decode_ok_iff⟩
  case opc => cases i <;> rfl
  case limit => cases i <;> rfl

/-- Settles O1: the words, written bit by bit, are those `encode` gives. -/
theorem eightWordsDecode : Obligations.EightWordsDecode :=
  ⟨decode_encode .reset, decode_encode .count, decode_encode .build, decode_encode .gencode, decode_encode .encode,
    decode_encode .flush, decode_encode .decode, decode_encode .decoden⟩

/-! Illegal words -/

/-- The words of the opcode map are the numbers 0x01 to 0x07 and 0x107 (30_encoding.md R103). -/
theorem exists_eq_encode_iff : (∃ i, w = encode i) ↔ (1 ≤ w.toNat ∧ w.toNat ≤ 7) ∨ w.toNat = 0x107 := by
  constructor
  · rintro ⟨i, rfl⟩
    cases i <;> decide
  · intro h
    have words : w.toNat = 1 ∨ w.toNat = 2 ∨ w.toNat = 3 ∨ w.toNat = 4 ∨ w.toNat = 5 ∨ w.toNat = 6 ∨ w.toNat = 7 ∨
        w.toNat = 0x107 := by omega
    rcases words with h | h | h | h | h | h | h | h
    · exact ⟨.reset, BitVec.eq_of_toNat_eq h⟩
    · exact ⟨.count, BitVec.eq_of_toNat_eq h⟩
    · exact ⟨.build, BitVec.eq_of_toNat_eq h⟩
    · exact ⟨.gencode, BitVec.eq_of_toNat_eq h⟩
    · exact ⟨.encode, BitVec.eq_of_toNat_eq h⟩
    · exact ⟨.flush, BitVec.eq_of_toNat_eq h⟩
    · exact ⟨.decode, BitVec.eq_of_toNat_eq h⟩
    · exact ⟨.decoden, BitVec.eq_of_toNat_eq h⟩

/-- The flag L as a digit of the word (30_encoding.md R100). -/
theorem getLsbD_limit_iff : w.getLsbD 8 = true ↔ w.toNat / 2 ^ 8 % 2 = 1 := by
  rw [BitVec.getLsbD, Nat.testBit_eq_decide_div_mod_eq, decide_eq_true_iff]

/-- A reserved bit is set exactly in the words of 2^9 and above (30_encoding.md R100). -/
theorem exists_reserved_bit_iff : (∃ b, 9 ≤ b ∧ b < 32 ∧ w.getLsbD b = true) ↔ 2 ^ 9 ≤ w.toNat := by
  constructor
  · rintro ⟨b, hb, -, hw⟩
    exact (Nat.pow_le_pow_right (by decide) hb).trans (Nat.ge_two_pow_of_testBit hw)
  · intro h
    obtain ⟨b, hb, hw⟩ := Nat.exists_ge_and_testBit_of_ge_two_pow h
    exact ⟨b, hb, BitVec.lt_of_getLsbD hw, hw⟩

/-- The clauses of R105, or-ed, are the words outside the opcode map. -/
theorem ne_encode_iff : (∀ i, w ≠ encode i) ↔
    (w.toNat % 256 = 0 ∨ 8 ≤ w.toNat % 256) ∨ (∃ b, 9 ≤ b ∧ b < 32 ∧ w.getLsbD b = true) ∨
      (w.getLsbD 8 = true ∧ w.toNat % 256 ≠ 7) := by
  rw [exists_reserved_bit_iff, getLsbD_limit_iff, ← not_exists, exists_eq_encode_iff]
  omega

/-! Issuing a word, arm by arm (30_encoding.md R104) -/

theorem issue_faulted (hw : w ≠ encode .reset) (h : s.fault = true) : issue w s = .next (refuse s) := by
  by_cases legal : ∃ i, w = encode i
  · obtain ⟨i, rfl⟩ := legal
    rw [issue_encode, exec_faulted h (fun e => hw (congrArg encode e))]
  · rw [issue_illegal (not_exists.1 legal), unlessFaulted_faulted h]

theorem issue_illegal_live (hw : ∀ i, w ≠ encode i) (h : s.fault = false) :
    issue w s = .next (raise .illegalCommand w s) := by
  rw [issue_illegal hw, unlessFaulted_live h]

/-- Settles O3: the illegal words are those of R105, and the arms of `Issue` for them raise or refuse. -/
theorem illegalWordsRaiseIllegalCommand : Obligations.IllegalWordsRaiseIllegalCommand := fun _ =>
  ⟨ne_encode_iff, fun hw _ h => issue_illegal_live hw h, fun hw _ h => issue_faulted (hw .reset) h⟩

/-- A command that runs answers OK without a fault, or ERR with one. -/
theorem exec_answers (i : Instr) (h : s.fault = false) :
    ∃ t, exec i s = .next t ∧ (t.resp = .ok ∧ t.fault = false ∨ t.resp = .err ∧ t.fault = true) := by
  rcases exec_ends i h with ⟨u, he, hu⟩ | ⟨c, v, u, he, -⟩
  · exact ⟨_, he, .inl ⟨rfl, hu⟩⟩
  · exact ⟨_, he, .inr ⟨rfl, rfl⟩⟩

/-- Settles O4: the step issues the word, and each arm of `Issue` has its equation. -/
theorem issueTakesFirstApplicableArm : Obligations.IssueTakesFirstApplicableArm := by
  intro s w rest hp
  rw [step_memWrite_cmd hp]
  refine ⟨?reset, fun hw h => issue_faulted hw h, fun h hw => issue_illegal_live hw h, ?sequence, ?runs⟩
  case reset =>
    rintro rfl
    exact issue_encode .reset _
  case sequence =>
    rintro i h rfl hr
    rw [issue_encode]
    exact exec_required h hr
  case runs =>
    rintro i h rfl -
    rw [issue_encode]
    exact ⟨rfl, exec_answers i h⟩

end Sys2Proof.Machine
end

section
/-! The host's actions on the two streams (30_encoding.md R108; 20_memory.md R75). -/

namespace Sys2Proof.Machine

theorem loadSrcName_of_bytes {s : State} {x : Nat} {bs : List Byte} (h : lookupName x s.names = some (.bytes bs)) :
    loadSrcName x s = .next { s with src := bs } := by
  rw [loadSrcName, h]

/-- With the answers of `SINK accepts m` listed, the next m writes are answered OK. -/
theorem Sink.accepts_acceptsAnswers (out : List Byte) (m draws : Nat) : (Sink.mk out (acceptsAnswers m) draws).accepts m := by
  intro j hj
  simp [Sink.nth, acceptsAnswers, List.getElem?_append, hj]

/-- The write after those m is answered ERR. -/
theorem Sink.nth_acceptsAnswers (out : List Byte) (m draws : Nat) : (Sink.mk out (acceptsAnswers m) draws).nth m = .err := by
  simp [Sink.nth, acceptsAnswers]

/-- Settles O9: each action is its own equation; a name just bound is found, and every other name keeps its value. -/
theorem hostMovesSequences : Obligations.HostMovesSequences := by
  refine ⟨fun s bs rest hp => step_pending hp, fun s x y rest hp => ⟨_, step_pending hp, rfl, ?same, ?other⟩,
    fun s m rest hp => ⟨_, step_pending hp, rfl, rfl, Sink.accepts_acceptsAnswers _ _ _, Sink.nth_acceptsAnswers _ _ _⟩⟩
  case same =>
    rintro rfl
    rw [step_pending rfl]
    exact loadSrcName_of_bytes (lookupName_bindName_self _ _ _)
  case other =>
    intro hne bs hl
    rw [step_pending rfl]
    exact loadSrcName_of_bytes ((lookupName_bindName_of_ne hne _ _).trans hl)

end Sys2Proof.Machine
end

section
/-! COUNT as a whole: what it leaves of a source that fits and of one that does not (40_count.md R120 to R125), and its
sequencer's micro-steps (R126). -/

namespace Sys2Proof.Machine

/-- Over bytes tallied from the start, SYMCNT is their number modulo 2^32 (40_count.md R122). -/
theorem putTally_tallyAll (s : State) (xs rest : List Byte) : putTally s (tallyAll xs tallyStart, rest) =
    { s with cnt := (tallyAll xs tallyStart).cnt, symcnt := BitVec.ofNat 32 xs.length, src := rest } := by
  have symcnt : (tallyAll xs tallyStart).symcnt = BitVec.ofNat 32 xs.length :=
    (tallyAll_symcnt xs tallyStart).trans (BitVec.zero_add _)
  rw [putTally, symcnt]

/-- Settles O26: the loop tallies a source that fits whole, from a cleared table. -/
theorem countTalliesSource : Obligations.CountTalliesSource := by
  intro s h fits
  have counts := tallyStart_cnt fits
  refine ⟨(tallyAll s.src tallyStart).cnt, ?_, counts, countTotal_eq_length counts⟩
  rw [exec_count_fits h fits, putTally_tallyAll, complete]

/-- Settles O27: the loop tallies the first 2^32-1 bytes and raises at the next, which is taken. -/
theorem countOverflowAtLimit : Obligations.CountOverflowAtLimit := by
  intro s pre r rest h hs hl
  have counts := tallyStart_cnt (xs := pre) (by omega)
  refine ⟨(tallyAll pre tallyStart).cnt, ?_, counts, (countTotal_eq_length counts).trans hl⟩
  have full : BitVec.ofNat 32 pre.length = 0xFFFFFFFF#32 := congrArg (BitVec.ofNat 32) hl
  rw [exec_count_overflow h hs hl, putTally_tallyAll, full]

/-- Settles O52: `C_CLEAR` is one micro-step, and from `C_READ` on the micro-steps follow the loop. -/
theorem countIsItsStateMachine : Obligations.CountIsItsStateMachine := by
  intro s h
  obtain ⟨u, ends, reach⟩ := count_reach s s.src tallyStart
  have cleared : microStep { s with seq := .cClear } =
      some { s with cnt := tallyStart.cnt, symcnt := tallyStart.symcnt, seq := .cRead } := rfl
  exact of_reach (.step cleared reach) ((unlessFaulted_live h _).trans ends)

end Sys2Proof.Machine
end

section
/-! The order of the priority queue, and BUILD as a whole: how it fails, what it completes with, and its sequencer's
micro-steps (41_build.md R130 to R144). -/

namespace Sys2Proof.Machine

variable {s t : State}

/-- Settles O28: the order compares weights, then indices. -/
theorem popminTakesTheFirst : Obligations.PopminTakesTheFirst := by
  refine fun wgt => ⟨fun i j => ?definition, fun i j ne => ⟨before_asymm wgt, fun h => ?total⟩,
    fun i j l => before_trans wgt, fun pq => popmin_spec wgt⟩
  case definition =>
    rw [before_iff, BitVec.toNat_inj]
    rfl
  case total =>
    exact (before_total wgt ne).resolve_right (by simp [h])

/-! Fewer than two symbols (R134) -/

theorem seeds_eq_nil {cnt : Vector Word 256} (h : ∀ x, symGet cnt x = 0#32) : seeds cnt = [] :=
  List.eq_nil_iff_forall_not_mem.2 fun x hx => by simp [mem_seeds, h x] at hx

theorem seeds_eq_singleton {cnt : Vector Word 256} {x : Byte} (h : ∀ y, symGet cnt y ≠ 0#32 ↔ y = x) :
    seeds cnt = [x] := by
  have nodup : (seeds cnt).Nodup := nodup_allSymbols.filter _
  refine List.perm_singleton.1 ((List.perm_ext_iff_of_nodup nodup (List.nodup_singleton x)).2 fun y => ?_)
  rw [List.mem_singleton, ← h y]
  exact mem_seeds.trans (BitVec.pos_iff_ne_zero _)

theorem seeded_eq (s : State) : seeded s = (seeds s.cnt).foldl (insertLeaf s.cnt) (buildStart s) := seedAll_eq _ _

/-- Settles O29: the seeding inserts no leaf, or the one leaf of index 0. -/
theorem buildFailsBelowTwoSymbols : Obligations.BuildFailsBelowTwoSymbols := by
  intro s hf
  refine ⟨fun none => ⟨256#9, ?_⟩, fun x one => ⟨256#9, ?_⟩⟩
  · have seeds := seeds_eq_nil none
    rw [exec_build_fails hf (by simp [← length_seeds, seeds]), seeded_eq, seeds]
    rfl
  · have seeds := seeds_eq_singleton one
    rw [exec_build_fails hf (by simp [← length_seeds, seeds]), seeded_eq, seeds]
    rfl

/-! Two symbols or more (R137, R143) -/

theorem toNat_ofNat_arena (i : Fin 511) : (BitVec.ofNat 9 i.val).toNat = i.val := by
  rw [BitVec.toNat_ofNat]; omega

theorem nodeGet_ofNat (node : Vector Word 511) (i : Fin 511) : nodeGet node (BitVec.ofNat 9 i.val) = node[i] := by
  simp only [nodeGet, toNat_ofNat_arena, i.isLt, dif_pos, Fin.getElem_fin]

theorem wgtGet_ofNat (wgt : Vector Word 511) (i : Fin 511) : wgtGet wgt (BitVec.ofNat 9 i.val) = wgt[i] := by
  simp only [wgtGet, toNat_ofNat_arena, i.isLt, dif_pos, Fin.getElem_fin]

theorem eq_ofNat_of_toNat {i : Idx} {n : Nat} (h : i.toNat = n) : i = BitVec.ofNat 9 n := by
  rw [← h, BitVec.ofNat_toNat, BitVec.setWidth_eq]

/-- Settles O30: the sizes and the root are numbers of the alphabet's size; the merges write below NNODES only. -/
theorem buildCompletesWithTwoSymbols : Obligations.BuildCompletesWithTwoSymbols := by
  intro s hf hk
  have h1 : 1 ≤ alphabetSize s.cnt := by omega
  have nsyms := eq_ofNat_of_toNat (seeded_nnodes s)
  have size := merged_nnodes h1
  have pq : (merged s).pq = [BitVec.ofNat 9 (2 * alphabetSize s.cnt - 2)] := by
    rw [merged_pq h1, ← built_root_eq h1, ← eq_ofNat_of_toNat (built_root h1)]
  have rest := fun j => merged_rest h1 (j := j)
  rw [exec_build_completes hf hk, built, nsyms]
  generalize merged s = b at *
  refine ⟨b.node, b.wgt, 256#9, b.aIdx, b.bIdx, ?_, fun i hi => ?_⟩
  · rw [← eq_ofNat_of_toNat size, markRoot, putBuilder_pq, pq]
    rfl
  · have above : b.nnodes ≤ BitVec.ofNat 9 i.val := by rwa [BitVec.le_def, size, toNat_ofNat_arena]
    rw [← nodeGet_ofNat, ← nodeGet_ofNat, ← wgtGet_ofNat, ← wgtGet_ofNat]
    exact rest _ above

/-! The micro-steps (R140) -/

/-- After the last symbol `TB_SEED` writes NSYMS. -/
theorem microStep_seed_end (s : State) (n : Idx) (b : Builder) :
    microStep (building s n b 256#9 .tbSeed) = some (building s b.nnodes b 256#9 .tbCheck) := rfl

theorem microStep_check_fails (s : State) {n : Idx} (h : n.toNat < Config.minSyms) (b : Builder) :
    microStep (building s n b 256#9 .tbCheck) = some (raise .configurationError (zext32 n) (putBuilder s n b)) :=
  if_pos h

theorem microStep_check_passes (s : State) {n : Idx} (h : ¬ n.toNat < Config.minSyms) (b : Builder) :
    microStep (building s n b 256#9 .tbCheck) = some (building s n b 256#9 .tbPopA) := if_neg h

theorem microStep_last_node (s : State) (n : Idx) {b : Builder} (h : b.pq.length = 1) :
    microStep (building s n b 256#9 .tbPopA) = some (building s n b 256#9 .tbRoot) := if_pos h

theorem microStep_root (s : State) (n : Idx) {b : Builder} (h : b.pq.length = 1) :
    microStep (building s n b 256#9 .tbRoot) = some (complete (markRoot (putBuilder s n b))) := by
  obtain ⟨r, hr⟩ := List.length_eq_one_iff.1 h
  cases b
  cases hr
  rfl

/-- Settles O53: seeding and merging follow their loops; between and after them each state of the table is one
micro-step. -/
theorem buildIsItsStateMachine : Obligations.BuildIsItsStateMachine := by
  intro s hf
  have clear : microStep { s with seq := .tbClear } = some (building s s.nsyms (buildStart s) 0#9 .tbSeed) := rfl
  have seed : Reach (building s s.nsyms (buildStart s) 0#9 .tbSeed) (building s s.nsyms (seeded s) 256#9 .tbSeed) :=
    seed_reach s s.nsyms 256 0 (buildStart s) rfl
  have toCheck := (Reach.step clear seed).trans (.one (microStep_seed_end _ _ _))
  have size := seeded_nnodes s
  rcases Nat.lt_or_ge (alphabetSize s.cnt) 2 with hk | hk
  · have fails := microStep_check_fails s (size.trans_lt hk) (seeded s)
    exact of_reach (toCheck.trans (.one fails)) (exec_build_fails hf hk)
  · have h1 : 1 ≤ alphabetSize s.cnt := by omega
    have passes := microStep_check_passes s (size.trans_ge hk).not_gt (seeded s)
    obtain ⟨merges, one⟩ :=
      mergeLoop_reach s (seeded s).nnodes (seeded s).pq.length (seeded s) (seeded_merging h1).pos (Nat.le_succ _)
    have toRoot := merges.trans (.step (microStep_last_node s _ one) (.one (microStep_root s _ one)))
    exact of_reach (toCheck.trans (.step passes toRoot)) (exec_build_completes hf hk)

end Sys2Proof.Machine
end

section
/-! The order of the merges of BUILD, that the counts fix it, and what it means for the Parents' weights and for the code
lengths (41_build.md R138, R141, R142). -/

namespace Sys2Proof.Machine

variable {s t u : State}

/-- Settles O32: what was recorded of each merge, the merged two being children of no earlier Parent. -/
theorem buildMergesTheTwoLeast : Obligations.BuildMergesTheTwoLeast := by
  intro s t hf total he ht i hi
  obtain ⟨hk, rfl⟩ := built_of_exec hf he ht
  have h1 : 1 ≤ alphabetSize s.cnt := by omega
  have nsyms := seeded_nnodes s
  have M := merged_merging h1
  have sums := (merged_exact h1 total).2
  clear he
  rw [built] at hi ⊢
  generalize (seeded s).nnodes = n, merged s = b, alphabetSize s.cnt = k at *
  have inner_of_lt : ∀ i' < i, k ≤ i'.toNat → b.inner k i' := fun i' lt low => ⟨low, BitVec.lt_trans lt hi.2⟩
  have inner : b.inner k i := ⟨nsyms ▸ hi.1, hi.2⟩
  obtain ⟨z, o, merge⟩ := M.merged i inner
  have sum := sums i inner
  rw [merge.word, zeroChild_parentWord, oneChild_parentWord] at sum
  have free_o : ¬ ∃ i' < i, k ≤ i'.toNat ∧ b.childOf o i' := by
    rintro ⟨i', lt, low, child⟩
    have child_here : b.childOf o i := .inr (by rw [merge.word, oneChild_parentWord])
    exact BitVec.ne_of_lt lt (M.unique o i' i (inner_of_lt i' lt low) inner child child_here)
  have ordered := merge.zfirst o merge.olt free_o merge.ne.symm
  refine ⟨z, o, merge.word, merge.zlt, merge.olt, ordered, sum, fun j hj free => ?_⟩
  have free_j : ¬ ∃ i' < i, k ≤ i'.toNat ∧ b.childOf j i' := fun ⟨i', lt, low, child⟩ =>
    free i' lt ⟨nsyms.trans_le low, (inner_of_lt i' lt low).2⟩ child
  exact ⟨merge.zfirst j hj free_j, merge.ofirst j hj free_j⟩

/-- A BUILD that completes leaves an ordered tree. -/
theorem ordered_of_exec_build (hf : s.fault = false) (total : countTotal s.cnt < 2 ^ 32) (he : exec .build s = .next t)
    (ht : t.fault = false) : Ordered t := by
  obtain ⟨hk, rfl⟩ := built_of_exec hf he ht
  have ordered := built_ordered hk total
  generalize built s = u at ordered
  exact ⟨ordered.tree.transfer rfl rfl rfl rfl rfl, ordered.first⟩

/-- Settles O33, from the order of the merges. -/
theorem parentWeightsDoNotDecrease : Obligations.ParentWeightsDoNotDecrease :=
  fun _ _ hf total he ht _ _ hi hj hij => (ordered_of_exec_build hf total he ht).parents_le hi hj hij

/-- The seedings of two states with the same counts agree, whatever the arenas held. -/
theorem same_seeded (h : s.cnt = t.cnt) : Same (seeded s) (seeded t) := by
  have start : Same (buildStart s) (buildStart t) :=
    ⟨rfl, rfl, fun i hi => absurd hi BitVec.not_lt_zero, fun i hi => absurd hi BitVec.not_lt_zero⟩
  have room : (buildStart s).nnodes.toNat + (seeds s.cnt).length ≤ 511 := by
    have := alphabetSize_le s.cnt
    change 0 + _ ≤ 511
    rw [length_seeds]; omega
  rw [seeded_eq, seeded_eq, ← h]
  exact same_seed _ start room

theorem same_merged (h : s.cnt = t.cnt) (hk : 1 ≤ alphabetSize s.cnt) : Same (merged s) (merged t) := by
  have seeds := same_seeded h
  rw [merged, merged, seeds.pq]
  exact same_loop _ (seeded_merging hk) seeds

/-- Settles O34: seeding and merging keep two builders of the same counts in agreement. -/
theorem buildDependsOnCountsOnly : Obligations.BuildDependsOnCountsOnly := by
  intro s s' t t' hf hf' cnt he he' ht
  obtain ⟨hk, rfl⟩ := built_of_exec hf he ht
  rw [exec_build_completes hf' (cnt ▸ hk)] at he'
  cases he'
  have h1 : 1 ≤ alphabetSize s.cnt := by omega
  have seeds := same_seeded cnt
  have same := same_merged cnt h1
  have root : (built s').root = (built s).root := by
    rw [built_root_eq h1, built_root_eq (cnt ▸ h1), same.nnodes]
  clear he
  rw [built, built] at *
  generalize seeded s = a, seeded s' = a', merged s = b, merged s' = b' at *
  exact ⟨hf', seeds.nnodes, same.nnodes, root, fun i hi => ⟨same.node i hi, same.wgt i hi⟩⟩

/-! Code lengths -/

/-- A GENCODE that completes found FAULT = 0. -/
theorem live_of_exec_gencode (he : exec .gencode t = .next u) (hu : u.fault = false) : t.fault = false := by
  by_contra ht
  rw [exec_faulted (i := .gencode) (by simpa using ht) nofun] at he
  cases he
  exact ht hu

/-- GENCODE on a tree leaves its code table (10_state.md R45). -/
theorem codesOk_of_exec_gencode (hf : t.fault = false) (T : TreeOk t) (he : exec .gencode t = .next u)
    (hu : u.fault = false) : CodesOk { t with code := u.code } := by
  obtain ⟨hv, -⟩ := gencode_of_exec hf he hu
  obtain ⟨code, q, visited⟩ := exec_gencode_tree hf hv T
  rw [q] at he
  cases he
  exact visited_codesOk T visited

/-- Settles O41: a code is as long as its leaf is deep, and a heavier leaf is never deeper. -/
theorem higherCountsNoLongerCodes : Obligations.HigherCountsNoLongerCodes := by
  intro s t u hf total build gencode hu x y more counted
  have ht := live_of_exec_gencode gencode hu
  obtain ⟨T, -, leaf, weight⟩ := buildMakesATree s t hf total build ht
  have C := codesOk_of_exec_gencode ht T gencode hu
  obtain ⟨i, hi, wordI⟩ := (leaf x).1 (BitVec.lt_trans counted more)
  obtain ⟨j, hj, wordJ⟩ := (leaf y).1 counted
  have toX := C.leads i hi
  have toY := C.leads j hj
  have wx := weight i hi
  have wy := weight j hj
  simp only [wordI, wordJ, leafSym_leafWord] at toX toY wx wy
  rw [← wx, ← wy] at more
  have depth := (ordered_of_exec_build hf total build ht).leaf_depth hj more toY toX
  rwa [CodeEntry.length_string, CodeEntry.length_string] at depth

end Sys2Proof.Machine
end

section
/-! GENCODE as a whole: what it writes on a tree, when it raises, that it may be repeated, and its sequencer's micro-steps
(42_gencode.md R160 to R167). -/

namespace Sys2Proof.Machine

variable {s : State} {w : Walk}

/-- A walk that ends is what GENCODE writes back, with CODES_VALID set. -/
theorem exec_gencode_of_done (hf : s.fault = false) (hv : s.treeValid = true) (walk : walkAll s.node s.root = .done w) :
    exec .gencode s = .next (complete (markCodes (putWalk s w))) := by
  rw [exec_gencode hf hv, gencodeBody, walk]

/-- A walk that raises is written back as far as it came. -/
theorem exec_gencode_of_raised (hf : s.fault = false) (hv : s.treeValid = true) {c : Cause} {v : Word}
    (walk : walkAll s.node s.root = .raised c v w) : exec .gencode s = .next (raise c v (putWalk s w)) := by
  rw [exec_gencode hf hv, gencodeBody, walk]

/-- Settles O35: on a tree the walk ends, having written every leaf's path. -/
theorem gencodeWritesThePaths : Obligations.GencodeWritesThePaths := by
  intro s hf hv tree
  obtain ⟨code, ends, visited⟩ := exec_gencode_tree hf hv tree
  exact ⟨code, 0#255, 0#9, [], ends, visited_codesOk tree visited, fun j hj bs toLeaf =>
    (visited.below j hj bs toLeaf).string⟩

/-! The representation limit (R164) -/

/-- In a tree a Parent's index is at least NSYMS, and a walk from ROOT comes one index down at least with each edge. -/
theorem TreeOk.parent_depth (tree : TreeOk s) {bs : List Bool} {i : Idx} (toNode : leadsTo s.node s.root bs i)
    (parent : isParent (nodeGet s.node i) = true) : bs.length + 2 ≤ s.nsyms.toNat := by
  have below := tree.leadsTo_lt tree.root_lt toNode
  have exists_i : i < s.nnodes := by
    have root := tree.root_lt
    rw [BitVec.lt_def] at root ⊢
    omega
  have inner : s.nsyms.toNat ≤ i.toNat := ((tree.isParent_iff exists_i).1 parent).1
  obtain ⟨low, -, -, root⟩ := tree.size
  omega

/-- Settles O36: a walk that ends has met no Parent at depth 255, and one that raises stands on one; in a tree a Parent's
depth is at most NSYMS - 2. -/
theorem gencodeRepresentationLimit : Obligations.GencodeRepresentationLimit := by
  refine ⟨fun s bs i hf hv deep toNode parent => ?raises, fun s bs i tree toNode parent => ?shallow⟩
  case raises =>
    cases walk : walkAll s.node s.root with
    | done w =>
      have leaf := visit_done walk bs i deep toNode
      rw [parent] at leaf
      cases leaf
    | raised c v w =>
      obtain ⟨cause, bs', i', deep', toNode', parent', info⟩ := visit_raised walk
      exact ⟨_, exec_gencode_of_raised hf hv walk, rfl, cause, rfl, bs', i', deep', toNode', parent', info⟩
  case shallow =>
    have depth := tree.parent_depth toNode parent
    have size := tree.size
    omega

/-! Repetition (R166) -/

/-- Settles O37: GENCODE writes nothing that its walk reads, so that the second walk is the first. -/
theorem gencodeMayBeRepeated : Obligations.GencodeMayBeRepeated := by
  intro s t hf he ht
  obtain ⟨hv, w, walk, rfl⟩ := gencode_of_exec hf he ht
  exact ⟨w.path, BitVec.ofNat 9 w.depth, w.stk, exec_gencode_of_done hf hv walk⟩

/-! The micro-steps (R167) -/

/-- `CG_CLEAR` on a valid tree. -/
theorem microStep_clear_codes (hv : s.treeValid = true) :
    microStep { s with seq := .cgClear } = some (walking s clearedCodes 0#255 0 [] (.cgWalk s.root)) := if_pos hv

/-- `CG_CLEAR` without one. -/
theorem microStep_clear_codes_fails (hv : s.treeValid = false) :
    microStep { s with seq := .cgClear } = some (raise .sequenceError (encode .gencode) s) :=
  if_neg (ne_true_of_eq_false hv)

/-- `CG_BACK` with an empty stack. -/
theorem microStep_back_done (s : State) (code : Vector CodeEntry 256) (path : PathBits) (depth : Nat) :
    microStep (walking s code path depth [] .cgBack) =
      some (complete (markCodes (putWalk s ⟨code, path, depth, []⟩))) := rfl

/-- Settles O54: after `CG_CLEAR` the micro-steps follow the recursion from the root; where it ends, `CG_BACK` finds the
stack empty. -/
theorem gencodeIsItsStateMachine : Obligations.GencodeIsItsStateMachine := by
  intro s hf
  rcases Bool.eq_false_or_eq_true s.treeValid with hv | hv
  · have clear := microStep_clear_codes hv
    rcases visit_reach s 255 s.root 0#255 [] clearedCodes le_rfl (fun _ _ => BitVec.getLsbD_zero) with
      ⟨⟨code, path, depth, stk⟩, walk, rfl, rfl, rfl, reach⟩ | ⟨c, v, w, walk, reach⟩
    · have done := microStep_back_done s code 0#255 0
      exact of_reach (.step clear (reach.trans (.one done))) (exec_gencode_of_done hf hv walk)
    · exact of_reach (.step clear reach) (exec_gencode_of_raised hf hv walk)
  · exact of_reach (.one (microStep_clear_codes_fails hv)) (exec_required hf hv)

end Sys2Proof.Machine
end

section
/-! ENCODE and FLUSH as wholes: the codes they pack, the faults ENCODE raises, the padded stream, and ENCODE's sequencer's
micro-steps (43_encode.md R180 to R192). -/

namespace Sys2Proof.Machine

variable {s t : State}

/-! ENCODE over a coded prefix of its source -/

/-- From ENCODE's start the loop gets through a coded prefix whose whole bytes the sink accepts (R183, R186). -/
theorem encodeLoop_coded (s : State) {pre : List Byte} (coded : allCoded s.code pre)
    (accepted : s.sink.accepts ((codeBits s.code pre).length / 8)) (rest : List Byte) :
    ∃ e out l, encodeLoop s.code (pre ++ rest) (encodeStart s) = encodeLoop s.code rest e ∧
      Encoded s.code (encodeStart s) e [] pre out l := by
  have fits : (encodeStart s).sink.accepts ((([] : List Bool).length + (codeBits s.code pre).length) / 8) := by
    rwa [List.length_nil, Nat.zero_add]
  obtain ⟨e, out, l, loop, sink, bits, packing, symcnt⟩ :=
    encodeLoop_ok s.code pre (encodeStart_packing s) coded fits rest
  exact ⟨e, out, l, loop, coded, sink, bits, packing, symcnt⟩

/-- SYMCNT counts the symbols from ENCODE's start on (R181). -/
theorem Encoded.symcnt_start {code : Vector CodeEntry 256} {e : Packer} {l l' : List Bool} {pre out : List Byte}
    (done : Encoded code (encodeStart s) e l pre out l') : e.symcnt = BitVec.ofNat 32 pre.length :=
  done.symcnt.trans (BitVec.zero_add _)

/-- What ENCODE writes back once it is through `pre`. -/
theorem Encoded.putPacker_eq {code : Vector CodeEntry 256} {e : Packer} {l l' : List Bool} {pre out : List Byte}
    (done : Encoded code (encodeStart s) e l pre out l') (rest : List Byte) : putPacker s (e, rest) =
      { s with
        src := rest, sink := s.sink.after out, ebuf := e.ebuf, ecnt := e.ecnt
        symcnt := BitVec.ofNat 32 pre.length, kBit := e.kBit } := by
  have sink : e.sink = s.sink.after out := done.sink
  rw [putPacker, sink, done.symcnt_start]

/-- Settles O42: the loop gets through the whole source, and ends there. -/
theorem encodePacksTheCodes : Obligations.EncodePacksTheCodes := by
  intro s hf hv coded accepted
  obtain ⟨e, out, l, loop, done⟩ := encodeLoop_coded s coded accepted []
  refine ⟨out, e.ebuf, e.ecnt, e.kBit, ?_, done.packs⟩
  rw [List.append_nil] at loop
  rw [exec_encode hf hv, loop, encodeLoop, finish_done, done.putPacker_eq]

/-- Settles O43: the loop gets through `pre`, and raises at r before it appends a bit. -/
theorem encodeContractViolation : Obligations.EncodeContractViolation := by
  intro s pre r rest hf hv source coded uncoded accepted
  obtain ⟨e, out, l, loop, done⟩ := encodeLoop_coded s coded accepted (r :: rest)
  refine ⟨out, e.ebuf, e.ecnt, e.kBit, ?_, done.packs⟩
  rw [exec_encode hf hv, source, loop, encodeLoop, if_pos uncoded, finish_raised, done.putPacker_eq]

/-! A refused byte (R185) -/

/-- The bits of `pre` written and pending, with those of the next code up to the refused byte's end, are the first
8(m+1) bits of the codes. -/
theorem Encoded.take_refused {code : Vector CodeEntry 256} {e : Packer} {pre out : List Byte} {l : List Bool}
    (done : Encoded code (encodeStart s) e [] pre out l) (r : Byte) {m : Nat} (hm : out.length ≤ m) :
    streamBits out ++ (l ++ (symGet code r).string).take (8 * (m - out.length + 1)) =
      (codeBits code (pre ++ [r])).take (8 * (m + 1)) := by
  have bits : codeBits code (pre ++ [r]) = streamBits out ++ (l ++ (symGet code r).string) := by
    rw [codeBits_append, ← List.nil_append (codeBits code pre), ← done.bits, codeBits_cons, codeBits_nil,
      List.append_nil, List.append_assoc]
  have lengths : 8 * (m + 1) = (streamBits out).length + 8 * (m - out.length + 1) := by
    rw [length_streamBits]; omega
  rw [bits, lengths, List.take_length_add_append]

/-- Settles O44: the loop gets through `pre`, having written its whole bytes, and is refused inside the code of r. -/
theorem encodeRefusedByte : Obligations.EncodeRefusedByte := by
  intro s pre r rest m hf hv source coded before inside accepted refusal
  obtain ⟨codedPre, codedR⟩ := List.forall_mem_append.1 coded
  obtain ⟨e, out, l, loop, done⟩ :=
    encodeLoop_coded s codedPre (Sink.accepts_mono accepted (by omega)) (r :: rest)
  have written : out.length = (codeBits s.code pre).length / 8 := done.length
  have hm : out.length ≤ m := by omega
  have pending : 8 * out.length + l.length = (codeBits s.code pre).length := by
    simpa using congrArg List.length done.bits
  have sink : e.sink = s.sink.after out := done.sink
  have fills : 8 * (m - out.length + 1) ≤ l.length + (symGet s.code r).string.length := by
    rw [codeBits_append, codeBits_cons, codeBits_nil, List.append_nil, List.length_append] at inside
    omega
  obtain ⟨e', out', raises, refused⟩ := encodeLoop_refused s.code r rest (m := m - out.length) done.packing
    (codedR r List.mem_cons_self)
    (by rw [sink]; exact Sink.accepts_after accepted (by omega))
    (by rw [sink, Sink.nth_after, Nat.add_sub_cancel' hm]; exact refusal) fills
  have sink' : e'.sink = (s.sink.after (out ++ out')).past 1 := by
    rw [refused.sink, sink, Sink.after_after]
  have symcnt : e'.symcnt = BitVec.ofNat 32 pre.length := refused.symcnt.trans done.symcnt_start
  have kBit : e'.kBit = BitVec.ofNat 8 (8 * (m + 1) - (codeBits s.code pre).length) := by
    rw [refused.kBit, BitVec.zero_add]
    congr 1
    omega
  refine ⟨out ++ out', e'.ebuf, ?ends, ?length, ?bits⟩
  case ends =>
    rw [exec_encode hf hv, source, loop, raises, finish_raised, putPacker, sink', refused.ecnt, symcnt, kBit]
  case length => rw [List.length_append, refused.length, Nat.add_sub_cancel' hm]
  case bits => rw [streamBits_append, List.append_assoc, refused.bits, done.take_refused r hm]

/-! FLUSH (R190, R191) -/

/-- A FLUSH that leaves FAULT = 0 had nothing to write, or its byte was accepted. -/
theorem exec_flush_completed (he : exec .flush s = .next t) (ht : t.fault = false) :
    (s.ecnt = 0#4 ∧ t = complete s) ∨
      (s.ecnt ≠ 0#4 ∧ t = complete { s with sink := s.sink.after [s.ebuf], ebuf := 0#8, ecnt := 0#4 }) := by
  rcases unlessFaulted_next he with ⟨faulted, rfl⟩ | ⟨live, -⟩
  · rw [refuse_fault, faulted] at ht
    cases ht
  · rcases exec_flush_cases live with ⟨h0, q⟩ | ⟨h0, q⟩ | ⟨-, q⟩ <;> rw [q] at he <;> cases he
    · exact .inl ⟨h0, rfl⟩
    · exact .inr ⟨h0, rfl⟩
    · cases ht

/-- A FLUSH that leaves FAULT = 0 was not refused. -/
theorem live_of_exec_flush (he : exec .flush s = .next t) (ht : t.fault = false) : s.fault = false := by
  rcases exec_flush_completed he ht with ⟨-, rfl⟩ | ⟨-, rfl⟩ <;> exact ht

/-- Settles O45: the three ways FLUSH ends; where it completes it leaves ECNT = 0, so that the next one has nothing to
write. -/
theorem flushWritesThePendingByte : Obligations.FlushWritesThePendingByte := by
  refine ⟨fun s hf => ⟨exec_flush_empty hf, exec_flush_ok hf, exec_flush_err hf⟩, fun s t hf he ht => ?_⟩
  rcases exec_flush_completed he ht with ⟨h0, rfl⟩ | ⟨-, rfl⟩
  · exact exec_flush_empty hf h0
  · exact exec_flush_empty hf rfl

/-! The padded stream (R192) -/

/-- A buffer with zeros below its pending bits is those bits, padded with zeros. -/
theorem byteBits_eq_pendingBits_append {ebuf : Byte} {ecnt : BitVec 4} (hc : ecnt.toNat ≤ 8)
    (zeros : ∀ k, k + ecnt.toNat < 8 → ebuf.getLsbD k = false) :
    byteBits ebuf = pendingBits ebuf ecnt ++ List.replicate (8 - ecnt.toNat) false := by
  have padding : (byteBits ebuf).drop ecnt.toNat = List.replicate (8 - ecnt.toNat) false := by
    refine List.eq_replicate_iff.2 ⟨by simp, fun b hb => ?_⟩
    obtain ⟨k, hk, rfl⟩ := List.getElem_of_mem hb
    have place : k < 8 - ecnt.toNat := by simpa using hk
    simpa [byteBits] using zeros (7 - (ecnt.toNat + k)) (by omega)
  rw [pendingBits, ← padding, List.take_append_drop]

/-- With fewer than eight bits of padding the stream's length and the padding follow from the number of bits. -/
theorem padded_length {y : List Byte} {bits : List Bool} {p : Nat}
    (padded : streamBits y = bits ++ List.replicate p false) (hp : p < 8) :
    y.length = (bits.length + 7) / 8 ∧ p = 8 * y.length - bits.length := by
  have length := congrArg List.length padded
  rw [length_streamBits, List.length_append, List.length_replicate] at length
  omega

/-- An ENCODE that leaves FAULT = 0 ran to the end of its source. -/
theorem exec_encode_completed (hf : s.fault = false) (he : exec .encode s = .next t) (ht : t.fault = false) :
    ∃ e out l, t = complete (putPacker s (e, [])) ∧ Encoded s.code (encodeStart s) e [] s.src out l := by
  cases hv : s.codesValid with
  | false =>
    rw [exec_required (i := .encode) hf hv] at he
    cases he; cases ht
  | true =>
    rcases exec_encode_cases hf hv with ⟨e, out, l, q, done⟩ | ⟨_, _, _, _, _, _, -, -, q, -⟩ |
      ⟨_, _, _, _, _, _, _, _, _, -, -, -, q, -⟩ <;> rw [q] at he <;> cases he
    · exact ⟨e, out, l, rfl, done⟩
    · cases ht
    · cases ht

/-- FLUSH after an encoding makes its bytes the codes and fewer than eight zeros. -/
theorem Packs.flushed {code : Vector CodeEntry 256} {x out : List Byte} (packs : Packs code x out s.ebuf s.ecnt)
    (he : exec .flush s = .next t) (ht : t.fault = false) :
    ∃ tail p, t.sink.out = s.sink.out ++ tail ∧ p < 8 ∧
      streamBits (out ++ tail) = codeBits code x ++ List.replicate p false := by
  rcases exec_flush_completed he ht with ⟨h0, rfl⟩ | ⟨h0, rfl⟩
  · refine ⟨[], 0, (List.append_nil _).symm, by omega, ?_⟩
    have bits := packs.bits
    rw [h0] at bits
    rw [List.append_nil, List.replicate_zero, List.append_nil, ← bits]
    exact (List.append_nil _).symm
  · have pending : s.ecnt.toNat ≠ 0 := fun h => h0 (BitVec.eq_of_toNat_eq h)
    have hc : s.ecnt.toNat ≤ 8 := by have := packs.rest; omega
    refine ⟨[s.ebuf], 8 - s.ecnt.toNat, rfl, by omega, ?_⟩
    rw [streamBits_append, streamBits_cons, streamBits_nil, List.append_nil,
      byteBits_eq_pendingBits_append hc packs.zeros, ← List.append_assoc, packs.bits]

/-- Settles O46: ENCODE writes the whole bytes, FLUSH the pending bits with zeros below. -/
theorem paddedStreamIsCodesAndZeros : Obligations.PaddedStreamIsCodesAndZeros := by
  intro s t u hf encodes flushes hu
  obtain ⟨e, out, l, rfl, done⟩ := exec_encode_completed hf encodes (live_of_exec_flush flushes hu)
  obtain ⟨tail, p, gained, hp, padded⟩ := Packs.flushed done.packs flushes hu
  obtain ⟨length, rfl⟩ := padded_length padded hp
  have sink : e.sink.out = s.sink.out ++ out := congrArg Sink.out done.sink
  refine ⟨out ++ tail, ?_, length, padded⟩
  calc u.sink.out = e.sink.out ++ tail := gained
    _ = s.sink.out ++ (out ++ tail) := by rw [sink, List.append_assoc]

/-! The micro-steps (R188) -/

/-- `E_START` on a valid code table. -/
theorem microStep_start_encode (hv : s.codesValid = true) :
    microStep { s with seq := .eStart } = some (packed s (encodeStart s) s.src .eFetch) := if_pos hv

/-- `E_START` without one. -/
theorem microStep_start_encode_fails (hv : s.codesValid = false) :
    microStep { s with seq := .eStart } = some (raise .sequenceError (encode .encode) s) :=
  if_neg (ne_true_of_eq_false hv)

/-- Settles O55: after `E_START` the micro-steps follow the loop over the source. -/
theorem encodeIsItsStateMachine : Obligations.EncodeIsItsStateMachine := by
  intro s hf
  rcases Bool.eq_false_or_eq_true s.codesValid with hv | hv
  · obtain ⟨u, ends, reach⟩ := encode_reach s s.src (encodeStart s)
    exact of_reach (.step (microStep_start_encode hv) reach) ((exec_encode hf hv).trans ends)
  · exact of_reach (.one (microStep_start_encode_fails hv)) (exec_required hf hv)

end Sys2Proof.Machine
end

section
/-! DECODE and DECODEN as wholes: what they write up to the source's end, the limit or a refused symbol, and their
sequencer's micro-steps (44_decode.md R200 to R213). -/

namespace Sys2Proof.Machine

variable {s : State} {limit : Option Word}

/-! The end of the source (R206, R213) -/

/-- What a decode command writes back at the source's end. -/
theorem putUnpacker_between (s : State) (out : List Byte) (cur : Idx) :
    markTrunc (putUnpacker s ((decodeStart s).between out cur, [])) =
      { s with
        src := [], sink := s.sink.after out, symcnt := BitVec.ofNat 32 out.length
        dcur := cur, trunc := (cur != s.root), dsh := 0#8, dcnt := 0#4 } := by
  have symcnt : ((decodeStart s).between out cur).symcnt = BitVec.ofNat 32 out.length := BitVec.zero_add _
  rw [markTrunc, putUnpacker, symcnt]
  rfl

/-- A decode command whose limit lies beyond the symbols of its source writes the greedy parse. -/
theorem decodeBody_all (below : Below limit 0#32 (parsed s s.src).length)
    (accepted : s.sink.accepts (parsed s s.src).length) :
    decodeBody limit s = .next (complete
      { s with
        src := [], sink := s.sink.after (parsed s s.src), symcnt := BitVec.ofNat 32 (parsed s s.src).length
        dcur := parseEnd s s.src, trunc := (parseEnd s s.src != s.root), dsh := 0#8, dcnt := 0#4 }) := by
  have loop : decodeLoop ⟨s.node, s.root, limit⟩ s.src (decodeStart s) =
      .done ((decodeStart s).between (parsed s s.src) (parseEnd s s.src), []) :=
    decodeLoop_all rfl rfl below accepted
  rw [decodeBody, loop, ← putUnpacker_between]

theorem below_no_limit (symcnt : Word) (k : Nat) : Below none symcnt k := nofun

/-- Settles O47: DECODE has no limit to reach. -/
theorem decodeWritesTheGreedyParse : Obligations.DecodeWritesTheGreedyParse := by
  intro s hf hv accepted
  refine ⟨0#8, 0#4, ?_⟩
  rw [exec_decode hf hv, decodeBody_all (below_no_limit _ _) accepted]

/-! The limit (R207, R211) -/

theorem below_symlim {k : Nat} (h : k < s.symlim.toNat) : Below (some s.symlim) 0#32 k :=
  (decodeStart_starts s (some s.symlim)).below_some rfl h

/-- DECODEN with a limit within the symbols of its source stops there, at ROOT. -/
theorem decodeBody_limit (reached : s.symlim.toNat ≤ (parsed s s.src).length) (accepted : s.sink.accepts s.symlim.toNat) :
    ∃ (m : Nat) (dsh : Byte) (dcnt : BitVec 4),
      decodeBody (some s.symlim) s = .next (complete
        { s with
          src := s.src.drop m, sink := s.sink.after ((parsed s s.src).take s.symlim.toNat), symcnt := s.symlim
          dcur := s.root, trunc := false, dsh := dsh, dcnt := dcnt }) ∧
      neededFor s s.symlim.toNat m ∧ dcnt.toNat ≤ 7 := by
  obtain ⟨d, m, loop, needed, sink, symcnt, dcur, bits⟩ := decodeLoop_limit (t := s.decodeTree (some s.symlim)) rfl
    (bs := s.src) (d := decodeStart s) (k := s.symlim.toNat) rfl (Nat.zero_add _) reached (fun _ => rfl) accepted
  refine ⟨m, d.dsh, d.dcnt, ?_, needed, bits⟩
  have sink : d.sink = s.sink.after ((parsed s s.src).take s.symlim.toNat) := sink
  have dcur : d.dcur = s.root := dcur
  have trunc : truncFlag s.root s.root = false := bne_self_eq_false s.root
  rw [decodeBody, show (⟨s.node, s.root, some s.symlim⟩ : DecodeTree) = s.decodeTree (some s.symlim) from rfl, loop]
  simp only [markTrunc, putUnpacker, sink, symcnt, dcur, trunc]

/-- Settles O48: the limit lies beyond the source's symbols, or within them. -/
theorem decodenStopsAtTheLimit : Obligations.DecodenStopsAtTheLimit := by
  intro s hf hv
  rw [exec_decoden hf hv]
  exact ⟨fun short accepted => ⟨0#8, 0#4, decodeBody_all (below_symlim short) accepted⟩, decodeBody_limit⟩

/-! A refused symbol (R208) -/

/-- Up to a refused symbol before the limit DECODEN does as DECODE. -/
theorem decodeBody_symlim {j : Nat} (before : j < s.symlim.toNat) (accepted : s.sink.accepts j)
    (refusal : s.sink.nth j = .err) : decodeBody (some s.symlim) s = decodeBody none s := by
  have loop := decodeLoop_lim (t := s.decodeTree none) (t' := s.decodeTree (some s.symlim)) rfl rfl (bs := s.src)
    (d := decodeStart s) (j := j) (below_no_limit _ _) (below_symlim before) accepted refusal
  simp only [State.decodeTree] at loop
  rw [decodeBody, decodeBody, loop]

/-- Settles O49: the loop raises at the leaf of the symbol after the j accepted ones. -/
theorem decodeRefusedSymbol : Obligations.DecodeRefusedSymbol := by
  intro s j sym hf hv symbol accepted refusal
  obtain ⟨d, m, loop, needed, symbol', leaf, sink, symcnt⟩ := decodeLoop_refused (t := s.decodeTree none) (bs := s.src)
    (d := decodeStart s) (j := j) (below_no_limit _ _) (List.getElem?_eq_some_iff.1 symbol).1 accepted refusal
  obtain rfl : leafSym (nodeGet s.node d.dcur) = sym := Option.some.inj (symbol'.symm.trans symbol)
  have sink : d.sink = (s.sink.after ((parsed s s.src).take j)).past 1 := sink
  have symcnt : d.symcnt = BitVec.ofNat 32 j := symcnt.trans (BitVec.zero_add _)
  refine ⟨m, d.dcur, d.dsh, d.dcnt, needed, leaf, rfl, ?raises, fun before => ?same⟩
  case raises =>
    rw [exec_decode hf hv, decodeBody, show (⟨s.node, s.root, none⟩ : DecodeTree) = s.decodeTree none from rfl, loop]
    simp only [putUnpacker, sink, symcnt]
    rfl
  case same => rw [exec_decode hf hv, exec_decoden hf hv, decodeBody_symlim before accepted refusal]

/-! The micro-steps (R212) -/

/-- `D_START` on a valid tree. -/
theorem microStep_start_decode (hv : s.treeValid = true) (l : Bool) :
    microStep { s with seq := .dStart l } = some (unpacked s (decodeStart s) s.src (.dCheck l)) := if_pos hv

/-- `D_START` without one. -/
theorem microStep_start_decode_fails (hv : s.treeValid = false) (l : Bool) :
    microStep { s with seq := .dStart l } = some (raise .sequenceError (decodeWord l) s) :=
  if_neg (ne_true_of_eq_false hv)

/-- From `D_START` on a valid tree the micro-steps of flag L follow the loop over the source. -/
theorem decodeBody_reach (hv : s.treeValid = true) (l : Bool) :
    ∃ n, decodeBody (limitOf s l) s = .next (microRun n { s with seq := .dStart l }) := by
  have start := microStep_start_decode hv l
  rcases decode_reach s l s.src (decodeStart s) rfl with ⟨d, loop, reach⟩ | ⟨v, d, loop, reach⟩
  · exact of_reach (.step start reach) (by simp only [State.decodeTree] at loop; rw [decodeBody, loop])
  · exact of_reach (.step start reach) (by simp only [State.decodeTree] at loop; rw [decodeBody, loop])

/-- Settles O56: both commands start at `D_START`, each with its flag. -/
theorem decodeIsItsStateMachine : Obligations.DecodeIsItsStateMachine := by
  intro s hf
  rcases Bool.eq_false_or_eq_true s.treeValid with hv | hv
  · rw [exec_decode hf hv, exec_decoden hf hv]
    exact ⟨decodeBody_reach hv false, decodeBody_reach hv true⟩
  · exact ⟨of_reach (.one (microStep_start_decode_fails hv false)) (exec_required hf hv),
      of_reach (.one (microStep_start_decode_fails hv true)) (exec_required hf hv)⟩

end Sys2Proof.Machine
end

section
/-! The greedy parse of a padded stream, and the round trip (44_decode.md R207, R209, R214). -/

namespace Sys2Proof.Machine

variable {s : State}

/-! Zero padding (R209) -/

theorem TreeOk.root_inner (T : TreeOk s) : s.isInner s.root :=
  ⟨by have := T.size; simp only [BitVec.le_def]; omega, T.root_lt⟩

theorem codeBits_replicate {code : Vector CodeEntry 256} {sym : Byte} {z : Nat}
    (zeros : (symGet code sym).string = List.replicate z false) (n : Nat) :
    codeBits code (List.replicate n sym) = List.replicate (n * z) false := by
  rw [codeBits, List.flatMap_replicate, zeros, List.flatten_replicate_replicate]

/-- In a tree some symbol has the code of zeros only. -/
theorem exists_zeros_code (T : TreeOk s) (C : CodesOk s) :
    ∃ sym z j, 0 < z ∧ (symGet s.code sym).string = List.replicate z false ∧
      leadsTo s.node s.root (List.replicate z false) j := by
  obtain ⟨z, j, pos, hj, walk⟩ := zero_walk T _ s.root T.root_inner (Nat.lt_succ_self _)
  exact ⟨leafSym (nodeGet s.node j), z, j, pos, T.leadsTo_unique T.root_lt (C.leads j hj) walk, walk⟩

/-- Fewer zeros than the code of zeros has give no symbol, and end at ROOT only if there are none. -/
theorem parse_fewer_zeros (T : TreeOk s) {z r : Nat} {j : Idx}
    (walk : leadsTo s.node s.root (List.replicate z false) j) (hr : r < z) :
    ∃ q, parse s.node s.root s.root (List.replicate r false) = ([], q) ∧ (q = s.root ↔ r = 0) := by
  obtain ⟨q, silent, toQ, -⟩ := parse_short (root := s.root) walk r hr
  refine ⟨q, silent, fun e => ?_, fun e => ?_⟩
  · subst e
    simpa using T.leadsTo_unique T.root_lt toQ (show leadsTo s.node s.root [] s.root from rfl)
  · subst e
    exact toQ.symm

/-- Settles O50: p zeros are p/z codes of z zeros, and p % z zeros left over. -/
theorem zeroPaddingDecodesToOneSymbol : Obligations.ZeroPaddingDecodesToOneSymbol := by
  intro s h hv
  have T := h.tree (h.flags hv)
  have C := h.codes hv
  obtain ⟨sym, z, j, pos, zeros, walk⟩ := exists_zeros_code T C
  refine ⟨sym, z, pos, zeros, fun x y p coded stream => ?_⟩
  have codedSym : (symGet s.code sym).len ≠ 0#8 := fun e => by
    have := congrArg List.length zeros
    rw [CodeEntry.length_string, e, List.length_replicate] at this
    exact pos.ne this
  have codedAll : allCoded s.code (x ++ List.replicate (p / z) sym) := fun r hr =>
    (List.mem_append.1 hr).elim (coded r) fun hr => (List.eq_of_mem_replicate hr) ▸ codedSym
  have split : streamBits y =
      codeBits s.code (x ++ List.replicate (p / z) sym) ++ List.replicate (p % z) false := by
    rw [stream, codeBits_append, codeBits_replicate zeros, List.append_assoc, List.replicate_append_replicate,
      Nat.mul_comm, Nat.div_add_mod]
  obtain ⟨q, silent, atRoot⟩ := parse_fewer_zeros T walk (Nat.mod_lt p pos)
  rw [parsed, parseEnd, split, parse_codes T C _ _ codedAll, silent]
  exact ⟨List.append_nil _, atRoot⟩

/-! DECODEN of a padded stream (R207) -/

/-- FAULT = 0, with a tree and a code table in which every byte of x has a code. -/
structure CodesFor (s : State) (x : List Byte) : Prop where
  live : s.fault = false
  treeValid : s.treeValid = true
  codesValid : s.codesValid = true
  tree : TreeOk s
  codes : CodesOk s
  coded : allCoded s.code x

/-- Neither FAULT nor the tree nor the codes are in a stream or in a register that the Encoder or the host writes. -/
theorem CodesFor.streams {x src : List Byte} {sink : Sink} {ebuf : Byte} {ecnt : BitVec 4} {symcnt symlim : Word}
    {kBit : BitVec 8} {seq : Seq} {resp : Response} (h : CodesFor s x) :
    CodesFor
      { s with
        src := src, sink := sink, ebuf := ebuf, ecnt := ecnt, symcnt := symcnt, symlim := symlim, kBit := kBit
        seq := seq, resp := resp } x :=
  { h with tree := h.tree.transfer rfl rfl rfl rfl rfl, codes := h.codes.transfer rfl rfl rfl rfl }

/-- Fewer bits than the codes of x have give fewer symbols than x. -/
theorem parse_fewer_bits (T : TreeOk s) (C : CodesOk s) {x : List Byte} (coded : allCoded s.code x)
    {bits rest : List Bool} (split : bits ++ rest = codeBits s.code x) (proper : rest ≠ []) :
    (parse s.node s.root s.root bits).1.length < x.length := by
  have whole := parse_codes T C x [] coded
  rw [List.append_nil, ← split, parse_append] at whole
  obtain ⟨symbols, ends⟩ := Prod.mk.inj whole
  have count := congrArg List.length symbols
  have cur := parse_end T bits s.root T.root_inner
  generalize parse s.node s.root s.root bits = a at *
  simp only [parse, List.append_nil, List.length_append] at count ends
  by_contra all
  have silent : (parse s.node s.root a.2 rest).1 = [] := List.eq_nil_of_length_eq_zero (by omega)
  have back := parse_silent T rest a.2 s.root cur (Prod.ext silent ends)
  have room := cur.2
  have size := T.size
  have positive := List.length_pos_iff.2 proper
  rw [BitVec.lt_def] at room
  omega

/-- The symbols of x need the whole stream, if its padding is less than a byte. -/
theorem needed_whole (T : TreeOk s) (C : CodesOk s) {x : List Byte} (coded : allCoded s.code x) {p m : Nat} (hp : p < 8)
    (stream : streamBits s.src = codeBits s.code x ++ List.replicate p false)
    (needed : x.length ≤ (parsed s (s.src.take m)).length) : s.src.length ≤ m := by
  by_contra short
  have bits : streamBits (s.src.take m) ++ streamBits (s.src.drop m) = codeBits s.code x ++ List.replicate p false := by
    rw [← streamBits_append, List.take_append_drop, stream]
  have lengths := congrArg List.length bits
  have left : 8 ≤ (streamBits (s.src.drop m)).length := by
    rw [length_streamBits, List.length_drop]; omega
  simp only [List.length_append, List.length_replicate] at lengths
  obtain ⟨rest, split, -⟩ | ⟨rest, split, -⟩ := List.append_eq_append_iff.1 bits
  · have proper : rest ≠ [] := by
      rintro rfl
      have := congrArg List.length split
      simp only [List.append_nil] at this
      omega
    exact needed.not_gt (parse_fewer_bits T C coded split.symm proper)
  · have := congrArg List.length split
    rw [List.length_append] at this
    omega

/-- DECODEN with the number of encoded symbols as limit takes a padded stream whole and writes the symbols. -/
theorem exec_decoden_padded {x : List Byte} (ready : CodesFor s x) {p : Nat} (hp : p < 8)
    (stream : streamBits s.src = codeBits s.code x ++ List.replicate p false)
    (limit : s.symlim.toNat = x.length) (accepted : s.sink.accepts x.length) :
    ∃ (dsh : Byte) (dcnt : BitVec 4),
      exec .decoden s = .next (complete
        { s with
          src := [], sink := s.sink.after x, symcnt := s.symlim, dcur := s.root, trunc := false
          dsh := dsh, dcnt := dcnt }) := by
  obtain ⟨hf, hv, -, T, C, coded⟩ := ready
  obtain ⟨more, symbols⟩ : ∃ more, parsed s s.src = x ++ more :=
    ⟨_, congrArg Prod.fst ((congrArg _ stream).trans (parse_codes T C x _ coded))⟩
  have within : s.symlim.toNat ≤ (parsed s s.src).length := by rw [symbols, limit, List.length_append]; omega
  obtain ⟨m, dsh, dcnt, ends, ⟨needed, -⟩, -⟩ := (decodenStopsAtTheLimit s hf hv).2 within (limit ▸ accepted)
  have taken : s.src.drop m = [] := List.drop_eq_nil_iff.2 (needed_whole T C coded hp stream (limit ▸ needed))
  have first : (parsed s s.src).take s.symlim.toNat = x := by rw [symbols, limit, List.take_left]
  rw [taken, first] at ends
  exact ⟨dsh, dcnt, ends⟩

/-! COUNT, BUILD and GENCODE on an input -/

theorem two_le_alphabetSize {cnt : Vector Word 256} {a b : Byte} (ha : 0#32 < symGet cnt a) (hb : 0#32 < symGet cnt b)
    (ne : a ≠ b) : 2 ≤ alphabetSize cnt := by
  have both : [a, b] ⊆ seeds cnt := by simp [mem_seeds, ha, hb]
  rw [← length_seeds]
  exact (List.subperm_of_subset (by simpa using ne) both).length_le

/-- BUILD and GENCODE give every counted symbol a code. -/
theorem exec_build_gencode (hf : s.fault = false) (hk : 2 ≤ alphabetSize s.cnt) (total : countTotal s.cnt < 2 ^ 32)
    {x : List Byte} (counted : ∀ r ∈ x, 0#32 < symGet s.cnt r) :
    ∃ t u, exec .build s = .next t ∧ exec .gencode t = .next u ∧ CodesFor u x ∧ u.sink = s.sink := by
  obtain ⟨t, build, live, valid, sink⟩ :
      ∃ t, exec .build s = .next t ∧ t.fault = false ∧ t.treeValid = true ∧ t.sink = s.sink :=
    ⟨_, exec_build_completes hf hk, hf, rfl, rfl⟩
  obtain ⟨T, -, leaf, -⟩ := buildMakesATree s t hf total build live
  obtain ⟨code, gencode, visited⟩ := exec_gencode_tree live valid T
  have C := visited_codesOk T visited
  have coded : allCoded code x := fun r hr => (C.coded r).2 <| by
    obtain ⟨j, hj, word⟩ := (leaf r).1 (counted r hr)
    exact ⟨j, hj, by rw [word, leafSym_leafWord]⟩
  exact ⟨t, _, build, gencode,
    ⟨live, valid, rfl, T.transfer rfl rfl rfl rfl rfl, C.transfer rfl rfl rfl rfl, coded⟩, sink⟩

/-- COUNT, BUILD and GENCODE on an input of two distinct bytes or more give each of its bytes a code. -/
theorem exec_count_build_gencode (hf : s.fault = false) (fits : s.src.length < 2 ^ 32)
    (distinct : ∃ a ∈ s.src, ∃ b ∈ s.src, a ≠ b) :
    ∃ t u v, exec .count s = .next t ∧ exec .build t = .next u ∧ exec .gencode u = .next v ∧ CodesFor v s.src ∧
      v.sink = s.sink := by
  obtain ⟨cnt, count, counts, total⟩ := countTalliesSource s hf fits
  have counted : ∀ r ∈ s.src, 0#32 < symGet cnt r := fun r hr => by
    rw [BitVec.lt_def, counts]
    exact List.count_pos_iff.2 hr
  obtain ⟨a, ha, b, hb, ne⟩ := distinct
  obtain ⟨u, v, build, gencode, ready, sink⟩ := exec_build_gencode
    (s := complete { s with cnt := cnt, symcnt := BitVec.ofNat 32 s.src.length, src := [] }) hf
    (two_le_alphabetSize (counted a ha) (counted b hb) ne) (total.trans_lt fits) counted
  exact ⟨_, u, v, count, build, gencode, ready, sink⟩

/-! ENCODE and FLUSH with every write accepted -/

/-- FLUSH with an accepting sink writes one byte or none. -/
theorem exec_flush_accepted (hf : s.fault = false) (accepted : s.sink.accepts 1) :
    ∃ (tail : List Byte) (ebuf : Byte) (ecnt : BitVec 4), exec .flush s =
      .next (complete { s with sink := s.sink.after tail, ebuf := ebuf, ecnt := ecnt }) := by
  by_cases h0 : s.ecnt = 0#4
  · exact ⟨[], s.ebuf, s.ecnt, by rw [exec_flush_empty hf h0, Sink.after_nil]⟩
  · exact ⟨[s.ebuf], 0#8, 0#4, exec_flush_ok hf h0 (accepted 0 Nat.one_pos)⟩

/-- ENCODE and FLUSH write the codes of the source and fewer than eight zeros. -/
theorem exec_encode_flush {x : List Byte} (h : CodesFor s x) (source : s.src = x)
    (accepted : s.sink.accepts ((codeBits s.code x).length / 8 + 1)) :
    ∃ t u y p, exec .encode s = .next t ∧ exec .flush t = .next u ∧ u.sink = s.sink.after y ∧ p < 8 ∧
      streamBits y = codeBits s.code x ++ List.replicate p false ∧ CodesFor u x ∧ u.code = s.code := by
  subst source
  obtain ⟨out, ebuf, ecnt, k, encodes, packs⟩ := encodePacksTheCodes s h.live h.codesValid h.coded
    (Sink.accepts_mono accepted (Nat.le_succ _))
  have written := packs.count
  have next : (s.sink.after out).accepts 1 := Sink.accepts_after accepted (by omega)
  obtain ⟨tail, ebuf', ecnt', flushes⟩ := exec_flush_accepted (s := complete
    { s with
      src := [], sink := s.sink.after out, ebuf := ebuf, ecnt := ecnt
      symcnt := BitVec.ofNat 32 s.src.length, kBit := k }) h.live next
  obtain ⟨tail', p, gained, hp, padded⟩ := Packs.flushed packs flushes h.live
  obtain rfl : tail = tail' := List.append_cancel_left gained
  exact ⟨_, _, out ++ tail, p, encodes, flushes, Sink.after_after _ _ _, hp, padded, h.streams, rfl⟩

/-! The round trip -/

/-- What the sink has accepted does not bear on what it accepts next. -/
theorem Sink.accepts_taken {k : Sink} {n : Nat} (h : k.accepts n) (out : List Byte) :
    ({ k with out := out } : Sink).accepts n := h

/-- Settles O51: the padded stream of the codes, which the tree of the input's own counts gives, is decoded whole. -/
theorem roundTripReproducesInput : Obligations.RoundTripReproducesInput := by
  intro s x hf fits distinct accepted
  obtain ⟨s1, s2, s3, count, build, gencode, ready, sink3⟩ :=
    exec_count_build_gencode (s := { s with src := x }) hf fits distinct
  have sink3 : s3.sink = s.sink := sink3
  have bits := codeBits_length s3.code x
  have room3 : s3.sink.accepts ((codeBits s3.code x).length / 8 + 1) := sink3 ▸ Sink.accepts_mono accepted (by omega)
  obtain ⟨s4, s5, y, p, encode, flush, sink5, hp, padded, ready5, code5⟩ :=
    exec_encode_flush (s := { s3 with src := x }) ready.streams rfl room3
  have sink5 : s5.sink = s.sink.after y := sink5.trans (congrArg (Sink.after · y) sink3)
  have length : y.length = ((codeBits s3.code x).length + 7) / 8 := (padded_length padded hp).1
  have room5 : s5.sink.accepts x.length := sink5 ▸ Sink.accepts_after accepted (by omega)
  have taken : s5.sink.out.drop s.sink.out.length = y := by rw [sink5, Sink.after_out, List.drop_left]
  obtain ⟨dsh, dcnt, decode⟩ := exec_decoden_padded (x := x)
    (s := { s5 with src := y, symlim := BitVec.ofNat 32 x.length, sink := { s5.sink with out := [] } })
    ready5.streams hp (padded.trans (by rw [code5])) (by rw [BitVec.toNat_ofNat, Nat.mod_eq_of_lt fits])
    (Sink.accepts_taken room5 [])
  subst taken
  exact ⟨s1, s2, s3, s4, s5, _, count, build, gencode, encode, flush, decode, rfl, ready5.live, rfl, rfl, rfl, length⟩

end Sys2Proof.Machine
end

section
/-! RESET and `rst`: every item of the block at its reset value, the environment kept (45_system.md R220, R221). -/

namespace Sys2Proof.Machine

variable {s : State}

/-- What the host holds is no item of the block. -/
theorem IsReset.environment (h : IsReset s) (src : List Byte) (sink : Sink) (pending : List HostAction)
    (names : List (Nat × HostVal)) (resp : Response) :
    IsReset { s with src := src, sink := sink, pending := pending, names := names, resp := resp } := { h with }

theorem IsReset.after_complete (h : IsReset s) : IsReset (complete s) := { h with seq := rfl }

theorem isReset_resetBlock (s : State) : IsReset (resetBlock s) := isReset_reset.environment _ _ _ _ _

/-- `rst` does what RESET does, but for the response. -/
theorem hostStep_hardReset (s : State) :
    hostStep .hardReset s = .next { complete (resetBlock s) with resp := s.resp } := rfl

/-- Settles O11: RESET and `rst` both leave the reset block; in the fault state every other command is refused. -/
theorem resetWritesEveryItem : Obligations.ResetWritesEveryItem := by
  refine ⟨fun w => decode_ok_iff, fun s => ⟨_, exec_reset s, ?items, rfl, ?env⟩, fun s hf i hi => exec_faulted hf hi⟩
  case items => exact (isReset_resetBlock s).after_complete
  case env => exact ⟨rfl, rfl, rfl, rfl, s.resp, hostStep_hardReset s⟩

end Sys2Proof.Machine
end

section
/-! Faults: how every command and every step ends, which cause each command records, and what the fault state refuses
(60_exceptions.md R231 to R252). -/

namespace Sys2Proof.Machine

variable {s t : State}

/-! How a step ends (R251, R252) -/

/-- Settles O6: a command that may run completes or raises; in the fault state RESET completes and the rest is refused. -/
theorem everyCommandAnswers : Obligations.EveryCommandAnswers := by
  intro i s
  rcases Bool.eq_false_or_eq_true s.fault with hf | hf
  · by_cases hi : i = .reset
    · subst hi
      exact ⟨_, exec_reset s, .inl ⟨rfl, rfl, rfl⟩⟩
    · exact ⟨_, exec_faulted hf hi, .inr (.inr ⟨hf, rfl⟩)⟩
  · rcases exec_ends i hf with ⟨u, he, hu⟩ | ⟨c, v, u, he, -⟩
    · exact ⟨_, he, .inl ⟨rfl, hu, rfl⟩⟩
    · exact ⟨_, he, .inr (.inl ⟨rfl, rfl, rfl, hf⟩)⟩

/-- A word written to CMD is always answered (30_encoding.md R104). -/
theorem issue_answers (w : Word) (s : State) : ∃ t, issue w s = .next t := by
  by_cases legal : ∃ i, w = encode i
  · obtain ⟨i, rfl⟩ := legal
    obtain ⟨t, he, -⟩ := everyCommandAnswers i s
    exact ⟨t, (issue_encode i s).trans he⟩
  · have illegal := not_exists.1 legal
    cases hf : s.fault with
    | false => exact ⟨_, issue_illegal_live illegal hf⟩
    | true => exact ⟨_, issue_faulted (illegal .reset) hf⟩

/-- A write issues its word at CMD, stores it at SYMLIM, and is refused elsewhere (20_memory.md R63, R67). -/
theorem memWrite_cases (addr : Addr) (n : Nat) (v : Word) (s : State) :
    ((addr = 0x0000#15 ∧ n = 4) ∧ memWrite addr n v s = issue v s) ∨
      memWrite addr n v s = .next { s with symlim := v, resp := .ok } ∨ memWrite addr n v s = .next (refuse s) := by
  by_cases cmd : locate addr n = some .cmd
  · obtain ⟨rfl, rfl⟩ := locate_eq_cmd_iff.1 cmd
    exact .inl ⟨⟨rfl, rfl⟩, memWrite_cmd v s⟩
  · by_cases symlim : locate addr n = some .symlim
    · obtain ⟨rfl, rfl⟩ := (locate_writable symlim).2 rfl
      exact .inr (.inl (memWrite_symlim v s))
    · exact .inr (.inr (memWrite_of_ne cmd symlim v))

theorem memWrite_answers (addr : Addr) (n : Nat) (v : Word) (s : State) : ∃ t, memWrite addr n v s = .next t := by
  rcases memWrite_cases addr n v s with ⟨-, h⟩ | h | h
  · exact h ▸ issue_answers v s
  · exact ⟨_, h⟩
  · exact ⟨_, h⟩

theorem loadSrcName_unbound {x : Nat} (h : ∀ bs, lookupName x s.names ≠ some (.bytes bs)) :
    loadSrcName x s = .refused (.unboundName x) := by
  unfold loadSrcName
  split
  · exact absurd ‹_› (h _)
  · rfl

/-- Settles O7: every host action but `LOADSRC name` is answered whatever the state. -/
theorem onlyUnboundNamesAreRefused : Obligations.OnlyUnboundNamesAreRefused := by
  intro s
  cases hp : s.pending with
  | nil => exact .inl ⟨s, step_idle hp⟩
  | cons a rest =>
    rw [step_pending hp]
    cases a with
    | loadSrc bs => exact .inl ⟨_, rfl⟩
    | loadSrcName x =>
      by_cases bound : ∃ bs, lookupName x s.names = some (.bytes bs)
      · obtain ⟨bs, h⟩ := bound
        exact .inl ⟨_, loadSrcName_of_bytes h⟩
      · have unbound := not_exists.1 bound
        exact .inr ⟨x, rest, rfl, loadSrcName_unbound unbound, unbound⟩
    | takeSnk x => exact .inl ⟨_, rfl⟩
    | memWrite addr n v => exact .inl (memWrite_answers addr n v _)
    | memRead addr n x => exact .inl ⟨_, rfl⟩
    | hardReset => exact .inl ⟨_, rfl⟩
    | sinkAccepts m => exact .inl ⟨_, rfl⟩

/-- Settles O8: with no host action to perform, the step is the idle one. -/
theorem idleStepKeepsState : Obligations.IdleStepKeepsState := fun _ => step_idle

/-! The fault state (R242, R243) -/

/-- Settles O13: the guard of every command refuses, and the port's other accesses do not look at FAULT. -/
theorem faultStateRefuses : Obligations.FaultStateRefuses := by
  intro s hf
  refine ⟨fun w hw => issue_faulted hw hf, fun i hi => exec_faulted hf hi, fun v => memWrite_symlim v s, ?reads⟩
  case reads =>
    intro addr x l hl hne
    obtain ⟨v, hv⟩ := Option.ne_none_iff_exists'.1 (mt (readLoc_eq_none_iff (s := s)).1 hne)
    exact ⟨v, memRead_of_some ((portRead_of_locate hl).trans hv) x⟩

/-- In the fault state a write keeps FAULT, unless it is that of the RESET word to CMD. -/
theorem memWrite_keeps_fault_or_resets (hf : s.fault = true) {addr : Addr} {n : Nat} {v : Word}
    (he : memWrite addr n v s = .next t) :
    t.fault = true ∨ IsReset t ∧ HostAction.memWrite addr n v = .memWrite 0x0000#15 4 0x00000001#32 := by
  rcases memWrite_cases addr n v s with ⟨⟨rfl, rfl⟩, h⟩ | h | h <;> rw [h] at he
  · by_cases hv : v = encode .reset
    · subst hv
      rw [issue_encode, exec_reset] at he
      cases he
      exact .inr ⟨(isReset_resetBlock s).after_complete, rfl⟩
    · rw [issue_faulted hv hf] at he
      cases he
      exact .inl hf
  · cases he
    exact .inl hf
  · cases he
    exact .inl hf

/-- In the fault state a host action keeps FAULT, or it is a reset. -/
theorem hostStep_keeps_fault_or_resets (hf : s.fault = true) (a : HostAction) (he : hostStep a s = .next t) :
    t.fault = true ∨ IsReset t ∧ (a = .hardReset ∨ a = .memWrite 0x0000#15 4 0x00000001#32) := by
  cases a with
  | loadSrc bs => cases he; exact .inl hf
  | loadSrcName x =>
    by_cases bound : ∃ bs, lookupName x s.names = some (.bytes bs)
    · obtain ⟨bs, h⟩ := bound
      cases (loadSrcName_of_bytes h).symm.trans he
      exact .inl hf
    · cases (loadSrcName_unbound (not_exists.1 bound)).symm.trans he
  | takeSnk x => cases he; exact .inl hf
  | memWrite addr n v =>
    exact (memWrite_keeps_fault_or_resets hf he).imp_right fun ⟨reset, hw⟩ => ⟨reset, .inr hw⟩
  | memRead addr n x =>
    obtain ⟨names, resp, h⟩ := memRead_changes s addr n x
    cases he
    exact .inl (h ▸ hf)
  | hardReset => cases he; exact .inr ⟨isReset_resetBlock s, .inl rfl⟩
  | sinkAccepts m => cases he; exact .inl hf

/-- Settles O14: of the host's actions only the two resets clear FAULT. -/
theorem onlyResetLeavesFaultState : Obligations.OnlyResetLeavesFaultState := by
  intro s t hf he ht
  cases hp : s.pending with
  | nil =>
    cases (step_idle hp).symm.trans he
    exact absurd hf (ht ▸ nofun)
  | cons a rest =>
    have kept := hostStep_keeps_fault_or_resets (s := { s with pending := rest }) hf a ((step_pending hp).symm.trans he)
    obtain ⟨reset, action⟩ := kept.resolve_left (ht ▸ nofun)
    exact ⟨reset, rest, action.imp (fun e => by rw [e]) fun e => by rw [e]⟩

/-! The fault record of each command (R231, R236) -/

/-- The fault a command raises once it runs: its cause, with the information word (R231). The precondition's fault,
SequenceError, is not among them (R236). -/
def RunFault (i : Instr) (s t : State) : Prop :=
  match i with
  | .reset => False
  | .count => t.cause = .countOverflow ∧ t.symcnt = Config.maxCount ∧ ∃ r ∈ s.src, t.finfo = zext32 r
  | .build => t.cause = .configurationError ∧ t.nsyms.toNat < 2 ∧ t.finfo = zext32 t.nsyms
  | .gencode => t.cause = .representationLimitError ∧ ∃ (j : Idx) (bs : List Bool), t.finfo = zext32 j ∧
      bs.length = Config.maxLen ∧ leadsTo s.node s.root bs j ∧ isParent (nodeGet s.node j) = true
  | .encode => t.cause = .contractViolation ∧ (∃ r ∈ s.src, t.finfo = zext32 r ∧ (symGet s.code r).len = 0#8) ∨
      t.cause = .ioError ∧ t.finfo = zext32 t.ebuf
  | .flush => t.cause = .ioError ∧ t.finfo = zext32 s.ebuf
  | .decode | .decoden => t.cause = .ioError ∧ t.finfo = zext32 (leafSym (nodeGet s.node t.dcur))

/-- No fault was raised: FAULT is 0, and CAUSE is as it was or cleared by RESET. -/
def NoFault (s t : State) : Prop := t.fault = false ∧ (t.cause = s.cause ∨ t.cause = .none)

theorem exec_count_record (hf : s.fault = false) (he : exec .count s = .next t) : NoFault s t ∨ RunFault .count s t := by
  rcases fits_or_overflows s.src with fits | ⟨pre, r, rest, hs, hl⟩
  · cases (exec_count_fits hf fits).symm.trans he
    exact .inl ⟨hf, .inl rfl⟩
  · cases (exec_count_overflow hf hs hl).symm.trans he
    refine .inr ⟨rfl, ?_, r, by simp [hs], rfl⟩
    rw [putTally_tallyAll, hl]
    rfl

theorem exec_build_record (hf : s.fault = false) (he : exec .build s = .next t) : NoFault s t ∨ RunFault .build s t := by
  rcases buildBody_next ((unlessFaulted_live hf _).symm.trans he) with ⟨hk, rfl⟩ | ⟨-, rfl⟩
  · exact .inr ⟨rfl, (seeded_nnodes s).trans_lt hk, rfl⟩
  · exact .inl ⟨hf, .inl rfl⟩

theorem exec_gencode_record (hf : s.fault = false) (hv : s.treeValid = true) (he : exec .gencode s = .next t) :
    NoFault s t ∨ RunFault .gencode s t := by
  rcases gencodeBody_next ((exec_gencode hf hv).symm.trans he) with ⟨w, -, rfl⟩ | ⟨c, v, w, walk, rfl⟩
  · exact .inl ⟨hf, .inl rfl⟩
  · obtain ⟨rfl, bs, j, hl, hw, hp, rfl⟩ := visit_raised walk
    exact .inr ⟨rfl, j, bs, rfl, hl, hw, hp⟩

theorem exec_encode_record (hf : s.fault = false) (hv : s.codesValid = true) (he : exec .encode s = .next t) :
    NoFault s t ∨ RunFault .encode s t := by
  rcases exec_encode_cases hf hv with ⟨_, _, _, q, -⟩ | ⟨_, r, _, _, _, _, hs, hr, q, -⟩ |
    ⟨_, _, _, _, _, _, _, _, _, -, -, -, q, -⟩ <;> cases q.symm.trans he
  · exact .inl ⟨hf, .inl rfl⟩
  · exact .inr (.inl ⟨rfl, r, by simp [hs], rfl, hr⟩)
  · exact .inr (.inr ⟨rfl, rfl⟩)

theorem exec_flush_record (hf : s.fault = false) (he : exec .flush s = .next t) : NoFault s t ∨ RunFault .flush s t := by
  rcases exec_flush_cases hf with ⟨-, q⟩ | ⟨-, q⟩ | ⟨-, q⟩ <;> cases q.symm.trans he
  · exact .inl ⟨hf, .inl rfl⟩
  · exact .inl ⟨hf, .inl rfl⟩
  · exact .inr ⟨rfl, rfl⟩

/-- DECODE and DECODEN record the same fault. -/
theorem decodeBody_record (hf : s.fault = false) {limit : Option Word} (he : decodeBody limit s = .next t) :
    NoFault s t ∨ RunFault .decode s t := by
  rcases decodeBody_cases limit s with q | ⟨_, _, _, -, q, -⟩ | ⟨_, _, _, q, -⟩ <;> cases q.symm.trans he
  · exact .inl ⟨hf, .inl rfl⟩
  · exact .inl ⟨hf, .inl rfl⟩
  · exact .inr ⟨rfl, rfl⟩

/-- A command that runs ends without a fault, or with one of its own. -/
theorem exec_record {i : Instr} (hf : s.fault = false) (hr : s.required i = true) (he : exec i s = .next t) :
    NoFault s t ∨ RunFault i s t := by
  cases i with
  | reset => cases he; exact .inl ⟨rfl, .inr rfl⟩
  | count => exact exec_count_record hf he
  | build => exact exec_build_record hf he
  | gencode => exact exec_gencode_record hf hr he
  | encode => exact exec_encode_record hf hr he
  | flush => exact exec_flush_record hf he
  | decode => exact decodeBody_record hf ((exec_decode hf hr).symm.trans he)
  | decoden => exact decodeBody_record hf ((exec_decoden hf hr).symm.trans he)

/-- Which flag a command whose precondition fails requires (R236). -/
theorem required_eq_false_iff {i : Instr} : s.required i = false ↔
    s.treeValid = false ∧ (i = .gencode ∨ i = .decode ∨ i = .decoden) ∨ s.codesValid = false ∧ i = .encode := by
  cases i <;> simp [State.required]

/-- No command that runs raises SequenceError. -/
theorem RunFault.cause_ne {i : Instr} (h : RunFault i s t) : t.cause ≠ .sequenceError := by
  intro hc
  cases i with
  | reset => exact h
  | encode => rcases h with ⟨c, -⟩ | ⟨c, -⟩ <;> cases hc.symm.trans c
  | count | build | gencode | flush | decode | decoden => cases hc.symm.trans h.1

/-- Settles O15: the check comes first, and a command that passes it records another cause, if any. -/
theorem sequenceErrorExactlyWhereFlagIsZero : Obligations.SequenceErrorExactlyWhereFlagIsZero := by
  refine ⟨fun s hf hv => ?tree, fun s hf hv => exec_required (i := .encode) hf hv, fun i s t hf hs he ht => ?converse⟩
  case tree =>
    exact ⟨exec_required (i := .gencode) hf hv, exec_required (i := .decode) hf hv, exec_required (i := .decoden) hf hv⟩
  case converse =>
    refine required_eq_false_iff.1 (eq_false_of_ne_true fun hr => ?_)
    rcases exec_record hf hr he with ⟨-, kept | cleared⟩ | raised
    · exact hs (kept.symm.trans ht)
    · cases cleared.symm.trans ht
    · exact raised.cause_ne ht

/-- Settles O16: a fault is the precondition's or one of those a running command raises. -/
theorem causesAndInformationWords : Obligations.CausesAndInformationWords := by
  refine ⟨⟨rfl, rfl, rfl, rfl, rfl, rfl, rfl, rfl⟩, fun i s t hf he ht => ?_⟩
  cases hr : s.required i with
  | false =>
    cases (exec_required hf hr).symm.trans he
    cases i with
    | reset | count | build | flush => cases hr
    | gencode | encode | decode | decoden => exact .inl ⟨rfl, rfl⟩
  | true =>
    have raised := (exec_record hf hr he).resolve_left fun h => by cases ht.symm.trans h.1
    cases i with
    | reset | count | build | flush => exact raised
    | gencode | encode | decode | decoden => exact .inr raised

end Sys2Proof.Machine
end

section
/-! The reset state as the start of every flow, and the validity flags as a state machine (70_reset_and_hazards.md R261,
R264). -/

namespace Sys2Proof.Machine

variable {s t : State}

/-! The reset state (R261) -/

/-- A state whose block items are reset is the reset block in its own environment. -/
theorem IsReset.eq_resetBlock (h : IsReset s) : s = resetBlock s := by
  have cnt : s.cnt = clearedCounts := symGet_ext fun x => (h.cnt x).trans (symGet_clearedCounts x).symm
  have code : s.code = clearedCodes := symGet_ext fun x => (h.code x).trans (symGet_clearedCodes x).symm
  have node : s.node = Vector.replicate 511 0#32 := Vector.ext fun i hi => by simpa using h.node ⟨i, hi⟩
  have wgt : s.wgt = Vector.replicate 511 0#32 := Vector.ext fun i hi => by simpa using h.wgt ⟨i, hi⟩
  have cause : s.cause = .none := by
    have zero := h.cause
    cases hc : s.cause with
    | none => rfl
    | _ => rw [hc] at zero; cases zero
  cases s
  subst cnt code node wgt cause
  obtain ⟨rfl, rfl, rfl, rfl⟩ := h.flags
  obtain ⟨rfl, rfl⟩ := h.counts
  obtain ⟨rfl, rfl, rfl⟩ := h.tree
  obtain ⟨rfl, rfl⟩ := h.buffer
  obtain ⟨rfl, rfl⟩ := h.unpacker
  obtain ⟨rfl, rfl, rfl, rfl, rfl, rfl, rfl⟩ := h.scratch
  obtain rfl := h.finfo
  obtain rfl := h.dcur
  obtain rfl := h.pq
  obtain rfl := h.seq
  rfl

/-- Settles O12: in the reset block both validity flags are 0, the counts are those of the empty input and no bit is
pending. -/
theorem resetStateStartsEveryFlow : Obligations.ResetStateStartsEveryFlow := by
  intro s reset
  have cleared := reset.cnt
  obtain ⟨r, rfl⟩ : ∃ r, s = resetBlock r := ⟨s, reset.eq_resetBlock⟩
  refine ⟨fun fits => ⟨_, exec_count_fits rfl fits, rfl, rfl⟩, ?build, exec_required (i := .gencode) rfl rfl,
    exec_required (i := .encode) rfl rfl, exec_required (i := .decode) rfl rfl, exec_required (i := .decoden) rfl rfl,
    exec_flush_empty rfl rfl, exec_reset _⟩
  case build => exact (buildFailsBelowTwoSymbols _ rfl).1 cleared

/-! The validity flags (R264) -/

/-- BUILD clears both flags first and sets TREE_VALID only where it completes (41_build.md R131, R137). -/
theorem exec_build_flags (hf : s.fault = false) (he : exec .build s = .next t) :
    t.codesValid = false ∧ (t.treeValid = true ↔ t.fault = false) := by
  rcases buildBody_next ((unlessFaulted_live hf _).symm.trans he) with ⟨-, rfl⟩ | ⟨-, rfl⟩
  · exact ⟨rfl, by simp⟩
  · exact ⟨rfl, iff_of_true rfl hf⟩

/-- GENCODE keeps TREE_VALID; where it completes, that flag was 1 and CODES_VALID is set (42_gencode.md R160). -/
theorem exec_gencode_flags (hf : s.fault = false) (he : exec .gencode s = .next t) :
    t.treeValid = s.treeValid ∧ (t.fault = false → t.treeValid = true ∧ t.codesValid = true) := by
  obtain ⟨-, -, gencode, -⟩ := commandsWriteOnlyTheirColumn s t
  refine ⟨by rw [gencode he], fun ht => ?_⟩
  obtain ⟨valid, w, -, rfl⟩ := gencode_of_exec hf he ht
  exact ⟨valid, rfl⟩

/-- Settles O19: but for RESET, BUILD and GENCODE no command has a validity flag in its column of R29. -/
theorem validityFlagsStateMachine : Obligations.ValidityFlagsStateMachine := by
  intro i s t hf he
  obtain ⟨count, -, -, encode, flush, decode⟩ := commandsWriteOnlyTheirColumn s t
  cases i with
  | reset => cases he; exact ⟨rfl, rfl⟩
  | build => exact exec_build_flags hf he
  | gencode => exact exec_gencode_flags hf he
  | count => rw [count he]; exact ⟨rfl, rfl⟩
  | encode => rw [encode he]; exact ⟨rfl, rfl⟩
  | flush => rw [flush he]; exact ⟨rfl, rfl⟩
  | decode => rw [decode (.inl he)]; exact ⟨rfl, rfl⟩
  | decoden => rw [decode (.inr he)]; exact ⟨rfl, rfl⟩

end Sys2Proof.Machine
end
